-- ==== Sys2Proof/Word.lean ====
section
/-! DEFINITION. The words of the block and their plainest arithmetic (00_scope.md R14, R15). -/

namespace Sys2Proof

/-- One element of the receive buffer or of a cache entry (20_memory.md R60). -/
abbrev Byte := BitVec 8

/-- A register, a time value or a callback tag: `TICK_W`, `LATE_W`, `TAG_W` are 16 (00_scope.md R6). -/
abbrev Reg16 := BitVec 16

/-- A command word or a response word (30_encoding.md R80). -/
abbrev Word32 := BitVec 32

/-- `add16(a, b) = (a + b) mod 65536` (R15). -/
abbrev add16 (a b : Reg16) : Reg16 := a + b

/-- `dist16(a, b) = (a - b) mod 65536`, the forward distance from `b` to `a` (R15). -/
abbrev dist16 (a b : Reg16) : Reg16 := a - b

/-- `inc16(a) = add16(a, 1)` (R15). -/
abbrev inc16 (a : Reg16) : Reg16 := add16 a 1

end Sys2Proof
end

