-- ==== Sys2Proof/Syntax.lean ====
section
/-! DEFINITION. The fourteen commands of the block (30_encoding.md R85), one constructor per row of the opcode map.
Every operand is one contiguous field of the command word, read as an unsigned number (R84), so its type is a bit
vector of the field's width. -/

namespace Sys2Proof

/-- A command. The fields are the operands of R82, named as R84 names them. -/
inductive Instr where
  | rdreg (rn : BitVec 8)
  | fcLd (idx : BitVec 8) (d : BitVec 8)
  | fcRd (idx : BitVec 8)
  | fcVal (len : BitVec 8) (hw : Bool)
  | vtSetcbSlot (tag : BitVec 16)
  | vtSetcbPeriod (tag : BitVec 16)
  | vtSetcbOffset (tag : BitVec 16)
  | vtArmSlot (v : BitVec 16)
  | vtArmPeriod (v : BitVec 16)
  | vtArmOffset (v : BitVec 16)
  | vtCancelSlot
  | vtCancelPeriod
  | vtCancelOffset
  | vtCbret
deriving DecidableEq, Repr

/-- The mnemonic of R85. -/
def Instr.mnemonic : Instr → String
  | .rdreg _ => "RDREG"
  | .fcLd _ _ => "FC_LD"
  | .fcRd _ => "FC_RD"
  | .fcVal _ _ => "FC_VAL"
  | .vtSetcbSlot _ => "VT_SETCB_SLOT"
  | .vtSetcbPeriod _ => "VT_SETCB_PERIOD"
  | .vtSetcbOffset _ => "VT_SETCB_OFFSET"
  | .vtArmSlot _ => "VT_ARM_SLOT"
  | .vtArmPeriod _ => "VT_ARM_PERIOD"
  | .vtArmOffset _ => "VT_ARM_OFFSET"
  | .vtCancelSlot => "VT_CANCEL_SLOT"
  | .vtCancelPeriod => "VT_CANCEL_PERIOD"
  | .vtCancelOffset => "VT_CANCEL_OFFSET"
  | .vtCbret => "VT_CBRET"

/-- The ten commands of the VTD unit, those R88 (2) speaks of as "the ten `VT_*` commands". -/
def Instr.isVt : Instr → Bool
  | .rdreg _ => false
  | .fcLd _ _ => false
  | .fcRd _ => false
  | .fcVal _ _ => false
  | .vtSetcbSlot _ => true
  | .vtSetcbPeriod _ => true
  | .vtSetcbOffset _ => true
  | .vtArmSlot _ => true
  | .vtArmPeriod _ => true
  | .vtArmOffset _ => true
  | .vtCancelSlot => true
  | .vtCancelPeriod => true
  | .vtCancelOffset => true
  | .vtCbret => true

end Sys2Proof
end

