-- ==== Sys2Proof/Decode.lean ====
section
/-! DEFINITION. The decoder, total on 32-bit words and rejecting by name, and after it the encoder
(30_encoding.md R80 to R89). -/

namespace Sys2Proof

/-- Why a word is no command; both are the response `E_ILLEGAL` (R87). -/
inductive DecodeError where
  /-- The `op` field is none of the fourteen of R85. -/
  | unknownOpcode
  /-- A known `op` with a reserved bit set (R82). -/
  | reservedBitSet
deriving DecidableEq, Repr

/-- `op`, bits 31:24 (R81). -/
def opField (w : Word32) : BitVec 8 := w.extractLsb' 24 8

/-- `a`, bits 23:16 (R81). -/
def aField (w : Word32) : BitVec 8 := w.extractLsb' 16 8

/-- `b`, bits 15:0 (R81). -/
def bField (w : Word32) : BitVec 16 := w.extractLsb' 0 16

/-- A command of format N: `a` and `b` reserved (R82). -/
def formatN (w : Word32) (i : Instr) : Except DecodeError Instr :=
  if aField w = 0 ∧ bField w = 0 then .ok i else .error .reservedBitSet

/-- A command of format T: `a` reserved, `b` the value `v` (R82). -/
def formatT (w : Word32) (mk : BitVec 16 → Instr) : Except DecodeError Instr :=
  if aField w = 0 then .ok (mk (bField w)) else .error .reservedBitSet

/-- A command of format R, or of format X with `b` reserved: `a` the operand, `b` reserved (R82). -/
def formatR (w : Word32) (mk : BitVec 8 → Instr) : Except DecodeError Instr :=
  if bField w = 0 then .ok (mk (aField w)) else .error .reservedBitSet

/-- A command of format X with a data byte: `a` the index, `b[7:0]` the byte, `b[15:8]` reserved (R82). -/
def formatX (w : Word32) (mk : BitVec 8 → BitVec 8 → Instr) : Except DecodeError Instr :=
  if (bField w).extractLsb' 8 8 = 0 then .ok (mk (aField w) ((bField w).extractLsb' 0 8)) else .error .reservedBitSet

/-- A command of format F: `a` the length, `b[0]` the hardware bit, `b[15:1]` reserved (R82). -/
def formatF (w : Word32) (mk : BitVec 8 → Bool → Instr) : Except DecodeError Instr :=
  if (bField w).extractLsb' 1 15 = 0 then .ok (mk (aField w) ((bField w).getLsbD 0)) else .error .reservedBitSet

/-- The command a word stands for (R85), or the reason it is illegal (R87). -/
def decode (w : Word32) : Except DecodeError Instr :=
  match (opField w).toNat with
  | 0x02 => formatR w .rdreg
  | 0x10 => formatX w .fcLd
  | 0x11 => formatR w .fcRd
  | 0x12 => formatF w .fcVal
  | 0x20 => formatT w .vtSetcbSlot
  | 0x21 => formatT w .vtSetcbPeriod
  | 0x22 => formatT w .vtSetcbOffset
  | 0x24 => formatT w .vtArmSlot
  | 0x25 => formatT w .vtArmPeriod
  | 0x26 => formatT w .vtArmOffset
  | 0x28 => formatN w .vtCancelSlot
  | 0x29 => formatN w .vtCancelPeriod
  | 0x2A => formatN w .vtCancelOffset
  | 0x2C => formatN w .vtCbret
  | _ => .error .unknownOpcode

/-- The decoder's reading of an instruction whose bits are `w`, as spec/opcode_table.json numbers them: one 32-bit word
carried whole (20_memory.md R62), the bits at `nbits` and above 0. -/
def decodeTableWord (nbits w : Nat) : Option Instr :=
  match decode (BitVec.ofNat 32 (w % 2 ^ nbits)) with
  | .ok i => some i
  | .error _ => none

/-- The three fields put together, `op ++ a ++ b` (R81). -/
def assemble (op a : BitVec 8) (b : BitVec 16) : Word32 := op ++ a ++ b

/-- The command word of an instruction (R85, R89); the bits its format leaves unused are 0 (R82). -/
def encode : Instr → Word32
  | .rdreg rn => assemble 0x02 rn 0
  | .fcLd idx d => assemble 0x10 idx (0#8 ++ d)
  | .fcRd idx => assemble 0x11 idx 0
  | .fcVal len hw => assemble 0x12 len (0#15 ++ BitVec.ofBool hw)
  | .vtSetcbSlot tag => assemble 0x20 0 tag
  | .vtSetcbPeriod tag => assemble 0x21 0 tag
  | .vtSetcbOffset tag => assemble 0x22 0 tag
  | .vtArmSlot v => assemble 0x24 0 v
  | .vtArmPeriod v => assemble 0x25 0 v
  | .vtArmOffset v => assemble 0x26 0 v
  | .vtCancelSlot => assemble 0x28 0 0
  | .vtCancelPeriod => assemble 0x29 0 0
  | .vtCancelOffset => assemble 0x2A 0 0
  | .vtCbret => assemble 0x2C 0 0

/-- A row of the opcode map of R85. -/
structure OpcodeRow where
  mnemonic : String
  value : Word32
  mask : Word32
deriving DecidableEq, Repr

/-- The opcode map of R85, its `match` and `mask` columns. The decoder does not use it; that the two agree is a
statement. -/
def opcodeMap : List OpcodeRow :=
  [ ⟨"RDREG", 0x02000000, 0xFF00FFFF⟩,
    ⟨"FC_LD", 0x10000000, 0xFF00FF00⟩,
    ⟨"FC_RD", 0x11000000, 0xFF00FFFF⟩,
    ⟨"FC_VAL", 0x12000000, 0xFF00FFFE⟩,
    ⟨"VT_SETCB_SLOT", 0x20000000, 0xFFFF0000⟩,
    ⟨"VT_SETCB_PERIOD", 0x21000000, 0xFFFF0000⟩,
    ⟨"VT_SETCB_OFFSET", 0x22000000, 0xFFFF0000⟩,
    ⟨"VT_ARM_SLOT", 0x24000000, 0xFFFF0000⟩,
    ⟨"VT_ARM_PERIOD", 0x25000000, 0xFFFF0000⟩,
    ⟨"VT_ARM_OFFSET", 0x26000000, 0xFFFF0000⟩,
    ⟨"VT_CANCEL_SLOT", 0x28000000, 0xFFFFFFFF⟩,
    ⟨"VT_CANCEL_PERIOD", 0x29000000, 0xFFFFFFFF⟩,
    ⟨"VT_CANCEL_OFFSET", 0x2A000000, 0xFFFFFFFF⟩,
    ⟨"VT_CBRET", 0x2C000000, 0xFFFFFFFF⟩ ]

end Sys2Proof
end

