-- ==== Sys2Proof/Config.lean ====
section
/-! DEFINITION. The implementation parameters of the block (00_scope.md R6) and the one free function. -/

namespace Sys2Proof

/-- `CRC_MODE` (R6): who computes the frame check. -/
inductive CrcMode where
  | hw
  | sw
deriving DecidableEq, Repr

/-- `CrcOk` (R6, 40_fcc_commands.md R101) as plain data: the default, or any other function of the byte list. -/
inductive FrameCheck where
  /-- The default of R101, the frame check of IEEE 802.15.4. PRESUMED by the spec itself, log 5 (unsafe). -/
  | ieee802154
  /-- Any other total function of the byte list, free: `Config.otherFrameCheck n` (log 5, safe). -/
  | other (n : Nat)
deriving DecidableEq, Repr

/-- The four parameters of R6. Fixed for a machine: no step changes them (log 4). -/
structure Params where
  crcMode : CrcMode
  cacheDepth : Nat
  frameCheck : FrameCheck
  /-- `COMBO_ORDER`: trial numbers `k`, bit 0 selecting the cache at `p1`, bit 1 at `p2` (R104). -/
  comboOrder : List (BitVec 2)
deriving DecidableEq, Repr

/-- The defaults of R6. -/
def Params.default : Params where
  crcMode := .sw
  cacheDepth := 1
  frameCheck := .ieee802154
  comboOrder := [0, 1, 2, 3]

/-- The ranges of R6: a depth of 1 to 64, and an order that is a permutation of the four trial numbers. -/
abbrev Params.wf (p : Params) : Prop :=
  1 ≤ p.cacheDepth ∧ p.cacheDepth ≤ 64 ∧ p.comboOrder.Perm [0, 1, 2, 3]

/-- `MAX_LEN` (R6). -/
abbrev Config.maxLen : Nat := 127

/-- `DIST_NONE` (R6). -/
abbrev Config.distNone : Reg16 := 0xFFFF

/-- FREE VALUE (log 5): the frame checks other than the default. R6: "The model must assume nothing of `CrcOk`
except that it is a function of the byte list alone". -/
opaque Config.otherFrameCheck : Nat → List Byte → Bool

end Sys2Proof
end

