-- ==== Sys2Proof/Machine/State.lean ====
section
/-! DEFINITION. The state of the block as plain data (10_state.md R20, R30), the environment's side of the interface
(00_scope.md R7 to R10), the ways a step can stop, and the state after `RESET` (10_state.md R48). -/

namespace Sys2Proof.Machine

/-- A byte store as (index, byte) pairs in one canonical form, `Memory.wf` (log 6). -/
abbrev Memory := List Host.Cell

/-- What an unlisted index reads as: 0x00, the value R48 gives every byte of `RXBUF` and of `cdata` (log 6). -/
abbrev Memory.blank : Byte := 0

/-- The canonical form: indices strictly rising, no entry equal to what an unlisted index reads as (log 6). -/
abbrev Memory.wf (m : Memory) : Prop :=
  m.Pairwise (fun c c' => c.1 < c'.1) ∧ ∀ c ∈ m, c.2 ≠ Memory.blank

/-- Every listed index is one of the store's, 0..126 (20_memory.md R60). -/
abbrev Memory.inRange (m : Memory) : Prop := ∀ c ∈ m, c.1 < Config.maxLen

/-- The three logical timers, array-indexed 0, 1, 2 (10_state.md R31). -/
inductive Timer where
  | slot
  | period
  | offset
deriving DecidableEq, Repr

/-- `phase` (10_state.md R41). -/
inductive Phase where
  | idle
  | cbFirst
  | cbLate
  | faulted
deriving DecidableEq, Repr

/-- One entry of the corrupted-frame cache (10_state.md R26). -/
structure CacheEntry where
  /-- `cvalid[e]` -/
  valid : Bool
  /-- `clen[e]` -/
  len : Byte
  /-- `cdata[e][0..126]` -/
  data : Memory
deriving DecidableEq, Repr

/-- The FCC unit's state, exactly that of 10_state.md R20. -/
structure Fcc where
  /-- `RXBUF[0..126]` (R24) -/
  rxbuf : Memory
  /-- `FCRES` (R25) -/
  fcres : Reg16
  /-- `FCPOS` (R25) -/
  fcpos : Reg16
  /-- `FCENT` (R25) -/
  fcent : Reg16
  /-- The entries `0..CACHE_DEPTH-1`, in index order (R26) -/
  cache : List CacheEntry
  /-- `cwr` (R27) -/
  cwr : Nat
deriving DecidableEq, Repr

/-- The registers of one logical timer (10_state.md R32 to R35). -/
structure LogicalTimer where
  armed : Bool
  cmp : Reg16
  cb : Reg16
  cbv : Bool
  dly : Reg16
deriving DecidableEq, Repr

/-- The VTD unit's state, exactly that of 10_state.md R30. -/
structure Vtd where
  /-- Logical timer 0, SLOT (R31) -/
  slot : LogicalTimer
  /-- Logical timer 1, PERIOD (R31) -/
  period : LogicalTimer
  /-- Logical timer 2, OFFSET (R31) -/
  offset : LogicalTimer
  /-- The period-start anchor (R36) -/
  prev : Reg16
  /-- The theoretical current time (R37) -/
  now : Reg16
  /-- The timer that is next to fire (R38, log 8) -/
  next : Timer
  /-- `next` has been written since reset (R38) -/
  nextv : Bool
  /-- Image of the physical compare register (R39) -/
  hwcmp : Reg16
  /-- Image of the compare interrupt's enable (R39) -/
  hwie : Bool
  /-- Late-schedule counter (R40) -/
  late : Reg16
  /-- Where the handler stands (R41) -/
  phase : Phase
  /-- The timer whose callback is outstanding (R41, log 8) -/
  cur : Timer
  /-- The counter sampled at handler entry (R42) -/
  tentry : Reg16
  /-- The distance of the handler's newest reschedule (R42) -/
  hdist : Reg16
  /-- The fault register (R43) -/
  flt : Reg16
deriving DecidableEq, Repr

/-- The input alphabet of 00_scope.md R8. -/
inductive Event where
  | reset
  | irq
  | cmd (w : Word32)
deriving DecidableEq, Repr

/-- One input, with the value the counter input `CNT` has while it is taken (00_scope.md R10, log 3). -/
structure Input where
  event : Event
  cnt : Reg16
deriving DecidableEq, Repr

/-- The outputs of 00_scope.md R9. -/
inductive Output where
  | resp (r : Word32)
  | fire (i : Timer) (tag : Reg16)
  | cmpwr (v : Reg16)
deriving DecidableEq, Repr

/-- The whole machine: the two units, and the model's own fields `cfg` (log 4), `cnt` (log 3), `inputs` (log 1) and
`outs` (log 2). -/
structure State where
  /-- The parameters of 00_scope.md R6 -/
  cfg : Params
  fcc : Fcc
  vtd : Vtd
  /-- The value on the counter input in the present transition (00_scope.md R10) -/
  cnt : Reg16
  /-- The inputs the environment offers, oldest first (00_scope.md R8) -/
  inputs : List Input
  /-- The outputs emitted, oldest first (00_scope.md R9) -/
  outs : List Output
deriving DecidableEq, Repr

/-- Why the machine stops with a fault. It has no constructor: the faults of this hardware, `FLT_NEXT_UNSET` and
`FLT_NOCB`, are recorded in `flt` and `phase` and the block goes on (60_exceptions.md R181), so they are next states, and
nothing else stops it (log 7, safe). -/
inductive Fault where
deriving DecidableEq, Repr

/-- Why a step is refused. -/
inductive Refusal where
  /-- Raised by an arm of `exec` for an instruction without a meaning. No arm raises it: all fourteen commands have
  their meaning. Safe: the machine stops where the hardware goes on. -/
  | notModelled (mnemonic : String)
deriving DecidableEq, Repr

/-- A cache entry after `RESET` (10_state.md R48). -/
def CacheEntry.reset : CacheEntry where
  valid := false
  len := 0
  data := []

/-- A logical timer after `RESET` (10_state.md R48). -/
def LogicalTimer.reset : LogicalTimer where
  armed := false
  cmp := 0
  cb := 0
  cbv := false
  dly := 0

/-- The FCC unit after `RESET` (10_state.md R48), with `depth` cache entries. -/
def Fcc.reset (depth : Nat) : Fcc where
  rxbuf := []
  fcres := 0
  fcpos := 0
  fcent := 0
  cache := List.replicate depth CacheEntry.reset
  cwr := 0

/-- The VTD unit after `RESET` (10_state.md R48). -/
def Vtd.reset : Vtd where
  slot := LogicalTimer.reset
  period := LogicalTimer.reset
  offset := LogicalTimer.reset
  prev := 0
  now := 0
  next := .slot
  nextv := false
  hwcmp := 0
  hwie := false
  late := 0
  phase := .idle
  cur := .slot
  tentry := 0
  hdist := 0
  flt := 0

/-- The machine with parameters `p` right after `RESET`, nothing offered and nothing emitted. -/
def State.resetWith (p : Params) : State where
  cfg := p
  fcc := Fcc.reset p.cacheDepth
  vtd := Vtd.reset
  cnt := 0
  inputs := []
  outs := []

/-- The machine right after `RESET`, with the default parameters of 00_scope.md R6 (log 4). -/
def State.reset : State := State.resetWith Params.default

end Sys2Proof.Machine
end

