-- ==== Sys2Proof/Machine/Crc.lean ====
section
/-! DEFINITION. The frame check `CrcOk` (40_fcc_commands.md R101). -/

namespace Sys2Proof.Machine

/-- One turn of the inner loop of `crc16`: `if c[0] = 1 then (c >> 1) XOR 0x8408 else c >> 1` (R101). -/
def crcShift (c : Reg16) : Reg16 :=
  if c.getLsbD 0 then (c >>> 1) ^^^ 0x8408 else c >>> 1

/-- The turns of the inner loop, `n` of them (R101). -/
def crcShifts : Nat → Reg16 → Reg16
  | 0, c => c
  | n + 1, c => crcShifts n (crcShift c)

/-- One byte of the outer loop: exclusive or into the low byte, then 8 turns (R101). -/
def crcByte (c : Reg16) (b : Byte) : Reg16 := crcShifts 8 (c ^^^ b.setWidth 16)

/-- `crc16(g)`: initial value 0, index 0 first (R101). -/
def crc16 (g : List Byte) : Reg16 := g.foldl crcByte 0

/-- The default `CrcOk` (R101): the last two bytes are the check, low-order byte first, of all before them.
PRESUMED, log 5. -/
def crcOkDefault (f : List Byte) : Bool :=
  if f.length < 2 then false
  else crc16 (f.take (f.length - 2)) == f.getD (f.length - 1) 0 ++ f.getD (f.length - 2) 0

/-- `CrcOk` of the machine's parameter (00_scope.md R6). -/
def crcOk (k : FrameCheck) (f : List Byte) : Bool :=
  match k with
  | .ieee802154 => crcOkDefault f
  | .other n => Config.otherFrameCheck n f

end Sys2Proof.Machine
end

