-- ==== Sys2Proof/Machine/Flags.lean ====
section
/-! DEFINITION. Codes and packed registers: every place where the spec lays bits out (10_state.md R25, R26, R41, R43, R46;
30_encoding.md R83, R86). -/

namespace Sys2Proof.Machine

/-- The index of a timer (10_state.md R31). -/
def Timer.code : Timer → BitVec 2
  | .slot => 0
  | .period => 1
  | .offset => 2

/-- The code of a phase (10_state.md R41). -/
def Phase.code : Phase → BitVec 2
  | .idle => 0
  | .cbFirst => 1
  | .cbLate => 2
  | .faulted => 3

/-- The verdicts of `FCRES` (10_state.md R25). -/
inductive Verdict where
  | none
  | passDirect
  | passCombined
  | failCached
  | failNocache
  | dropOversize
deriving DecidableEq, Repr

/-- The code of a verdict (10_state.md R25). -/
def Verdict.code : Verdict → BitVec 3
  | .none => 0
  | .passDirect => 1
  | .passCombined => 2
  | .failCached => 3
  | .failNocache => 4
  | .dropOversize => 5

/-- `crc_pass`: 1 exactly for `PASS_DIRECT` and `PASS_COMBINED` (10_state.md R25). -/
def Verdict.pass : Verdict → Bool
  | .none => false
  | .passDirect => true
  | .passCombined => true
  | .failCached => false
  | .failNocache => false
  | .dropOversize => false

/-- `FCRES` from its fields: `len`, two zero bits, `combo`, `verdict`, `crc_pass` (10_state.md R25). -/
def fcresWord (len : Byte) (combo : BitVec 2) (v : Verdict) : Reg16 :=
  len ++ 0#2 ++ combo ++ v.code ++ BitVec.ofBool v.pass

/-- The field `crc_pass` of `FCRES` (10_state.md R25). -/
def fcresPass (r : Reg16) : Bool := r.getLsbD 0

/-- The field `verdict` of `FCRES` (10_state.md R25). -/
def fcresVerdict (r : Reg16) : BitVec 3 := r.extractLsb' 1 3

/-- `FCPOS = (p2 << 8) + p1` (40_fcc_commands.md R106). -/
def fcposWord (p1 p2 : Nat) : Reg16 := (BitVec.ofNat 16 p2 <<< 8) + BitVec.ofNat 16 p1

/-- `FCENT`: bits 5:0 the entry's index (10_state.md R25). -/
def fcentWord (e : Nat) : Reg16 := (BitVec.ofNat 6 e).setWidth 16

/-- Register `CWR`: bits 5:0 the write pointer (10_state.md R27). -/
def cwrWord (cwr : Nat) : Reg16 := (BitVec.ofNat 6 cwr).setWidth 16

/-- Register `CINFO[e]`: bit 15 `cvalid[e]`, bits 7:0 `clen[e]` (10_state.md R45). -/
def cinfoWord (c : CacheEntry) : Reg16 := BitVec.ofBool c.valid ++ 0#7 ++ c.len

/-- Register `VTSTAT` (10_state.md R46). -/
def vtstatWord (v : Vtd) : Reg16 :=
  v.cur.code ++ v.phase.code ++ BitVec.ofBool v.hwie ++ BitVec.ofBool v.nextv ++ v.next.code
    ++ 0#1 ++ BitVec.ofBool v.offset.cbv ++ BitVec.ofBool v.period.cbv ++ BitVec.ofBool v.slot.cbv
    ++ 0#1 ++ BitVec.ofBool v.offset.armed ++ BitVec.ofBool v.period.armed ++ BitVec.ofBool v.slot.armed

/-- The faults of the VTD unit (10_state.md R43). -/
inductive VtdFault where
  | nextUnset
  | nocb
deriving DecidableEq, Repr

/-- The bit of `flt` a fault sets (10_state.md R43). -/
def VtdFault.bit : VtdFault → Reg16
  | .nextUnset => 0x0001
  | .nocb => 0x0002

/-- The response statuses (30_encoding.md R83). -/
inductive Status where
  | ok
  | eIllegal
  | eRange
  | ePhase
  | faultNow
  | eFaulted
deriving DecidableEq, Repr

/-- The code of a status (30_encoding.md R83). -/
def Status.code : Status → BitVec 4
  | .ok => 0x0
  | .eIllegal => 0x1
  | .eRange => 0x2
  | .ePhase => 0x3
  | .faultNow => 0xE
  | .eFaulted => 0xF

/-- A response word: `r[31:28] = status`, `r[27:0] = payload` (30_encoding.md R83). -/
def respWord (st : Status) (payload : BitVec 28) : Word32 := st.code ++ payload

/-- Payload of `VT_ARM_*` and `VT_CANCEL_*`: `r[16] = found`, `r[15:0] = d` (30_encoding.md R86). -/
def reschedulePayload (found : Bool) (d : Reg16) : BitVec 28 := 0#11 ++ BitVec.ofBool found ++ d

/-- Payload of a `VT_CBRET` that started a late fire: `r[0] = more = 1`, `r[2:1]` the timer (30_encoding.md R86). -/
def lateFirePayload (g : Timer) : BitVec 28 := 0#25 ++ g.code ++ 1#1

end Sys2Proof.Machine
end

