-- ==== Sys2Proof/Machine/Operands.lean ====
section
/-! DEFINITION. What an operand names: a byte of a store, a cache entry, a timer, a numbered register (20_memory.md R60). -/

namespace Sys2Proof.Machine

/-- The byte at an index. -/
def Memory.read : Memory → Nat → Byte
  | [], _ => Memory.blank
  | (b, w) :: m, a => if b = a then w else Memory.read m a

/-- The store with one byte changed, in canonical form again. -/
def Memory.write : Memory → Nat → Byte → Memory
  | [], a, v => if v = Memory.blank then [] else [(a, v)]
  | (b, w) :: m, a, v =>
    if a < b then (if v = Memory.blank then (b, w) :: m else (a, v) :: (b, w) :: m)
    else if a = b then (if v = Memory.blank then m else (a, v) :: m)
    else (b, w) :: Memory.write m a v

/-- The bytes `0..n-1` of a store, in index order. -/
def Memory.prefixBytes (m : Memory) (n : Nat) : List Byte := (List.range n).map (Memory.read m)

/-- The store with the bytes `i, i+1, ...` overwritten by a list. -/
def Memory.writeFrom (m : Memory) (i : Nat) : List Byte → Memory
  | [] => m
  | b :: bs => Memory.writeFrom (Memory.write m i b) (i + 1) bs

/-- Cache entry `e`. -/
def Fcc.entry (f : Fcc) (e : Nat) : CacheEntry := f.cache.getD e CacheEntry.reset

/-- The registers of timer `i` (10_state.md R31). -/
def Vtd.timer (v : Vtd) : Timer → LogicalTimer
  | .slot => v.slot
  | .period => v.period
  | .offset => v.offset

/-- The VTD unit with the registers of timer `i` replaced. -/
def Vtd.setTimer (v : Vtd) (i : Timer) (t : LogicalTimer) : Vtd :=
  match i with
  | .slot => { v with slot := t }
  | .period => { v with period := t }
  | .offset => { v with offset := t }

/-- A buffer index is one of 0..126 (20_memory.md R63). -/
def isBufferIndex (idx : BitVec 8) : Bool := decide (idx.toNat < Config.maxLen)

/-- The register numbered `rn` in the table of 10_state.md R45, none where the number is not populated. -/
def readRegister (s : State) (rn : BitVec 8) : Option Reg16 :=
  match rn.toNat with
  | 0x00 => some s.fcc.fcres
  | 0x01 => some s.fcc.fcpos
  | 0x02 => some s.fcc.fcent
  | 0x03 => some (cwrWord s.fcc.cwr)
  | 0x10 => some s.vtd.slot.cmp
  | 0x11 => some s.vtd.period.cmp
  | 0x12 => some s.vtd.offset.cmp
  | 0x14 => some s.vtd.slot.dly
  | 0x15 => some s.vtd.period.dly
  | 0x16 => some s.vtd.offset.dly
  | 0x18 => some s.vtd.slot.cb
  | 0x19 => some s.vtd.period.cb
  | 0x1A => some s.vtd.offset.cb
  | 0x1C => some s.vtd.prev
  | 0x1D => some s.vtd.now
  | 0x1E => some s.vtd.hwcmp
  | 0x1F => some s.vtd.late
  | 0x20 => some (vtstatWord s.vtd)
  | 0x21 => some s.vtd.tentry
  | 0x22 => some s.vtd.hdist
  | 0x23 => some s.vtd.flt
  | n => if 0x40 ≤ n ∧ n < 0x40 + s.cfg.cacheDepth then some (cinfoWord (s.fcc.entry (n - 0x40))) else none

end Sys2Proof.Machine
end

