-- ==== Sys2Proof/Machine/Ops.lean ====
section
/-! DEFINITION. The operations the meanings share: outputs, the VTD unit's three procedures (41_vtd_commands.md R140, R141,
R145), raising a fault (60_exceptions.md R181), taking the interrupt (R171, R172), returning from its handler
(41_vtd_commands.md R160) and `RESET` (70_reset_and_hazards.md R210). -/

namespace Sys2Proof.Machine

/-! ### Outputs -/

/-- `emit` of 00_scope.md R16: the output is appended to those emitted before. -/
def State.emit (s : State) (o : Output) : State := { s with outs := s.outs ++ [o] }

/-- `respond(status, payload)` of 00_scope.md R16. -/
def State.respond (s : State) (st : Status) (payload : BitVec 28) : State := s.emit (.resp (respWord st payload))

/-- The state with the registers of timer `i` replaced. -/
def State.setTimer (s : State) (i : Timer) (t : LogicalTimer) : State := { s with vtd := s.vtd.setTimer i t }

/-! ### `Reschedule()` -/

/-- The scan's best so far: a timer and its distance from `now`. -/
abbrev Nearest := Option (Timer × Reg16)

/-- One turn of the scan of R140: an armed timer replaces the best only when strictly nearer. -/
def scanTimer (v : Vtd) (best : Nearest) (i : Timer) : Nearest :=
  if (v.timer i).armed then
    match best with
    | none => some (i, dist16 (v.timer i).cmp v.now)
    | some (j, d) =>
      if dist16 (v.timer i).cmp v.now < d then some (i, dist16 (v.timer i).cmp v.now) else some (j, d)
  else best

/-- The scan of R140: the timers 0, 1, 2 in this order. -/
def nearestTimer (v : Vtd) : Nearest := [Timer.slot, Timer.period, Timer.offset].foldl (scanTimer v) none

/-- What R140 writes when it finds a timer: the image of the physical timer, the theoretical time, the next to fire. -/
def Vtd.program (v : Vtd) (i : Timer) : Vtd :=
  { v with hwcmp := (v.timer i).cmp, hwie := true, now := (v.timer i).cmp, next := i, nextv := true }

/-- What `Reschedule()` leaves and returns. -/
structure Rescheduled where
  state : State
  found : Bool
  dist : Reg16
deriving DecidableEq, Repr

/-- `Reschedule()` (R140). -/
def reschedule (s : State) : Rescheduled :=
  match nearestTimer s.vtd with
  | none => { state := s, found := false, dist := Config.distNone }
  | some (i, d) =>
    { state := { s with vtd := s.vtd.program i }.emit (.cmpwr (s.vtd.timer i).cmp), found := true, dist := d }

/-- `Reschedule()` by the handler, which keeps the distance: `hdist <- d` (60_exceptions.md R172, 41_vtd_commands.md R160). -/
def handlerReschedule (s : State) : State :=
  let r := reschedule s
  { r.state with vtd := { r.state.vtd with hdist := r.dist } }

/-! ### Firing -/

/-- `FireBookkeeping(i)` on the unit's registers (R141). -/
def Vtd.fireBookkeeping (v : Vtd) : Timer → Vtd
  | .slot => { v with slot := { v.slot with armed := false } }
  | .period =>
    { v with prev := v.period.cmp, period := { v.period with cmp := add16 v.period.cmp v.period.dly } }
  | .offset => { v with offset := { v.offset with armed := false } }

/-- `FireBookkeeping(i)` (R141). -/
def fireBookkeeping (i : Timer) (s : State) : State := { s with vtd := s.vtd.fireBookkeeping i }

/-- `raise <Fault>` (60_exceptions.md R181): the fault's bit of `flt` is set and `phase` becomes `FAULTED`. -/
def raiseFault (f : VtdFault) (s : State) : State :=
  { s with vtd := { s.vtd with flt := s.vtd.flt ||| f.bit, phase := .faulted } }

/-- `EmitFire(i, ph)` (R145): `cur` first, then the test for an assigned callback. -/
def emitFire (i : Timer) (ph : Phase) (s : State) : State :=
  if (s.vtd.timer i).cbv then
    { s with vtd := { s.vtd with cur := i, phase := ph } }.emit (.fire i (s.vtd.timer i).cb)
  else raiseFault .nocb { s with vtd := { s.vtd with cur := i } }

/-! ### Taking the interrupt, and returning from its handler -/

/-- The transition of an accepted `IRQ` (60_exceptions.md R172). -/
def enterHandler (s : State) : State :=
  if s.vtd.nextv then
    emitFire s.vtd.next .cbFirst
      (handlerReschedule (fireBookkeeping s.vtd.next { s with vtd := { s.vtd with tentry := s.cnt } }))
  else raiseFault .nextUnset { s with vtd := { s.vtd with tentry := s.cnt } }

/-- An `IRQ` is accepted only in phase `IDLE`; otherwise the event has no transition (60_exceptions.md R171, log 9). -/
def takeIrq (s : State) : State :=
  if s.vtd.phase = .idle then enterHandler s else s

/-- The first part of `VT_CBRET` (R160): a late fire's return is counted and the timers rescheduled. -/
def countLateReturn (s : State) : State :=
  if s.vtd.phase = .cbLate then handlerReschedule { s with vtd := { s.vtd with late := inc16 s.vtd.late } } else s

/-- A late fire of the timer `next` names (R160); `FAULT_NOW` when it has no callback. -/
def lateFire (s : State) : State :=
  let s' := emitFire s.vtd.next .cbLate (fireBookkeeping s.vtd.next s)
  if s'.vtd.phase = .faulted then s'.respond .faultNow 0 else s'.respond .ok (lateFirePayload s.vtd.next)

/-- The catch-up test of R160 and what follows it: a late fire, or the end of the handler. -/
def catchUp (s : State) : State :=
  if s.vtd.hdist < dist16 s.cnt s.vtd.tentry then lateFire s
  else { s with vtd := { s.vtd with phase := .idle } }.respond .ok 0

/-- The return of the outstanding callback (R160), in phase `CB_FIRST` or `CB_LATE`. -/
def callbackReturn (s : State) : State := catchUp (countLateReturn s)

/-! ### Arming and cancelling -/

/-- The end of every arm and cancel command: `(found, d) <- Reschedule(); respond(OK, (found << 16) + d)`
(41_vtd_commands.md R142 to R152). -/
def rescheduleAndRespond (s : State) : State :=
  let r := reschedule s
  r.state.respond .ok (reschedulePayload r.found r.dist)

/-- Arming timer `i` for `v` ticks after `base` (R142 to R144). -/
def armTimer (i : Timer) (base v : Reg16) (s : State) : State :=
  rescheduleAndRespond
    (s.setTimer i { s.vtd.timer i with cmp := add16 base v, dly := v, armed := true })

/-- Cancelling timer `i` (R150 to R152). -/
def cancelTimer (i : Timer) (s : State) : State :=
  rescheduleAndRespond (s.setTimer i { s.vtd.timer i with armed := false, dly := 0 })

/-- Assigning the callback of timer `i` (R131 to R133). -/
def setCallback (i : Timer) (tag : Reg16) (s : State) : State :=
  (s.setTimer i { s.vtd.timer i with cb := tag, cbv := true }).respond .ok 0

/-- The check of 30_encoding.md R88 (2): in phase `FAULTED` a `VT_*` command answers `E_FAULTED`. -/
def unlessFaulted (s : State) (result : State) : Host.Outcome State Fault Refusal :=
  if s.vtd.phase = .faulted then .next (s.respond .eFaulted 0) else .next result

/-! ### Inputs -/

/-- Taking the oldest input: it leaves the list, and its counter value is on the counter input (00_scope.md R8, R10). -/
def State.take (s : State) (cnt : Reg16) (rest : List Input) : State := { s with cnt := cnt, inputs := rest }

/-- `RESET` (70_reset_and_hazards.md R210): every state element of both units as after reset; the parameters and what the
environment offers and has received stay (log 14). -/
def takeReset (s : State) : State := { s with fcc := Fcc.reset s.cfg.cacheDepth, vtd := Vtd.reset }

/-- A word that is no command (30_encoding.md R87). -/
def answerIllegal (s : State) : State := s.respond .eIllegal 0

end Sys2Proof.Machine
end

