-- ==== Sys2Proof/Machine/Fcc.lean ====
section
/-! DEFINITION. The FCC unit's commands: the CRC validator, the corrupted-frame cache and the diversity combiner
(40_fcc_commands.md). All execute in every phase (R100). -/

namespace Sys2Proof.Machine

/-! ### The procedures `FC_VAL` is made of -/

/-- The frame body `RXBUF[0..L-1]` (R106). -/
def Fcc.frame (f : Fcc) (len : Nat) : List Byte := Memory.prefixBytes f.rxbuf len

/-- The frame body a cache entry holds, `cdata[e][0..clen[e]-1]` (10_state.md R26). -/
def CacheEntry.frame (c : CacheEntry) : List Byte := Memory.prefixBytes c.data c.len.toNat

/-- The difference list `D(e)` of R103: the positions, ascending, where the entry and the frame differ. -/
def differences (c : CacheEntry) (n : List Byte) : List Nat :=
  (List.range n.length).filter (fun j => Memory.read c.data j != n.getD j 0)

/-- The trial frame `T_k` of R104: bit 0 of `k` selects the cache at `p1`, bit 1 at `p2`. -/
def trialFrame (c : CacheEntry) (n : List Byte) (p1 p2 : Nat) (k : BitVec 2) : List Byte :=
  let t := if k.getLsbD 0 then n.set p1 (Memory.read c.data p1) else n
  if k.getLsbD 1 then t.set p2 (Memory.read c.data p2) else t

/-- An accepted trial: the entry, the trial number and the two positions. -/
structure Accepted where
  entry : Nat
  trial : BitVec 2
  p1 : Nat
  p2 : Nat
deriving DecidableEq, Repr

/-- The trials of R104 in the order `COMBO_ORDER`: the first whose frame validates. -/
def firstTrial (p : Params) (c : CacheEntry) (n : List Byte) (p1 p2 : Nat) : Option (BitVec 2) :=
  p.comboOrder.find? (fun k => crcOk p.frameCheck (trialFrame c n p1 p2 k))

/-- The search step of R103 at entry `e`: a candidate with exactly two differences and a validating trial. -/
def tryEntry (p : Params) (f : Fcc) (n : List Byte) (e : Nat) : Option Accepted :=
  let c := f.entry e
  if c.valid ∧ c.len.toNat = n.length then
    match differences c n with
    | [p1, p2] => (firstTrial p c n p1 p2).map (fun k => { entry := e, trial := k, p1 := p1, p2 := p2 })
    | _ => none
  else none

/-- The search step of R103: the entries in ascending index order, up to the first accepted trial. -/
def searchCache (p : Params) (f : Fcc) (n : List Byte) : Option Accepted :=
  (List.range p.cacheDepth).findSome? (tryEntry p f n)

/-- The insertion step of R105: the entry at `cwr` takes the frame, and `cwr` moves on. -/
def Fcc.insert (f : Fcc) (depth : Nat) (len : Byte) (n : List Byte) : Fcc :=
  { f with
    cache := f.cache.set f.cwr
      { valid := true, len := len, data := Memory.writeFrom (f.entry f.cwr).data 0 n }
    cwr := (f.cwr + 1) % depth }

/-- The receive buffer after an accepted trial: `RXBUF[p1] <- T[p1]; RXBUF[p2] <- T[p2]` (R106). -/
def Fcc.correct (f : Fcc) (n : List Byte) (a : Accepted) : Fcc :=
  let t := trialFrame (f.entry a.entry) n a.p1 a.p2 a.trial
  { f with rxbuf := Memory.write (Memory.write f.rxbuf a.p1 (t.getD a.p1 0)) a.p2 (t.getD a.p2 0) }

/-- A verdict that accepted no trial: `combo = 0`, `FCPOS` and `FCENT` 0 (10_state.md R25). -/
def Fcc.verdict (f : Fcc) (len : Byte) (v : Verdict) : Fcc :=
  { f with fcres := fcresWord len 0 v, fcpos := 0, fcent := 0 }

/-- The verdict `PASS_COMBINED` with the accepted trial (10_state.md R25). -/
def Fcc.verdictCombined (f : Fcc) (len : Byte) (a : Accepted) : Fcc :=
  { f with
    fcres := fcresWord len a.trial .passCombined, fcpos := fcposWord a.p1 a.p2, fcent := fcentWord a.entry }

/-- The frame failed in `SW` mode (R106): combine, or insert. -/
def Fcc.recover (p : Params) (f : Fcc) (len : Byte) (n : List Byte) : Fcc :=
  match searchCache p f n with
  | some a => (f.correct n a).verdictCombined len a
  | none => (f.insert p.cacheDepth len n).verdict len .failCached

/-- The FCC unit after `FC_VAL L, hw` (R106). -/
def Fcc.validate (p : Params) (f : Fcc) (len : Byte) (hw : Bool) : Fcc :=
  if Config.maxLen < len.toNat then f.verdict len .dropOversize
  else
    match p.crcMode with
    | .hw => if hw then f.verdict len .passDirect else f.verdict len .failNocache
    | .sw =>
      if crcOk p.frameCheck (f.frame len.toNat) then f.verdict len .passDirect
      else f.recover p len (f.frame len.toNat)

/-! ### The commands -/

/-- `FC_LD idx, d` (R107). -/
def execFcLd (idx d : BitVec 8) (s : State) : Host.Outcome State Fault Refusal :=
  if isBufferIndex idx then
    .next ({ s with fcc := { s.fcc with rxbuf := Memory.write s.fcc.rxbuf idx.toNat d } }.respond .ok 0)
  else .next (s.respond .eRange 0)

/-- `FC_RD idx` (R102). -/
def execFcRd (idx : BitVec 8) (s : State) : Host.Outcome State Fault Refusal :=
  if isBufferIndex idx then .next (s.respond .ok ((Memory.read s.fcc.rxbuf idx.toNat).setWidth 28))
  else .next (s.respond .eRange 0)

/-- `FC_VAL L, hw` (R106); the payload is the new `FCRES` (30_encoding.md R86). -/
def execFcVal (len : BitVec 8) (hw : Bool) (s : State) : Host.Outcome State Fault Refusal :=
  let f := s.fcc.validate s.cfg len hw
  .next ({ s with fcc := f }.respond .ok (f.fcres.setWidth 28))

end Sys2Proof.Machine
end

