-- ==== Sys2Proof/Machine/Status.lean ====
section
/-! DEFINITION. The status read, `RDREG` (41_vtd_commands.md R130). -/

namespace Sys2Proof.Machine

/-- `RDREG rn` (R130): the register's value, or `E_RANGE` where the number is not populated. Executes in every phase. -/
def execRdreg (rn : BitVec 8) (s : State) : Host.Outcome State Fault Refusal :=
  match readRegister s rn with
  | some v => .next (s.respond .ok (v.setWidth 28))
  | none => .next (s.respond .eRange 0)

end Sys2Proof.Machine
end

