-- ==== Sys2Proof/Machine/Vtd.lean ====
section
/-! DEFINITION. The VTD unit's ten commands (41_vtd_commands.md R131 to R160), each after the check of 30_encoding.md
R88 (2). -/

namespace Sys2Proof.Machine

/-- `VT_SETCB_SLOT tag` (R131). -/
def execVtSetcbSlot (tag : BitVec 16) (s : State) : Host.Outcome State Fault Refusal :=
  unlessFaulted s (setCallback .slot tag s)

/-- `VT_SETCB_PERIOD tag` (R132). -/
def execVtSetcbPeriod (tag : BitVec 16) (s : State) : Host.Outcome State Fault Refusal :=
  unlessFaulted s (setCallback .period tag s)

/-- `VT_SETCB_OFFSET tag` (R133). -/
def execVtSetcbOffset (tag : BitVec 16) (s : State) : Host.Outcome State Fault Refusal :=
  unlessFaulted s (setCallback .offset tag s)

/-- `VT_ARM_SLOT v` (R142): after the timer's own last compare value. -/
def execVtArmSlot (v : BitVec 16) (s : State) : Host.Outcome State Fault Refusal :=
  unlessFaulted s (armTimer .slot s.vtd.slot.cmp v s)

/-- `VT_ARM_PERIOD v` (R143): after the timer's own last compare value. -/
def execVtArmPeriod (v : BitVec 16) (s : State) : Host.Outcome State Fault Refusal :=
  unlessFaulted s (armTimer .period s.vtd.period.cmp v s)

/-- `VT_ARM_OFFSET v` (R144): after the last period start. -/
def execVtArmOffset (v : BitVec 16) (s : State) : Host.Outcome State Fault Refusal :=
  unlessFaulted s (armTimer .offset s.vtd.prev v s)

/-- `VT_CANCEL_SLOT` (R150). -/
def execVtCancelSlot (s : State) : Host.Outcome State Fault Refusal :=
  unlessFaulted s (cancelTimer .slot s)

/-- `VT_CANCEL_PERIOD` (R151). -/
def execVtCancelPeriod (s : State) : Host.Outcome State Fault Refusal :=
  unlessFaulted s (cancelTimer .period s)

/-- `VT_CANCEL_OFFSET` (R152). -/
def execVtCancelOffset (s : State) : Host.Outcome State Fault Refusal :=
  unlessFaulted s (cancelTimer .offset s)

/-- `VT_CBRET` (R160); with no callback outstanding `E_PHASE` (30_encoding.md R88 (4)). -/
def execVtCbret (s : State) : Host.Outcome State Fault Refusal :=
  unlessFaulted s (if s.vtd.phase = .idle then s.respond .ePhase 0 else callbackReturn s)

end Sys2Proof.Machine
end

