-- ==== Sys2Proof/Machine/Dispatch.lean ====
section
/-! DEFINITION. The dispatch: one arm per command. -/

namespace Sys2Proof.Machine

def exec (i : Instr) (s : State) : Host.Outcome State Fault Refusal :=
  match i with
  | .rdreg rn => Sys2Proof.Machine.execRdreg rn s
  | .fcLd idx d => Sys2Proof.Machine.execFcLd idx d s
  | .fcRd idx => Sys2Proof.Machine.execFcRd idx s
  | .fcVal len hw => Sys2Proof.Machine.execFcVal len hw s
  | .vtSetcbSlot tag => Sys2Proof.Machine.execVtSetcbSlot tag s
  | .vtSetcbPeriod tag => Sys2Proof.Machine.execVtSetcbPeriod tag s
  | .vtSetcbOffset tag => Sys2Proof.Machine.execVtSetcbOffset tag s
  | .vtArmSlot v => Sys2Proof.Machine.execVtArmSlot v s
  | .vtArmPeriod v => Sys2Proof.Machine.execVtArmPeriod v s
  | .vtArmOffset v => Sys2Proof.Machine.execVtArmOffset v s
  | .vtCancelSlot => Sys2Proof.Machine.execVtCancelSlot s
  | .vtCancelPeriod => Sys2Proof.Machine.execVtCancelPeriod s
  | .vtCancelOffset => Sys2Proof.Machine.execVtCancelOffset s
  | .vtCbret => Sys2Proof.Machine.execVtCbret s

end Sys2Proof.Machine
end

