-- ==== Sys2Proof/Machine/Step.lean ====
section
/-! DEFINITION. One transition of the block (00_scope.md R8): the oldest input offered is taken whole. -/

namespace Sys2Proof.Machine

/-- Presenting the word `w` on the command port (30_encoding.md R88): decode, then the command's rule. -/
def takeCommand (w : Word32) (s : State) : Host.Outcome State Fault Refusal :=
  match decode w with
  | .ok i => exec i s
  | .error _ => .next (answerIllegal s)

/-- One step: the oldest input, or, with none offered, waiting (70_reset_and_hazards.md R211, log 1). -/
def step (s : State) : Host.Outcome State Fault Refusal :=
  match s.inputs with
  | [] => .next s
  | i :: rest =>
    match i.event with
    | .reset => .next (takeReset (s.take i.cnt rest))
    | .irq => .next (takeIrq (s.take i.cnt rest))
    | .cmd w => takeCommand w (s.take i.cnt rest)

/-- `s` with the command word of bits `w` presented next on the command port, the counter input as it stands (log 1). -/
def State.withFetchWord (s : State) (nbits w : Nat) : State :=
  { s with inputs := { event := .cmd (BitVec.ofNat 32 (w % 2 ^ nbits)), cnt := s.cnt } :: s.inputs }

end Sys2Proof.Machine
end

