-- ==== Sys2Proof/WellFormed.lean ====
section
/-! DEFINITION. The operand checks of 20_memory.md R63 and 30_encoding.md R88 (3). A command that fails one still has an
encoding and still executes: it answers `E_RANGE`. Every operand fits its field by its type, so there is nothing else
to check (log 11). -/

namespace Sys2Proof

/-- The register numbers of the table of 10_state.md R45 for a cache of `depth` entries. -/
def isRegisterNumber (depth : Nat) (rn : BitVec 8) : Bool :=
  [0x00, 0x01, 0x02, 0x03, 0x10, 0x11, 0x12, 0x14, 0x15, 0x16, 0x18, 0x19, 0x1A, 0x1C, 0x1D, 0x1E, 0x1F, 0x20, 0x21,
    0x22, 0x23].contains rn.toNat
  || decide (0x40 ≤ rn.toNat ∧ rn.toNat < 0x40 + depth)

/-- The operands are in range: a populated register number, a buffer index of 0..126. -/
def Instr.wellFormed (depth : Nat) : Instr → Bool
  | .rdreg rn => isRegisterNumber depth rn
  | .fcLd idx _ => decide (idx.toNat < Config.maxLen)
  | .fcRd idx => decide (idx.toNat < Config.maxLen)
  | .fcVal _ _ => true
  | .vtSetcbSlot _ => true
  | .vtSetcbPeriod _ => true
  | .vtSetcbOffset _ => true
  | .vtArmSlot _ => true
  | .vtArmPeriod _ => true
  | .vtArmOffset _ => true
  | .vtCancelSlot => true
  | .vtCancelPeriod => true
  | .vtCancelOffset => true
  | .vtCbret => true

end Sys2Proof
end

