-- ==== Sys2Proof/Safety.lean ====
section
/-! DEFINITION. The terms claims are stated in: what counts as a safe state, the invariants the spec states of reachable
states, and the spec's procedures said as relations instead of computations. -/

namespace Sys2Proof.Machine

/-- "no fault recorded" (60_exceptions.md R181): the premise of the claims about the VTD unit. -/
abbrev State.noFault (s : State) : Prop := s.vtd.phase ≠ .faulted

/-! ### Invariants -/

/-- The stores are in canonical form and list only indices the spec gives them (20_memory.md R60, log 6). -/
abbrev Fcc.storesCanonical (f : Fcc) : Prop :=
  f.rxbuf.wf ∧ f.rxbuf.inRange ∧ ∀ c ∈ f.cache, c.data.wf ∧ c.data.inRange

/-- The cache invariants of 10_state.md R28 (a), (b), (c) with the shape of R26 and R27: one entry per index, lengths of at
most 127, `cwr` in range, the valid entries those inserted so far, every valid entry a frame that fails the check; and
in `HW` mode an empty cache (40_fcc_commands.md R106 (a)). -/
abbrev Fcc.cacheInv (p : Params) (f : Fcc) : Prop :=
  f.cache.length = p.cacheDepth
  ∧ f.cwr < p.cacheDepth
  ∧ (∀ c ∈ f.cache, c.len.toNat ≤ Config.maxLen)
  ∧ ((∀ e < p.cacheDepth, (f.entry e).valid = true)
      ∨ (∀ e < p.cacheDepth, (f.entry e).valid = decide (e < f.cwr)))
  ∧ (∀ e < p.cacheDepth, (f.entry e).valid = true → crcOk p.frameCheck (f.entry e).frame = false)
  ∧ (p.crcMode = .hw → f.cwr = 0 ∧ ∀ e < p.cacheDepth, (f.entry e).valid = false)

/-- The result registers of 10_state.md R25: reserved bits 0; `crc_pass = 1` exactly for `PASS_DIRECT` and
`PASS_COMBINED`; verdicts 6 and 7 never; `combo`, `FCPOS`, `FCENT` 0 unless `PASS_COMBINED`, and then `p1 < p2 < len`. -/
abbrev Fcc.resultInv (f : Fcc) : Prop :=
  f.fcres.extractLsb' 6 2 = 0
  ∧ (fcresPass f.fcres = true ↔ fcresVerdict f.fcres = 1 ∨ fcresVerdict f.fcres = 2)
  ∧ fcresVerdict f.fcres ≠ 6 ∧ fcresVerdict f.fcres ≠ 7
  ∧ (fcresVerdict f.fcres ≠ 2 → f.fcres.extractLsb' 4 2 = 0 ∧ f.fcpos = 0 ∧ f.fcent = 0)
  ∧ (fcresVerdict f.fcres = 2 →
      f.fcpos.extractLsb' 0 8 < f.fcpos.extractLsb' 8 8
      ∧ f.fcpos.extractLsb' 8 8 < f.fcres.extractLsb' 8 8
      ∧ (f.fcres.extractLsb' 8 8).toNat ≤ Config.maxLen)
  ∧ f.fcpos.getLsbD 7 = false ∧ f.fcpos.getLsbD 15 = false ∧ f.fcent.extractLsb' 6 10 = 0

/-- The VTD unit's invariants: 41_vtd_commands.md R165 (a), (b), (d), (g), at most one bit of `flt` (60_exceptions.md R176 (d));
and what follows with them: an armed timer or an open handler means that `next` was written, an outstanding callback is
an assigned one, and a PERIOD timer that is not armed has period 0 (R151 (g), 70_reset_and_hazards.md R222). R165 (d) is the
last clause: only the PERIOD timer's late fire, or its stale fire, can have moved `cmp[next]` away from `now`. (R165 (c),
that `next` is 0, 1 or 2, is in its type.) -/
abbrev Vtd.inv (v : Vtd) : Prop :=
  v.now = v.hwcmp
  ∧ v.nextv = v.hwie
  ∧ (v.flt = 0 ↔ v.phase ≠ .faulted)
  ∧ (v.flt = 0 ∨ v.flt = 1 ∨ v.flt = 2)
  ∧ (v.slot.armed = true ∨ v.period.armed = true ∨ v.offset.armed = true → v.nextv = true)
  ∧ (v.phase = .cbFirst ∨ v.phase = .cbLate → v.nextv = true ∧ (v.timer v.cur).cbv = true)
  ∧ (v.period.armed = false → v.period.dly = 0)
  ∧ (v.nextv = true →
      (v.timer v.next).cmp = v.now
      ∨ (v.next = .period ∧ (v.phase = .cbLate ∨ v.phase = .faulted ∨ v.period.armed = false)))

/-- Everything above together, with parameters in the ranges of 00_scope.md R6. -/
abbrev State.inv (s : State) : Prop :=
  s.cfg.wf ∧ s.fcc.storesCanonical ∧ s.fcc.cacheInv s.cfg ∧ s.fcc.resultInv ∧ s.vtd.inv

/-! ### `Reschedule()` as a relation (41_vtd_commands.md R140) -/

/-- The forward distance of timer `i` from the theoretical current time. -/
abbrev Vtd.distance (v : Vtd) (i : Timer) : Reg16 := dist16 (v.timer i).cmp v.now

/-- Timer `i` is the armed timer with minimum distance, tie-broken by lowest index. -/
abbrev Vtd.IsNearest (v : Vtd) (i : Timer) : Prop :=
  (v.timer i).armed = true
  ∧ ∀ j, (v.timer j).armed = true →
      v.distance i ≤ v.distance j ∧ (v.distance i = v.distance j → i.code ≤ j.code)

/-- What `Reschedule()` may do to a unit `v`: leave `w`, return `(found, d)` and emit `o`. -/
abbrev Vtd.ReschedulesTo (v w : Vtd) (found : Bool) (d : Reg16) (o : List Output) : Prop :=
  ((∀ i, (v.timer i).armed = false) ∧ w = v ∧ found = false ∧ d = 0xFFFF ∧ o = [])
  ∨ ∃ i, v.IsNearest i
      ∧ w = { v with hwcmp := (v.timer i).cmp, hwie := true, now := (v.timer i).cmp, next := i, nextv := true }
      ∧ found = true ∧ d = v.distance i ∧ o = [.cmpwr (v.timer i).cmp]

/-- What `FireBookkeeping(i)` does to a unit `v` (41_vtd_commands.md R141): a one-shot timer is disarmed; the periodic timer
anchors and moves on by its period. -/
abbrev Vtd.BookkeepsTo (v w : Vtd) (i : Timer) : Prop :=
  (i = .slot → w = { v with slot := { v.slot with armed := false } })
  ∧ (i = .period → w = { v with prev := v.period.cmp
                                period := { v.period with cmp := v.period.cmp + v.period.dly } })
  ∧ (i = .offset → w = { v with offset := { v.offset with armed := false } })

/-! ### The search and the trials of `FC_VAL` as relations (40_fcc_commands.md R103, R104) -/

/-- The entry and the frame differ at exactly the two positions `p1 < p2`. -/
abbrev CacheEntry.DiffersAt (c : CacheEntry) (n : List Byte) (p1 p2 : Nat) : Prop :=
  p1 < p2 ∧ p2 < n.length
  ∧ ∀ j < n.length, Memory.read c.data j ≠ n.getD j 0 ↔ j = p1 ∨ j = p2

/-- `t` is the trial frame `T_k` of R104. -/
abbrev CacheEntry.IsTrial (c : CacheEntry) (n : List Byte) (p1 p2 : Nat) (k : BitVec 2) (t : List Byte) : Prop :=
  t.length = n.length
  ∧ ∀ j < n.length,
      t.getD j 0 =
        if (j = p1 ∧ k.getLsbD 0 = true) ∨ (j = p2 ∧ k.getLsbD 1 = true) then Memory.read c.data j else n.getD j 0

/-- Entry `e` is a candidate with exactly two differences and at least one validating trial. -/
abbrev Fcc.Combinable (f : Fcc) (p : Params) (n : List Byte) (e : Nat) : Prop :=
  e < p.cacheDepth ∧ (f.entry e).valid = true ∧ (f.entry e).len.toNat = n.length
  ∧ ∃ p1 p2 k t, (f.entry e).DiffersAt n p1 p2 ∧ k ∈ p.comboOrder ∧ (f.entry e).IsTrial n p1 p2 k t
      ∧ crcOk p.frameCheck t = true

/-! ### Outputs -/

/-- The output is a response word. -/
def Output.isResp : Output → Bool
  | .resp _ => true
  | .fire _ _ => false
  | .cmpwr _ => false

/-- The output is a `FIRE`. -/
def Output.isFire : Output → Bool
  | .resp _ => false
  | .fire _ _ => true
  | .cmpwr _ => false

/-- The oldest input offered is `RESET`. -/
abbrev State.offersReset (s : State) : Prop := ∃ c rest, s.inputs = ⟨.reset, c⟩ :: rest

/-- The oldest input offered is `IRQ`. -/
abbrev State.offersIrq (s : State) : Prop := ∃ c rest, s.inputs = ⟨.irq, c⟩ :: rest

/-- The oldest input offered is a word that is the command `i`. -/
abbrev State.offersCommand (s : State) (i : Instr) : Prop :=
  ∃ w c rest, s.inputs = ⟨.cmd w, c⟩ :: rest ∧ decode w = .ok i

/-- The status field of a response word, `r[31:28]` (30_encoding.md R83). -/
abbrev respStatus (r : Word32) : BitVec 4 := r.extractLsb' 28 4

end Sys2Proof.Machine
end

