-- ==== Sys2Proof/Certificates/Slice0/Obligations.lean ====
section
/-! DEFINITION. The statements for the provers, file by file of spec/. In all of them the parameters of the block
(00_scope.md R6) are whatever the state's `cfg` says. The list of offered inputs, the counter value that comes with an
input and the list of outputs are the model's form of R8, R9 and R10 (log 1, 2, 3). -/

open Sys2Proof Sys2Proof.Machine

/-! ### 30_encoding.md -/

/-- Decoding the word of a command gives the command back: no operand bit is dropped (R81, R82, R84, R85). -/
def Obligations.DecodeEncodeRoundTrip : Prop :=
  ∀ i : Instr, decode (encode i) = .ok i

/-- A legal word is the word of the command it decodes to: "There are no hint encodings, no encodings that execute as
another command" (R87). -/
def Obligations.DecodedWordIsTheCommandsWord : Prop :=
  ∀ (w : Word32) (i : Instr), decode w = .ok i → encode i = w

/-- "`match` and `mask` are such that a word `w` is the command exactly when `w AND mask = match`" (R85), and a word that
matches no row is rejected (R87). -/
def Obligations.DecodeFollowsTheOpcodeMap : Prop :=
  (∀ (w : Word32), ∀ row ∈ opcodeMap,
    (w &&& row.mask = row.value ↔ ∃ i, decode w = .ok i ∧ i.mnemonic = row.mnemonic))
  ∧ ∀ w : Word32, (∀ row ∈ opcodeMap, w &&& row.mask ≠ row.value) ↔ ∃ e, decode w = .error e

/-- Words of the spec's own examples (40_fcc_commands.md R107; 41_vtd_commands.md R130, R151; 95_test_vectors.md V13, V21, V24,
V37) decode by 30_encoding.md R84 and R85 to the commands they are written for, or are illegal by R87 (V21). -/
def Obligations.WordsOfTheExamplesDecode : Prop :=
  decode 0x02200000 = .ok (.rdreg 0x20)
  ∧ decode 0x10030055 = .ok (.fcLd 3 0x55)
  ∧ decode 0x117E0000 = .ok (.fcRd 126)
  ∧ decode 0x12FF0001 = .ok (.fcVal 255 true)
  ∧ decode 0x2200BEEF = .ok (.vtSetcbOffset 0xBEEF)
  ∧ decode 0x2400FFF0 = .ok (.vtArmSlot 0xFFF0)
  ∧ decode 0x29000000 = .ok .vtCancelPeriod
  ∧ decode 0x2C000000 = .ok .vtCbret
  ∧ decode 0x10030155 = .error .reservedBitSet
  ∧ decode 0x2B000000 = .error .unknownOpcode

/-- When the oldest input offered is a word that decodes to `i`, the step is `exec i` of the state with that input taken
from the list and its counter value on the counter input (00_scope.md R8, R10). -/
def Obligations.StepRunsTheDecodedCommand : Prop :=
  ∀ (s : State) (w : Word32) (c : Reg16) (rest : List Input) (i : Instr),
    s.inputs = ⟨.cmd w, c⟩ :: rest → decode w = .ok i → step s = exec i { s with inputs := rest, cnt := c }

/-- The model's choice of log 1 for how a command reaches the block: `withFetchWord` puts a word in front of the offered inputs
with the counter input as it stands, and the very next step runs it in the state as it is. -/
def Obligations.PresentedWordRunsNext : Prop :=
  ∀ (s : State) (w : Nat) (i : Instr),
    decode (BitVec.ofNat 32 w) = .ok i → step (s.withFetchWord 32 w) = exec i s

/-- The checks on a command word, their order, their responses, that none of them changes the state, and that a word that
passes them executes (R88): answered `OK`, or `FAULT_NOW` for `VT_CBRET`. -/
def Obligations.CommandChecksInOrder : Prop :=
  ∀ (s : State) (w : Word32) (c : Reg16) (rest : List Input), s.inputs = ⟨.cmd w, c⟩ :: rest →
    let s0 : State := { s with inputs := rest, cnt := c }
    let answers (r : Word32) : Prop := step s = .next { s0 with outs := s.outs ++ [.resp r] }
    ((∀ row ∈ opcodeMap, w &&& row.mask ≠ row.value) → answers 0x10000000)
    ∧ ∀ i : Instr, decode w = .ok i →
      (i.isVt = true ∧ s.vtd.phase = .faulted → answers 0xF0000000)
      ∧ (i.wellFormed s.cfg.cacheDepth = false → answers 0x20000000)
      ∧ (i = .vtCbret ∧ s.vtd.phase = .idle → answers 0x30000000)
      ∧ (¬ (i.isVt = true ∧ s.vtd.phase = .faulted) → i.wellFormed s.cfg.cacheDepth = true →
          (i = .vtCbret → s.vtd.phase = .cbFirst ∨ s.vtd.phase = .cbLate) →
          step s = exec i s0
          ∧ ∃ t o r, step s = .next t ∧ t.outs = s.outs ++ o ++ [.resp r]
              ∧ (respStatus r = 0x0 ∨ (i = .vtCbret ∧ respStatus r = 0xE)))

/-- Every command is answered by exactly one response word, its last output, with a status of R83; no other input is
answered (00_scope.md R9). -/
def Obligations.EachCommandIsAnsweredOnce : Prop :=
  ∀ s t : State, step s = .next t →
    ∃ o, t.outs = s.outs ++ o
      ∧ (∀ w c rest, s.inputs = ⟨.cmd w, c⟩ :: rest →
          ∃ o' r, o = o' ++ [.resp r] ∧ (∀ x ∈ o', x.isResp = false)
            ∧ respStatus r ∈ [0x0, 0x1, 0x2, 0x3, 0xE, 0xF])
      ∧ ((∀ w c rest, s.inputs ≠ ⟨.cmd w, c⟩ :: rest) → ∀ x ∈ o, x.isResp = false)

/-! ### 70_reset_and_hazards.md and the reset values of 10_state.md -/

/-- `RESET`, in any state, puts every element of both units to zero, keeps the parameters and emits nothing (10_state.md
R48). -/
def Obligations.ResetPutsEveryElementToZero : Prop :=
  ∀ (s : State) (c : Reg16) (rest : List Input), s.inputs = ⟨.reset, c⟩ :: rest →
    ∃ t : State, step s = .next t
      ∧ t.cfg = s.cfg ∧ t.inputs = rest ∧ t.outs = s.outs
      ∧ (∀ j, Memory.read t.fcc.rxbuf j = 0)
      ∧ t.fcc.fcres = 0 ∧ t.fcc.fcpos = 0 ∧ t.fcc.fcent = 0
      ∧ t.fcc.cache.length = s.cfg.cacheDepth
      ∧ (∀ e, (t.fcc.entry e).valid = false ∧ (t.fcc.entry e).len = 0
            ∧ ∀ j, Memory.read (t.fcc.entry e).data j = 0)
      ∧ t.fcc.cwr = 0
      ∧ (∀ i, (t.vtd.timer i).armed = false ∧ (t.vtd.timer i).cmp = 0 ∧ (t.vtd.timer i).dly = 0
            ∧ (t.vtd.timer i).cb = 0 ∧ (t.vtd.timer i).cbv = false)
      ∧ t.vtd.prev = 0 ∧ t.vtd.now = 0 ∧ t.vtd.hwcmp = 0 ∧ t.vtd.hwie = false
      ∧ t.vtd.next = .slot ∧ t.vtd.nextv = false ∧ t.vtd.late = 0
      ∧ t.vtd.phase = .idle ∧ t.vtd.cur = .slot ∧ t.vtd.tentry = 0 ∧ t.vtd.hdist = 0 ∧ t.vtd.flt = 0

/-- The state after `RESET` meets every invariant of Safety.lean, for all parameters in the ranges of R6. That
`State.reset` has the defaults of R6 is the model's choice (log 4). -/
def Obligations.ResetStateMeetsTheInvariants : Prop :=
  (∀ p : Params, p.wf → (State.resetWith p).inv) ∧ State.reset.inv

/-- "It is ... the only way to clear `late`, `nextv`, `hwie`, `cbv[i]` and `cvalid[e]`" (70_reset_and_hazards.md R210): what
the valid and enable bits are concerned; `late` has a statement of its own. -/
def Obligations.OnlyResetClearsTheValidBits : Prop :=
  ∀ s t : State, step s = .next t → ¬ s.offersReset →
    (s.vtd.nextv = true → t.vtd.nextv = true)
    ∧ (s.vtd.hwie = true → t.vtd.hwie = true)
    ∧ (∀ i, (s.vtd.timer i).cbv = true → (t.vtd.timer i).cbv = true)
    ∧ ∀ e, (s.fcc.entry e).valid = true → (t.fcc.entry e).valid = true

/-! ### Invariants that every step keeps -/

/-- Every step keeps the invariants of the VTD unit: 41_vtd_commands.md R165 (a), (b), (d) and (g), and what goes with them (the
list is at `Vtd.inv`; (c) is in the type of `next`, and (e) and (f) have statements of their own). -/
def Obligations.StepKeepsTheTimerInvariants : Prop :=
  ∀ s t : State, s.vtd.inv → step s = .next t → t.vtd.inv

/-- Every step keeps the cache invariants (10_state.md R28 (a), (b), (c)), whatever function `CrcOk` is. -/
def Obligations.StepKeepsTheCacheInvariants : Prop :=
  ∀ s t : State, s.cfg.wf → s.fcc.storesCanonical → s.fcc.cacheInv s.cfg → step s = .next t → t.fcc.cacheInv t.cfg

/-- Every step keeps the byte stores in canonical form and within the indices of 20_memory.md R60. The form is the model's
choice (log 6). -/
def Obligations.StepKeepsTheStoresCanonical : Prop :=
  ∀ s t : State, s.fcc.storesCanonical → step s = .next t → t.fcc.storesCanonical

/-- Every step keeps the layout and the invariant of the result registers (10_state.md R25). -/
def Obligations.StepKeepsTheResultRegisters : Prop :=
  ∀ s t : State, s.fcc.resultInv → step s = .next t → t.fcc.resultInv

/-- No step changes the parameters: "there is no command that writes it" (00_scope.md R6), and "not changed by `RESET`"
(10_state.md R48). -/
def Obligations.StepKeepsTheParameters : Prop :=
  ∀ s t : State, step s = .next t → t.cfg = s.cfg

/-! ### 10_state.md: the register map, and RDREG -/

/-- `RDREG` of every number of the table of R45 answers the register of that number and changes nothing; of every other
number `E_RANGE`. (`VTSTAT` has a statement of its own.) -/
def Obligations.RdregReadsTheRegisterMap : Prop :=
  ∀ s : State,
    let answers (rn : BitVec 8) (r : Word32) : Prop :=
      exec (.rdreg rn) s = .next { s with outs := s.outs ++ [.resp r] }
    let reads (rn : BitVec 8) (v : Reg16) : Prop := answers rn (v.setWidth 32)
    (reads 0x00 s.fcc.fcres ∧ reads 0x01 s.fcc.fcpos ∧ reads 0x02 s.fcc.fcent)
    ∧ (s.fcc.cwr < 64 → reads 0x03 (BitVec.ofNat 16 s.fcc.cwr))
    ∧ (reads 0x10 s.vtd.slot.cmp ∧ reads 0x11 s.vtd.period.cmp ∧ reads 0x12 s.vtd.offset.cmp)
    ∧ (reads 0x14 s.vtd.slot.dly ∧ reads 0x15 s.vtd.period.dly ∧ reads 0x16 s.vtd.offset.dly)
    ∧ (reads 0x18 s.vtd.slot.cb ∧ reads 0x19 s.vtd.period.cb ∧ reads 0x1A s.vtd.offset.cb)
    ∧ (reads 0x1C s.vtd.prev ∧ reads 0x1D s.vtd.now ∧ reads 0x1E s.vtd.hwcmp ∧ reads 0x1F s.vtd.late)
    ∧ (reads 0x21 s.vtd.tentry ∧ reads 0x22 s.vtd.hdist ∧ reads 0x23 s.vtd.flt)
    ∧ (∀ e < s.cfg.cacheDepth, e < 64 →
        reads (BitVec.ofNat 8 (0x40 + e)) (BitVec.ofBool (s.fcc.entry e).valid ++ 0#7 ++ (s.fcc.entry e).len))
    ∧ ∀ rn : BitVec 8,
        (0x04 ≤ rn.toNat ∧ rn.toNat ≤ 0x0F) ∨ rn = 0x13 ∨ rn = 0x17 ∨ rn = 0x1B
          ∨ (0x24 ≤ rn.toNat ∧ rn.toNat ≤ 0x3F) ∨ 0x40 + s.cfg.cacheDepth ≤ rn.toNat →
        answers rn 0x20000000

/-- `VTSTAT` (register 0x20) packs the dispatcher's flags, bit by bit (R46), with the codes of R31 and R41. -/
def Obligations.VtstatPacksTheFlags : Prop :=
  ∀ s : State, ∃ r : Reg16,
    exec (.rdreg 0x20) s = .next { s with outs := s.outs ++ [.resp (r.setWidth 32)] }
    ∧ (r.getLsbD 0 = s.vtd.slot.armed ∧ r.getLsbD 1 = s.vtd.period.armed ∧ r.getLsbD 2 = s.vtd.offset.armed)
    ∧ r.getLsbD 3 = false
    ∧ (r.getLsbD 4 = s.vtd.slot.cbv ∧ r.getLsbD 5 = s.vtd.period.cbv ∧ r.getLsbD 6 = s.vtd.offset.cbv)
    ∧ r.getLsbD 7 = false
    ∧ r.extractLsb' 8 2 = (match s.vtd.next with | .slot => 0 | .period => 1 | .offset => 2)
    ∧ (r.getLsbD 10 = s.vtd.nextv ∧ r.getLsbD 11 = s.vtd.hwie)
    ∧ r.extractLsb' 12 2 = (match s.vtd.phase with | .idle => 0 | .cbFirst => 1 | .cbLate => 2 | .faulted => 3)
    ∧ r.extractLsb' 14 2 = (match s.vtd.cur with | .slot => 0 | .period => 1 | .offset => 2)

/-! ### 40_fcc_commands.md -/

/-- `FC_LD idx, d` with `idx` of 0..126 writes `RXBUF[idx]` and nothing else, and answers 0, in every phase (R107). -/
def Obligations.FcLdWritesOneByte : Prop :=
  ∀ (s : State) (idx d : BitVec 8), idx.toNat ≤ 126 → s.fcc.rxbuf.wf →
    ∃ m : Memory,
      exec (.fcLd idx d) s = .next { s with fcc := { s.fcc with rxbuf := m }, outs := s.outs ++ [.resp 0] }
      ∧ Memory.read m idx.toNat = d
      ∧ ∀ j, j ≠ idx.toNat → Memory.read m j = Memory.read s.fcc.rxbuf j

/-- `FC_RD idx` with `idx` of 0..126 answers `RXBUF[idx]` and changes nothing, in every phase (R102). -/
def Obligations.FcRdReadsOneByte : Prop :=
  ∀ (s : State) (idx : BitVec 8), idx.toNat ≤ 126 →
    exec (.fcRd idx) s
      = .next { s with outs := s.outs ++ [.resp ((Memory.read s.fcc.rxbuf idx.toNat).setWidth 32)] }

/-- `FC_VAL` of a length above 127, in either mode: `DROP_OVERSIZE`, and only the result registers change (R106). -/
def Obligations.FcValDropsOversize : Prop :=
  ∀ (s : State) (len : BitVec 8) (hw : Bool), 127 < len.toNat →
    let r : Reg16 := (len.setWidth 16 <<< 8) + 0x000A
    exec (.fcVal len hw) s =
      .next { s with
        fcc := { s.fcc with fcres := r, fcpos := 0, fcent := 0 }
        outs := s.outs ++ [.resp (r.setWidth 32)] }

/-- `FC_VAL` of a frame that passes, by the hardware bit in `HW` mode and by `CrcOk` in `SW` mode: `PASS_DIRECT`, and only
the result registers change (R106). -/
def Obligations.FcValPassesDirectly : Prop :=
  ∀ (s : State) (len : BitVec 8) (hw : Bool), len.toNat ≤ 127 →
    (s.cfg.crcMode = .hw ∧ hw = true)
      ∨ (s.cfg.crcMode = .sw
          ∧ crcOk s.cfg.frameCheck ((List.range len.toNat).map (Memory.read s.fcc.rxbuf)) = true) →
    let r : Reg16 := (len.setWidth 16 <<< 8) + 0x0003
    exec (.fcVal len hw) s =
      .next { s with
        fcc := { s.fcc with fcres := r, fcpos := 0, fcent := 0 }
        outs := s.outs ++ [.resp (r.setWidth 32)] }

/-- `FC_VAL` in `HW` mode of a frame the hardware bit fails: `FAIL_NOCACHE`, and only the result registers change (R106). -/
def Obligations.FcValFailsInHardwareMode : Prop :=
  ∀ (s : State) (len : BitVec 8), len.toNat ≤ 127 → s.cfg.crcMode = .hw →
    let r : Reg16 := (len.setWidth 16 <<< 8) + 0x0008
    exec (.fcVal len false) s =
      .next { s with
        fcc := { s.fcc with fcres := r, fcpos := 0, fcent := 0 }
        outs := s.outs ++ [.resp (r.setWidth 32)] }

/-- `FC_VAL` in `SW` mode of a failed frame with a combinable cache entry: the first such entry, its two differing
positions and the first validating trial in `COMBO_ORDER` decide; the receive buffer becomes the trial frame, the
result registers say so, and the cache, `cwr` and every other byte stay (R103, R104, R106). -/
def Obligations.FcValCombines : Prop :=
  ∀ (s : State) (len : BitVec 8) (hw : Bool) (e p1 p2 : Nat) (k : BitVec 2) (ks ks' : List (BitVec 2))
    (n t : List Byte),
    n = (List.range len.toNat).map (Memory.read s.fcc.rxbuf) →
    s.cfg.wf → s.fcc.rxbuf.wf → len.toNat ≤ 127 → s.cfg.crcMode = .sw → crcOk s.cfg.frameCheck n = false →
    e < s.cfg.cacheDepth → (s.fcc.entry e).valid = true → (s.fcc.entry e).len = len →
    (s.fcc.entry e).DiffersAt n p1 p2 →
    s.cfg.comboOrder = ks ++ k :: ks' →
    (∀ k' ∈ ks, ∀ t', (s.fcc.entry e).IsTrial n p1 p2 k' t' → crcOk s.cfg.frameCheck t' = false) →
    (s.fcc.entry e).IsTrial n p1 p2 k t → crcOk s.cfg.frameCheck t = true →
    (∀ e' < e, ¬ s.fcc.Combinable s.cfg n e') →
    let r : Reg16 := (len.setWidth 16 <<< 8) + (k.setWidth 16 <<< 4) + 0x0005
    ∃ m : Memory,
      exec (.fcVal len hw) s =
        .next { s with
          fcc := { s.fcc with
                    rxbuf := m, fcres := r
                    fcpos := BitVec.ofNat 16 (p2 * 256 + p1), fcent := BitVec.ofNat 16 e }
          outs := s.outs ++ [.resp (r.setWidth 32)] }
      ∧ (List.range len.toNat).map (Memory.read m) = t
      ∧ ∀ j, j ≠ p1 → j ≠ p2 → Memory.read m j = Memory.read s.fcc.rxbuf j

/-- `FC_VAL` in `SW` mode of a failed frame with no combinable cache entry: the frame goes into the entry at `cwr`, `cwr`
moves on, the result registers say `FAIL_CACHED`, and the receive buffer and every other entry stay (R105, R106). -/
def Obligations.FcValCachesTheFailedFrame : Prop :=
  ∀ (s : State) (len : BitVec 8) (hw : Bool) (n : List Byte),
    n = (List.range len.toNat).map (Memory.read s.fcc.rxbuf) →
    s.fcc.cwr < s.fcc.cache.length → (s.fcc.entry s.fcc.cwr).data.wf →
    len.toNat ≤ 127 → s.cfg.crcMode = .sw → crcOk s.cfg.frameCheck n = false →
    (∀ e, ¬ s.fcc.Combinable s.cfg n e) →
    let r : Reg16 := (len.setWidth 16 <<< 8) + 0x0006
    ∃ c : CacheEntry,
      exec (.fcVal len hw) s =
        .next { s with
          fcc := { s.fcc with
                    cache := s.fcc.cache.set s.fcc.cwr c
                    cwr := (s.fcc.cwr + 1) % s.cfg.cacheDepth
                    fcres := r, fcpos := 0, fcent := 0 }
          outs := s.outs ++ [.resp (r.setWidth 32)] }
      ∧ c.valid = true ∧ c.len = len
      ∧ (∀ j < len.toNat, Memory.read c.data j = Memory.read s.fcc.rxbuf j)
      ∧ ∀ j, len.toNat ≤ j → Memory.read c.data j = Memory.read (s.fcc.entry s.fcc.cwr).data j

/-- "`crc_pass = 1` after `FC_VAL L, hw` implies `L <= 127` and `CrcOk(RXBUF[0..L-1])` holds for the new `RXBUF`" (R108 (a)),
for `CRC_MODE = SW` and any `CrcOk`. -/
def Obligations.FcValPassMeansTheFrameChecks : Prop :=
  ∀ (s t : State) (len : BitVec 8) (hw : Bool),
    s.cfg.crcMode = .sw → s.fcc.rxbuf.wf → exec (.fcVal len hw) s = .next t → t.fcc.fcres.getLsbD 0 = true →
    len.toNat ≤ 127
    ∧ crcOk s.cfg.frameCheck ((List.range len.toNat).map (Memory.read t.fcc.rxbuf)) = true

/-- The cache changes only with the verdict `FAIL_CACHED`, and then at no entry but the one at `cwr` (R108 (b)). A frame
cached again over itself leaves the cache as it is, so the rule's "if" is not stated. -/
def Obligations.CacheChangesOnlyOnFailCached : Prop :=
  ∀ (s t : State) (len : BitVec 8) (hw : Bool), exec (.fcVal len hw) s = .next t →
    (fcresVerdict t.fcc.fcres ≠ 3 → t.fcc.cache = s.fcc.cache ∧ t.fcc.cwr = s.fcc.cwr)
    ∧ (fcresVerdict t.fcc.fcres = 3 → ∀ e, e ≠ s.fcc.cwr → t.fcc.entry e = s.fcc.entry e)

/-- `RXBUF` changes only when the verdict is `PASS_COMBINED`, and then exactly one byte: trial 0 and trial 3 never validate,
trial 1 changes `RXBUF[p1]`, trial 2 `RXBUF[p2]` (R106 (f), R108 (c)), for any `CrcOk`. -/
def Obligations.CombinationCorrectsExactlyOneByte : Prop :=
  ∀ (s t : State) (len : BitVec 8) (hw : Bool),
    s.fcc.storesCanonical → s.fcc.cacheInv s.cfg → exec (.fcVal len hw) s = .next t →
    (fcresVerdict t.fcc.fcres ≠ 2 → t.fcc.rxbuf = s.fcc.rxbuf)
    ∧ (fcresVerdict t.fcc.fcres = 2 →
        ∃ p, ((t.fcc.fcres.extractLsb' 4 2 = 1 ∧ p = (t.fcc.fcpos.extractLsb' 0 8).toNat)
                ∨ (t.fcc.fcres.extractLsb' 4 2 = 2 ∧ p = (t.fcc.fcpos.extractLsb' 8 8).toNat))
          ∧ p < len.toNat
          ∧ Memory.read t.fcc.rxbuf p ≠ Memory.read s.fcc.rxbuf p
          ∧ ∀ j, j ≠ p → Memory.read t.fcc.rxbuf j = Memory.read s.fcc.rxbuf j)

/-- The document's own property (R109), with one cache entry holding the first failed frame: if the second, of equal
length, differs at exactly two positions and one of the four cross-combinations gives a valid check, the frame in the
buffer is corrected and `crc_pass` is 1; if it differs at any other count of positions, or at two with no combination
that validates (R108 (e), vector V10), it is cached uncorrected in the first one's place. -/
def Obligations.TwoCorruptedCopiesRecoverTheFrame : Prop :=
  ∀ (s : State) (len : BitVec 8) (hw : Bool) (n : List Byte),
    n = (List.range len.toNat).map (Memory.read s.fcc.rxbuf) →
    s.cfg.wf → s.cfg.crcMode = .sw → s.cfg.cacheDepth = 1 → s.fcc.storesCanonical → s.fcc.cacheInv s.cfg →
    len.toNat ≤ 127 → crcOk s.cfg.frameCheck n = false →
    (s.fcc.entry 0).valid = true → (s.fcc.entry 0).len = len →
    let validates (p1 p2 : Nat) : Prop := ∃ k f, (s.fcc.entry 0).IsTrial n p1 p2 k f ∧ crcOk s.cfg.frameCheck f = true
    ∃ t : State, exec (.fcVal len hw) s = .next t
      ∧ ((∃ p1 p2, (s.fcc.entry 0).DiffersAt n p1 p2 ∧ validates p1 p2) →
          t.fcc.fcres.getLsbD 0 = true
          ∧ crcOk s.cfg.frameCheck ((List.range len.toNat).map (Memory.read t.fcc.rxbuf)) = true)
      ∧ ((∀ p1 p2, (s.fcc.entry 0).DiffersAt n p1 p2 → ¬ validates p1 p2) →
          t.fcc.fcres.getLsbD 0 = false ∧ t.fcc.rxbuf = s.fcc.rxbuf
          ∧ (t.fcc.entry 0).valid = true ∧ (t.fcc.entry 0).len = len
          ∧ (List.range len.toNat).map (Memory.read (t.fcc.entry 0).data) = n)

/-- "Equivalent form: for `n >= 2`, `CrcOk(f)` is `crc16(f) = 0x0000`" (R101), of the DEFAULT `CrcOk`, which the spec supplies
from general knowledge (log 5). -/
def Obligations.DefaultCheckIsAZeroResidue : Prop :=
  ∀ f : List Byte, 2 ≤ f.length → (crcOkDefault f = true ↔ crc16 f = 0)

/-- The properties R101 lists of the DEFAULT `CrcOk` (log 5): the check value of "123456789", the empty list, all-zero
frames of length 2 or more, frames of length 0 and 1. -/
def Obligations.DefaultCheckValues : Prop :=
  crc16 [0x31, 0x32, 0x33, 0x34, 0x35, 0x36, 0x37, 0x38, 0x39] = 0x2189
  ∧ crc16 [] = 0
  ∧ (∀ n, 2 ≤ n → crcOkDefault (List.replicate n 0) = true)
  ∧ ∀ f : List Byte, f.length < 2 → crcOkDefault f = false

/-! ### 41_vtd_commands.md: callbacks, arming, cancelling -/

/-- `VT_SETCB_*` in every phase but `FAULTED` assigns the tag, sets `cbv` and changes nothing else (R131 to R133). -/
def Obligations.SetCallbackAssignsTheTag : Prop :=
  ∀ (s : State) (tag : Reg16), s.noFault →
    exec (.vtSetcbSlot tag) s =
      .next { s with
        vtd := { s.vtd with slot := { s.vtd.slot with cb := tag, cbv := true } }, outs := s.outs ++ [.resp 0] }
    ∧ exec (.vtSetcbPeriod tag) s =
      .next { s with
        vtd := { s.vtd with period := { s.vtd.period with cb := tag, cbv := true } }, outs := s.outs ++ [.resp 0] }
    ∧ exec (.vtSetcbOffset tag) s =
      .next { s with
        vtd := { s.vtd with offset := { s.vtd.offset with cb := tag, cbv := true } }, outs := s.outs ++ [.resp 0] }

/-- `VT_ARM_*` in every phase but `FAULTED`: the compare value (SLOT and PERIOD from the timer's own last compare value,
OFFSET from the last period start), the stored delay and the armed flag are written, then `Reschedule()` runs and its
result, `found` always 1, is the response; nothing else changes (R142 to R144, R140). -/
def Obligations.ArmingSetsTheCompareValueAndReschedules : Prop :=
  ∀ (s : State) (v : Reg16), s.noFault →
    (∃ w d o,
      ({ s.vtd with slot := { s.vtd.slot with cmp := s.vtd.slot.cmp + v, dly := v, armed := true } } : Vtd).ReschedulesTo
        w true d o
      ∧ exec (.vtArmSlot v) s =
          .next { s with vtd := w, outs := s.outs ++ o ++ [.resp (0x00010000 + d.setWidth 32)] })
    ∧ (∃ w d o,
      ({ s.vtd with
          period := { s.vtd.period with cmp := s.vtd.period.cmp + v, dly := v, armed := true } } : Vtd).ReschedulesTo
        w true d o
      ∧ exec (.vtArmPeriod v) s =
          .next { s with vtd := w, outs := s.outs ++ o ++ [.resp (0x00010000 + d.setWidth 32)] })
    ∧ ∃ w d o,
      ({ s.vtd with offset := { s.vtd.offset with cmp := s.vtd.prev + v, dly := v, armed := true } } : Vtd).ReschedulesTo
        w true d o
      ∧ exec (.vtArmOffset v) s =
          .next { s with vtd := w, outs := s.outs ++ o ++ [.resp (0x00010000 + d.setWidth 32)] }

/-- `VT_CANCEL_*` in every phase but `FAULTED`: the armed flag and the stored delay are cleared, then `Reschedule()` runs and
its result is the response, `0x0000FFFF` when no timer is left armed; nothing else changes (R150 to R152, R140). -/
def Obligations.CancellingDisarmsAndReschedules : Prop :=
  ∀ s : State, s.noFault →
    (∃ w found d o,
      ({ s.vtd with slot := { s.vtd.slot with armed := false, dly := 0 } } : Vtd).ReschedulesTo w found d o
      ∧ exec .vtCancelSlot s =
          .next { s with
            vtd := w
            outs := s.outs ++ o ++ [.resp ((if found then 0x00010000 else 0) + d.setWidth 32)] })
    ∧ (∃ w found d o,
      ({ s.vtd with period := { s.vtd.period with armed := false, dly := 0 } } : Vtd).ReschedulesTo w found d o
      ∧ exec .vtCancelPeriod s =
          .next { s with
            vtd := w
            outs := s.outs ++ o ++ [.resp ((if found then 0x00010000 else 0) + d.setWidth 32)] })
    ∧ ∃ w found d o,
      ({ s.vtd with offset := { s.vtd.offset with armed := false, dly := 0 } } : Vtd).ReschedulesTo w found d o
      ∧ exec .vtCancelOffset s =
          .next { s with
            vtd := w
            outs := s.outs ++ o ++ [.resp ((if found then 0x00010000 else 0) + d.setWidth 32)] }

/-- "calling `Reschedule()` again with nothing changed selects the same timer, returns `(1, 0)`, and emits `CMPWR` again with
the same value" (R140 (a)): of the procedure itself, whichever timer it selects, and of a cancel command given twice
while another timer is armed. -/
def Obligations.ReschedulingAgainSelectsTheSameTimer : Prop :=
  (∀ s : State, (∃ i, (s.vtd.timer i).armed = true) →
    let t := (reschedule s).state
    reschedule t = { state := { t with outs := t.outs ++ [.cmpwr t.vtd.hwcmp] }, found := true, dist := 0 })
  ∧ ∀ s t : State, s.noFault → ∀ c ∈ [Instr.vtCancelSlot, .vtCancelPeriod, .vtCancelOffset],
      exec c s = .next t → (∃ i, (t.vtd.timer i).armed = true) →
      exec c t = .next { t with outs := t.outs ++ [.cmpwr t.vtd.hwcmp, .resp 0x00010000] }

/-- A timer armed behind `now` waits (R144 (c), 70_reset_and_hazards.md R221): with the PERIOD timer at distance 0 and no
SLOT timer armed, an OFFSET timer armed at any other compare value is not selected, and `now` and `next` stay with the
PERIOD timer. -/
def Obligations.OffsetArmedBehindNowIsNotSelected : Prop :=
  ∀ (s : State) (v : Reg16), s.noFault →
    s.vtd.slot.armed = false → s.vtd.period.armed = true → s.vtd.period.cmp = s.vtd.now → s.vtd.prev + v ≠ s.vtd.now →
    ∃ t : State, exec (.vtArmOffset v) s = .next t
      ∧ t.vtd.next = .period ∧ t.vtd.now = s.vtd.now ∧ t.vtd.offset.armed = true ∧ t.vtd.offset.cmp = s.vtd.prev + v
      ∧ t.outs = s.outs ++ [.cmpwr s.vtd.now, .resp 0x00010000]

/-! ### 41_vtd_commands.md R160: VT_CBRET -/

/-- `VT_CBRET` when the first callback returns and the elapsed time does not exceed `hdist`: the handler ends, and only
`phase` changes. -/
def Obligations.FirstCallbackReturnEndsTheHandler : Prop :=
  ∀ s : State, s.vtd.phase = .cbFirst → s.cnt - s.vtd.tentry ≤ s.vtd.hdist →
    exec .vtCbret s = .next { s with vtd := { s.vtd with phase := .idle }, outs := s.outs ++ [.resp 0] }

/-- `VT_CBRET` when the first callback returns and the elapsed time exceeds `hdist`: the timer `next` names gets its
bookkeeping and its callback is fired, armed or not; the response has `more = 1` and the timer's index. -/
def Obligations.FirstCallbackReturnFiresTheOverdueTimer : Prop :=
  ∀ s : State, s.vtd.phase = .cbFirst → s.vtd.hdist < s.cnt - s.vtd.tentry →
    (s.vtd.timer s.vtd.next).cbv = true →
    ∃ w, s.vtd.BookkeepsTo w s.vtd.next
      ∧ exec .vtCbret s =
          .next { s with
            vtd := { w with cur := s.vtd.next, phase := .cbLate }
            outs := s.outs ++ [.fire s.vtd.next (s.vtd.timer s.vtd.next).cb,
              .resp (match s.vtd.next with | .slot => 1 | .period => 3 | .offset => 5)] }

/-- `VT_CBRET` when a late callback returns: the late counter goes up by one, the timers are rescheduled, `hdist` takes the
new distance, and the catch-up test is made against it. -/
def Obligations.LateCallbackReturnIsCountedAndReschedules : Prop :=
  ∀ s : State, s.vtd.phase = .cbLate →
    ∃ w found d o,
      ({ s.vtd with late := s.vtd.late + 1 } : Vtd).ReschedulesTo w found d o
      ∧ (s.cnt - s.vtd.tentry ≤ d →
          exec .vtCbret s =
            .next { s with vtd := { w with hdist := d, phase := .idle }, outs := s.outs ++ o ++ [.resp 0] })
      ∧ (d < s.cnt - s.vtd.tentry → (s.vtd.timer w.next).cbv = true →
          ∃ x, ({ w with hdist := d } : Vtd).BookkeepsTo x w.next
            ∧ exec .vtCbret s =
                .next { s with
                  vtd := { x with cur := w.next, phase := .cbLate }
                  outs := s.outs ++ o ++ [.fire w.next (s.vtd.timer w.next).cb,
                    .resp (match w.next with | .slot => 1 | .period => 3 | .offset => 5)] })

/-- `VT_CBRET` whose late fire finds no callback assigned raises `FLT_NOCB`: response `FAULT_NOW`, no `FIRE`, and the writes of
`late`, `Reschedule()` and `FireBookkeeping` stand (R160, 60_exceptions.md R183). -/
def Obligations.LateFireWithoutCallbackFaults : Prop :=
  ∀ s : State,
    (s.vtd.phase = .cbFirst → s.vtd.hdist < s.cnt - s.vtd.tentry → (s.vtd.timer s.vtd.next).cbv = false →
      ∃ w, s.vtd.BookkeepsTo w s.vtd.next
        ∧ exec .vtCbret s =
            .next { s with
              vtd := { w with cur := s.vtd.next, flt := s.vtd.flt ||| 2, phase := .faulted }
              outs := s.outs ++ [.resp 0xE0000000] })
    ∧ (s.vtd.phase = .cbLate →
        ∃ w found d o,
          ({ s.vtd with late := s.vtd.late + 1 } : Vtd).ReschedulesTo w found d o
          ∧ (d < s.cnt - s.vtd.tentry → (s.vtd.timer w.next).cbv = false →
              ∃ x, ({ w with hdist := d } : Vtd).BookkeepsTo x w.next
                ∧ exec .vtCbret s =
                    .next { s with
                      vtd := { x with cur := w.next, flt := s.vtd.flt ||| 2, phase := .faulted }
                      outs := s.outs ++ o ++ [.resp 0xE0000000] }))

/-- "`hdist = 0xFFFF` ... is never exceeded by a 16-bit `elapsed`, so the handler ends" (R160 (f)): after a first fire that left
nothing armed the handler ends whatever the counter reads. -/
def Obligations.NothingScheduledEndsTheHandler : Prop :=
  ∀ s : State, s.vtd.phase = .cbFirst → s.vtd.hdist = 0xFFFF →
    ∃ t : State, exec .vtCbret s = .next t ∧ t.vtd.phase = .idle ∧ t.outs = s.outs ++ [.resp 0]

/-- A PERIOD timer of period 0 (70_reset_and_hazards.md R225, 41_vtd_commands.md R143 (b)), alone and late: every `VT_CBRET` whose
sample is not the entry sample counts it, reschedules it at distance 0 and fires it again, and leaves its registers and
the handler open as they were; the handler ends only at a sample equal to the entry sample. -/
def Obligations.PeriodZeroKeepsTheHandlerOpen : Prop :=
  ∀ s : State, s.vtd.phase = .cbLate → s.vtd.slot.armed = false → s.vtd.offset.armed = false →
    s.vtd.period.armed = true → s.vtd.period.dly = 0 → s.vtd.period.cbv = true → s.vtd.period.cmp = s.vtd.now →
    let w : Vtd :=
      { s.vtd with
        late := s.vtd.late + 1, hwcmp := s.vtd.now, hwie := true, next := .period, nextv := true, hdist := 0 }
    (s.cnt ≠ s.vtd.tentry →
      exec .vtCbret s =
        .next { s with
          vtd := { w with prev := s.vtd.now, cur := .period, phase := .cbLate }
          outs := s.outs ++ [.cmpwr s.vtd.now, .fire .period s.vtd.period.cb, .resp 3] })
    ∧ (s.cnt = s.vtd.tentry →
      exec .vtCbret s =
        .next { s with vtd := { w with phase := .idle }, outs := s.outs ++ [.cmpwr s.vtd.now, .resp 0] })

/-! ### 60_exceptions.md: the interrupt and the faults -/

/-- An `IRQ` in phase `IDLE` with `next` written and its callback assigned (R172): the sample goes to `tentry`, the timer `next`
names gets its bookkeeping whether armed or due or not, the timers are rescheduled, `hdist` takes the distance, and the
callback is fired; the outputs are the `CMPWR` of the reschedule, if any, then `FIRE`, and no response. -/
def Obligations.IrqFiresTheRecordedTimer : Prop :=
  ∀ (s : State) (c : Reg16) (rest : List Input), s.inputs = ⟨.irq, c⟩ :: rest →
    s.vtd.phase = .idle → s.vtd.nextv = true → (s.vtd.timer s.vtd.next).cbv = true →
    ∃ b w found d o,
      ({ s.vtd with tentry := c } : Vtd).BookkeepsTo b s.vtd.next
      ∧ b.ReschedulesTo w found d o
      ∧ step s =
          .next { s with
            inputs := rest, cnt := c
            vtd := { w with hdist := d, cur := s.vtd.next, phase := .cbFirst }
            outs := s.outs ++ o ++ [.fire s.vtd.next (s.vtd.timer s.vtd.next).cb] }

/-- An `IRQ` that finds no callback assigned raises `FLT_NOCB` (R183): `tentry`, the bookkeeping, the reschedule with its `CMPWR`
and `hdist` stand, `cur` holds the timer, and no `FIRE` is emitted. -/
def Obligations.IrqWithoutCallbackFaults : Prop :=
  ∀ (s : State) (c : Reg16) (rest : List Input), s.inputs = ⟨.irq, c⟩ :: rest →
    s.vtd.phase = .idle → s.vtd.nextv = true → (s.vtd.timer s.vtd.next).cbv = false →
    ∃ b w found d o,
      ({ s.vtd with tentry := c } : Vtd).BookkeepsTo b s.vtd.next
      ∧ b.ReschedulesTo w found d o
      ∧ step s =
          .next { s with
            inputs := rest, cnt := c
            vtd := { w with hdist := d, cur := s.vtd.next, flt := s.vtd.flt ||| 2, phase := .faulted }
            outs := s.outs ++ o }

/-- An `IRQ` accepted while `nextv = 0` raises `FLT_NEXT_UNSET` (R182): `tentry` holds the sample, `flt[0] = 1`, `phase = FAULTED`,
nothing else changed, no output; in a reachable state (R165 (b)) this is also the case `hwie = 0`. -/
def Obligations.IrqBeforeAnyScheduleFaults : Prop :=
  ∀ (s : State) (c : Reg16) (rest : List Input), s.inputs = ⟨.irq, c⟩ :: rest →
    s.vtd.phase = .idle → s.vtd.nextv = false →
    ∃ f : Reg16, f.getLsbD 0 = true ∧ (∀ k, k ≠ 0 → f.getLsbD k = s.vtd.flt.getLsbD k)
      ∧ step s =
          .next { s with inputs := rest, cnt := c, vtd := { s.vtd with tentry := c, flt := f, phase := .faulted } }
      ∧ (s.vtd.inv → s.vtd.hwie = false)

/-- "An `IRQ` is accepted only when `phase = IDLE`" (R171): otherwise neither unit changes, no sample is kept and nothing is
emitted. That the offered event is dropped from the list is the model's choice (log 9). -/
def Obligations.IrqIsNotTakenOutsideIdle : Prop :=
  ∀ (s : State) (c : Reg16) (rest : List Input), s.inputs = ⟨.irq, c⟩ :: rest → s.vtd.phase ≠ .idle →
    step s = .next { s with inputs := rest, cnt := c }

/-- In `FAULTED` nothing but `RESET` changes the VTD unit, and the FCC unit works as always (R181): an `FC_*` command does to the
FCC unit, and answers, what it does in the same state with any other VTD unit. -/
def Obligations.FaultedTimerUnitIsFrozen : Prop :=
  ∀ s t : State, s.vtd.phase = .faulted → step s = .next t →
    (¬ s.offersReset → t.vtd = s.vtd)
    ∧ ∀ (i : Instr) (v : Vtd), i.isVt = false → (∀ rn, i ≠ .rdreg rn) →
        ∃ u : State, exec i s = .next u ∧ exec i { s with vtd := v } = .next { u with vtd := v }

/-- "Only `RESET` leaves `FAULTED`, and only `RESET` clears a bit of `flt`" (R181). -/
def Obligations.OnlyResetClearsAFault : Prop :=
  ∀ s t : State, step s = .next t → ¬ s.offersReset →
    (s.vtd.phase = .faulted → t.vtd.phase = .faulted)
    ∧ ∀ k, s.vtd.flt.getLsbD k = true → t.vtd.flt.getLsbD k = true

/-! ### Rules about the whole machine -/

/-- The late counter (10_state.md R40): up by one, modulo 65536, at the `VT_CBRET` that ends a late fire's callback; cleared by
`RESET`; written by nothing else; register `LATE`, number 0x1F. -/
def Obligations.LateCounterCountsTheLateReturns : Prop :=
  (∀ s t : State, step s = .next t →
    (s.offersReset → t.vtd.late = 0)
    ∧ (s.offersCommand .vtCbret → s.vtd.phase = .cbLate → t.vtd.late = s.vtd.late + 1)
    ∧ (¬ s.offersReset → ¬ (s.offersCommand .vtCbret ∧ s.vtd.phase = .cbLate) → t.vtd.late = s.vtd.late))
  ∧ ∀ s : State, exec (.rdreg 0x1F) s = .next { s with outs := s.outs ++ [.resp (s.vtd.late.setWidth 32)] }

/-- The period-start anchor (10_state.md R36): but for `RESET`, `prev` moves only when the PERIOD timer fires, by an `IRQ` or a
`VT_CBRET`, and then to the compare value the timer had. -/
def Obligations.AnchorMovesOnlyWhenThePeriodFires : Prop :=
  ∀ s t : State, step s = .next t → ¬ s.offersReset → t.vtd.prev ≠ s.vtd.prev →
    t.vtd.prev = s.vtd.period.cmp ∧ t.vtd.cur = .period ∧ t.vtd.phase ≠ .idle
    ∧ (s.offersIrq ∨ s.offersCommand .vtCbret)

/-- Commands other than `VT_CBRET`, issued from a callback or not, write none of the handler's registers (20_memory.md R68,
10_state.md R42), nor `late`, `prev` or `flt`. -/
def Obligations.CommandsLeaveTheHandlerRegisters : Prop :=
  ∀ (s t : State) (i : Instr), i ≠ .vtCbret → exec i s = .next t →
    t.vtd.tentry = s.vtd.tentry ∧ t.vtd.hdist = s.vtd.hdist ∧ t.vtd.phase = s.vtd.phase ∧ t.vtd.cur = s.vtd.cur
    ∧ t.vtd.late = s.vtd.late ∧ t.vtd.prev = s.vtd.prev ∧ t.vtd.flt = s.vtd.flt

/-- The theoretical time is the value last written into the physical compare register (10_state.md R37, R39): a step that
programs the register moves `now` and `hwcmp` to the value, enables the interrupt and records `next`; a step that does
not leaves all five alone. -/
def Obligations.TheoreticalTimeFollowsTheCompareRegister : Prop :=
  ∀ s t : State, step s = .next t → ¬ s.offersReset →
    ∃ o, t.outs = s.outs ++ o
      ∧ (∀ v, Output.cmpwr v ∈ o →
          t.vtd.now = v ∧ t.vtd.hwcmp = v ∧ t.vtd.hwie = true ∧ t.vtd.nextv = true)
      ∧ ((∀ v, Output.cmpwr v ∉ o) →
          t.vtd.now = s.vtd.now ∧ t.vtd.hwcmp = s.vtd.hwcmp ∧ t.vtd.hwie = s.vtd.hwie
          ∧ t.vtd.next = s.vtd.next ∧ t.vtd.nextv = s.vtd.nextv)

/-- One transition fires at most one timer (60_exceptions.md R176 (a)); a `FIRE` carries the tag assigned to that timer
(41_vtd_commands.md R145), opens the callback phase and records the timer in `cur`. -/
def Obligations.OneFireAtATimeWithItsTag : Prop :=
  ∀ s t : State, step s = .next t →
    ∃ o, t.outs = s.outs ++ o
      ∧ o.countP Output.isFire ≤ 1
      ∧ ∀ i tag, Output.fire i tag ∈ o →
          tag = (s.vtd.timer i).cb ∧ (s.vtd.timer i).cbv = true ∧ t.vtd.cur = i
          ∧ (t.vtd.phase = .cbFirst ∨ t.vtd.phase = .cbLate)

/-- "No rule of FCC reads or writes VTD state and no rule of VTD reads or writes FCC state" (00_scope.md R2). Neither unit
reads the other: from two states with the same parameters and inputs, what a step leaves in a unit depends on that unit
alone; so does what it emits, in an `FC_*` command and in `RDREG` of an FCC register number on the FCC unit, in a `VT_*`
command, an `IRQ` and `RDREG` of a VTD register number on the VTD unit. Neither writes the other: the commands of one leave
the other alone. -/
def Obligations.UnitsDoNotInterfere : Prop :=
  (∀ s s' t t' : State, s.cfg = s'.cfg → s.inputs = s'.inputs → step s = .next t → step s' = .next t' →
    let emitSame : Prop := ∃ o, t.outs = s.outs ++ o ∧ t'.outs = s'.outs ++ o
    (s.fcc = s'.fcc →
      t.fcc = t'.fcc
      ∧ (∀ i, s.offersCommand i → i.isVt = false → (∀ rn, i ≠ .rdreg rn) → emitSame)
      ∧ ∀ rn, s.offersCommand (.rdreg rn) → rn.toNat < 0x10 ∨ 0x40 ≤ rn.toNat → emitSame)
    ∧ (s.vtd = s'.vtd →
      t.vtd = t'.vtd
      ∧ (s.offersIrq → emitSame)
      ∧ (∀ i, s.offersCommand i → i.isVt = true → emitSame)
      ∧ ∀ rn, s.offersCommand (.rdreg rn) → 0x10 ≤ rn.toNat → rn.toNat < 0x40 → emitSame))
  ∧ ∀ (s t : State) (i : Instr), exec i s = .next t →
      (i.isVt = true → t.fcc = s.fcc) ∧ (i.isVt = false → t.vtd = s.vtd)

/-- The counter is sampled by an accepted `IRQ` and by `VT_CBRET` "and at no other time" (00_scope.md R10): any other command does
the same whatever the counter input carries. -/
def Obligations.OtherCommandsDoNotSampleTheCounter : Prop :=
  ∀ (s : State) (i : Instr) (c : Reg16), i ≠ .vtCbret →
    ∃ t : State, exec i s = .next t ∧ exec i { s with cnt := c } = .next { t with cnt := c }

/-- The armed flags (10_state.md R32, 41_vtd_commands.md R165 (e)): a flag is set only by the arm command of its timer; a flag of
SLOT or OFFSET is cleared only by `RESET`, by the timer's cancel command or when the timer fires, the PERIOD timer's never
by a fire; and a `FIRE` of SLOT or OFFSET leaves the flag 0. -/
def Obligations.ArmedFlagsFollowArmCancelAndFire : Prop :=
  ∀ s t : State, step s = .next t →
    let fires (i : Timer) : Prop := (s.offersIrq ∨ s.offersCommand .vtCbret) ∧ t.vtd.cur = i
    (s.vtd.slot.armed = false → t.vtd.slot.armed = true → ∃ v, s.offersCommand (.vtArmSlot v))
    ∧ (s.vtd.period.armed = false → t.vtd.period.armed = true → ∃ v, s.offersCommand (.vtArmPeriod v))
    ∧ (s.vtd.offset.armed = false → t.vtd.offset.armed = true → ∃ v, s.offersCommand (.vtArmOffset v))
    ∧ (s.vtd.slot.armed = true → t.vtd.slot.armed = false →
        s.offersReset ∨ s.offersCommand .vtCancelSlot ∨ fires .slot)
    ∧ (s.vtd.period.armed = true → t.vtd.period.armed = false → s.offersReset ∨ s.offersCommand .vtCancelPeriod)
    ∧ (s.vtd.offset.armed = true → t.vtd.offset.armed = false →
        s.offersReset ∨ s.offersCommand .vtCancelOffset ∨ fires .offset)
    ∧ ∃ o, t.outs = s.outs ++ o
        ∧ (∀ tag, Output.fire .slot tag ∈ o → t.vtd.slot.armed = false)
        ∧ ∀ tag, Output.fire .offset tag ∈ o → t.vtd.offset.armed = false
end

