-- ==== Sys2Proof/Laws/Decode.lean ====
section
/-! SUPPORT. The fields of an assembled word. -/

namespace Sys2Proof

/-- The bits of an assembled word (30_encoding.md R81). -/
theorem getLsbD_assemble (op a : BitVec 8) (b : BitVec 16) (k : Nat) :
    (assemble op a b).getLsbD k =
      if k < 16 then b.getLsbD k else if k - 16 < 8 then a.getLsbD (k - 16) else op.getLsbD (k - 16 - 8) := by
  show @BitVec.getLsbD (8 + 8 + 16) (op ++ a ++ b) k = _
  rw [BitVec.getLsbD_append, BitVec.getLsbD_append]

@[simp] theorem opField_assemble (op a : BitVec 8) (b : BitVec 16) : opField (assemble op a b) = op := by
  apply BitVec.eq_of_getLsbD_eq
  intro i hi
  rw [opField, BitVec.getLsbD_extractLsb', getLsbD_assemble, if_neg (by omega), if_neg (by omega),
    show 24 + i - 16 - 8 = i by omega]
  simp [hi]

@[simp] theorem aField_assemble (op a : BitVec 8) (b : BitVec 16) : aField (assemble op a b) = a := by
  apply BitVec.eq_of_getLsbD_eq
  intro i hi
  rw [aField, BitVec.getLsbD_extractLsb', getLsbD_assemble, if_neg (by omega), if_pos (by omega),
    show 16 + i - 16 = i by omega]
  simp [hi]

@[simp] theorem bField_assemble (op a : BitVec 8) (b : BitVec 16) : bField (assemble op a b) = b := by
  apply BitVec.eq_of_getLsbD_eq
  intro i hi
  rw [bField, BitVec.getLsbD_extractLsb', getLsbD_assemble, if_pos (by omega), Nat.zero_add]
  simp [hi]

/-- A word is its three fields put together (30_encoding.md R81). -/
theorem assemble_fields (w : Word32) : assemble (opField w) (aField w) (bField w) = w := by
  apply BitVec.eq_of_getLsbD_eq
  intro i hi
  rw [getLsbD_assemble]
  simp only [opField, aField, bField, BitVec.getLsbD_extractLsb']
  split_ifs with h h'
  · simp [h]
  · simp [h', show 16 + (i - 16) = i by omega]
  · simp [show 24 + (i - 16 - 8) = i by omega, show i - 16 - 8 < 8 by omega]

/-- A mask acts on each field. -/
theorem assemble_and (op a op' a' : BitVec 8) (b b' : BitVec 16) :
    assemble op a b &&& assemble op' a' b' = assemble (op &&& op') (a &&& a') (b &&& b') := by
  apply BitVec.eq_of_getLsbD_eq
  intro i hi
  simp only [BitVec.getLsbD_and, getLsbD_assemble]
  split_ifs <;> rfl

/-- Two assembled words are equal exactly when their fields are. -/
theorem assemble_inj {op a op' a' : BitVec 8} {b b' : BitVec 16} :
    assemble op a b = assemble op' a' b' ↔ op = op' ∧ a = a' ∧ b = b' := by
  constructor
  · intro h
    exact ⟨by simpa using congrArg opField h, by simpa using congrArg aField h, by simpa using congrArg bField h⟩
  · rintro ⟨rfl, rfl, rfl⟩
    rfl

end Sys2Proof
end

