-- ==== Sys2Proof/Laws/Memory.lean ====
section
/-! SUPPORT. The laws of the byte stores: a read after a write, and that every operation keeps the canonical form. -/

namespace Sys2Proof.Machine

@[simp] theorem Memory.read_nil (a : Nat) : Memory.read [] a = 0 := rfl

theorem Memory.wf_nil : Memory.wf [] := by simp [Memory.wf]

theorem Memory.wf_tail {c : Host.Cell} {m : Memory} (h : Memory.wf (c :: m)) : Memory.wf m :=
  ⟨(List.pairwise_cons.mp h.1).2, fun d hd => h.2 d (List.mem_cons_of_mem _ hd)⟩

/-- An index below every listed one reads as unlisted. -/
theorem Memory.read_below {m : Memory} {a : Nat} (h : ∀ c ∈ m, a < c.1) : Memory.read m a = 0 := by
  induction m with
  | nil => rfl
  | cons c m ih =>
    obtain ⟨b, w⟩ := c
    have hb : b ≠ a := by have := h (b, w) (List.mem_cons_self ..); simp at this; omega
    simp only [Memory.read, if_neg hb]
    exact ih fun d hd => h d (List.mem_cons_of_mem _ hd)

/-- A write leaves every other index alone, whatever the store's form. -/
theorem Memory.read_write_other (m : Memory) {a x : Nat} (v : Byte) (h : x ≠ a) :
    Memory.read (Memory.write m a v) x = Memory.read m x := by
  induction m with
  | nil =>
    simp only [Memory.write]
    split
    · rfl
    · simp [Memory.read, Ne.symm h]
  | cons c m ih =>
    obtain ⟨b, w⟩ := c
    simp only [Memory.write]
    split
    · split
      · rfl
      · simp [Memory.read, Ne.symm h]
    · split
      · rename_i hab
        subst hab
        split <;> simp [Memory.read, Ne.symm h]
      · simp [Memory.read, ih]

/-- A read after a write to the same index gives the value written. -/
theorem Memory.read_write_same {m : Memory} (hm : m.wf) (a : Nat) (v : Byte) :
    Memory.read (Memory.write m a v) a = v := by
  induction m with
  | nil =>
    simp only [Memory.write]
    split
    · next h => simp [h]
    · simp [Memory.read]
  | cons c m ih =>
    obtain ⟨b, w⟩ := c
    have hlt := (List.pairwise_cons.mp hm.1).1
    simp only [Memory.write]
    split
    · next hab =>
      split
      · next hv =>
        rw [hv]
        refine Memory.read_below fun d hd => ?_
        rcases List.mem_cons.mp hd with rfl | hd
        · exact hab
        · exact lt_trans hab (hlt d hd)
      · simp [Memory.read]
    · split
      · next hab =>
        subst hab
        split
        · next hv => rw [hv]; exact Memory.read_below hlt
        · simp [Memory.read]
      · next hne =>
        simp only [Memory.read, if_neg (Ne.symm hne)]
        exact ih (Memory.wf_tail hm)

/-- A write lists no index but the one written and those listed before. -/
theorem Memory.mem_write {m : Memory} {a : Nat} {v : Byte} {c : Host.Cell} (h : c ∈ Memory.write m a v) :
    (c = (a, v) ∧ v ≠ 0) ∨ c ∈ m := by
  induction m with
  | nil =>
    simp only [Memory.write] at h
    split at h
    · simp at h
    · next hv => exact .inl ⟨by simpa using h, hv⟩
  | cons d m ih =>
    obtain ⟨b, w⟩ := d
    simp only [Memory.write] at h
    split at h
    · split at h
      · exact .inr h
      · next hv =>
        rcases List.mem_cons.mp h with h | h
        · exact .inl ⟨h, hv⟩
        · exact .inr h
    · split at h
      · split at h
        · exact .inr (List.mem_cons_of_mem _ h)
        · next hv =>
          rcases List.mem_cons.mp h with h | h
          · exact .inl ⟨h, hv⟩
          · exact .inr (List.mem_cons_of_mem _ h)
      · rcases List.mem_cons.mp h with h | h
        · exact .inr (h ▸ List.mem_cons_self ..)
        · rcases ih h with h | h
          · exact .inl h
          · exact .inr (List.mem_cons_of_mem _ h)

/-- A write keeps the canonical form. -/
theorem Memory.write_wf {m : Memory} (hm : m.wf) (a : Nat) (v : Byte) : (Memory.write m a v).wf := by
  induction m with
  | nil =>
    simp only [Memory.write]
    split
    · exact Memory.wf_nil
    · next hv => simpa [Memory.wf] using hv
  | cons d m ih =>
    obtain ⟨b, w⟩ := d
    have hlt := (List.pairwise_cons.mp hm.1).1
    have htl := Memory.wf_tail hm
    simp only [Memory.write]
    split
    · next hab =>
      split
      · exact hm
      · next hv =>
        refine ⟨List.pairwise_cons.mpr ⟨fun c hc => ?_, hm.1⟩, fun c hc => ?_⟩
        · rcases List.mem_cons.mp hc with rfl | hc
          · exact hab
          · exact lt_trans hab (hlt c hc)
        · rcases List.mem_cons.mp hc with rfl | hc
          · exact hv
          · exact hm.2 c hc
    · split
      · next hab =>
        subst hab
        split
        · exact htl
        · next hv =>
          refine ⟨List.pairwise_cons.mpr ⟨hlt, htl.1⟩, fun c hc => ?_⟩
          rcases List.mem_cons.mp hc with rfl | hc
          · exact hv
          · exact htl.2 c hc
      · next hnlt hne =>
        refine ⟨List.pairwise_cons.mpr ⟨fun c hc => ?_, (ih htl).1⟩, fun c hc => ?_⟩
        · rcases Memory.mem_write hc with ⟨rfl, -⟩ | hc
          · show b < a; omega
          · exact hlt c hc
        · rcases List.mem_cons.mp hc with rfl | hc
          · exact hm.2 _ (List.mem_cons_self ..)
          · exact (ih htl).2 c hc

/-- A write to an index of the store keeps the listed indices within the store. -/
theorem Memory.write_inRange {m : Memory} (hm : m.inRange) {a : Nat} (ha : a < Config.maxLen) (v : Byte) :
    (Memory.write m a v).inRange := by
  intro c hc
  rcases Memory.mem_write hc with ⟨rfl, -⟩ | hc
  · exact ha
  · exact hm c hc

theorem Memory.writeFrom_wf {m : Memory} (hm : m.wf) (i : Nat) (l : List Byte) : (Memory.writeFrom m i l).wf := by
  induction l generalizing m i with
  | nil => exact hm
  | cons b l ih => exact ih (Memory.write_wf hm i b) (i + 1)

theorem Memory.writeFrom_inRange {m : Memory} (hm : m.inRange) {i : Nat} {l : List Byte}
    (h : i + l.length ≤ Config.maxLen) : (Memory.writeFrom m i l).inRange := by
  induction l generalizing m i with
  | nil => exact hm
  | cons b l ih =>
    simp only [List.length_cons] at h
    exact ih (Memory.write_inRange hm (by omega) b) (by omega)

/-- Indices outside the bytes written read as before. -/
theorem Memory.read_writeFrom_other (m : Memory) (i : Nat) (l : List Byte) {x : Nat}
    (h : x < i ∨ i + l.length ≤ x) : Memory.read (Memory.writeFrom m i l) x = Memory.read m x := by
  induction l generalizing m i with
  | nil => rfl
  | cons b l ih =>
    simp only [List.length_cons] at h
    simp only [Memory.writeFrom]
    rw [ih _ (i + 1) (by omega), Memory.read_write_other _ _ (by omega)]

/-- The bytes written read as the list. -/
theorem Memory.read_writeFrom_same {m : Memory} (hm : m.wf) (i : Nat) (l : List Byte) {j : Nat} (h : j < l.length) :
    Memory.read (Memory.writeFrom m i l) (i + j) = l.getD j 0 := by
  induction l generalizing m i j with
  | nil => simp at h
  | cons b l ih =>
    simp only [Memory.writeFrom]
    cases j with
    | zero =>
      rw [Memory.read_writeFrom_other _ _ _ (by omega)]
      simpa using Memory.read_write_same hm i b
    | succ j =>
      simp only [List.length_cons, Nat.add_lt_add_iff_right] at h
      have := ih (Memory.write_wf hm i b) (i + 1) h
      rw [show i + (j + 1) = i + 1 + j by omega, this]
      simp

@[simp] theorem Memory.prefixBytes_length (m : Memory) (n : Nat) : (Memory.prefixBytes m n).length = n := by
  simp [Memory.prefixBytes]

theorem Memory.prefixBytes_getD (m : Memory) {n j : Nat} (h : j < n) (d : Byte) :
    (Memory.prefixBytes m n).getD j d = Memory.read m j := by
  simp [Memory.prefixBytes, h]

/-- Two stores that read alike below `n` have the same first `n` bytes. -/
theorem Memory.prefixBytes_congr {m m' : Memory} {n : Nat} (h : ∀ j < n, Memory.read m j = Memory.read m' j) :
    Memory.prefixBytes m n = Memory.prefixBytes m' n := by
  simpa [Memory.prefixBytes] using h

/-- A list written from index 0 reads back as the prefix. -/
theorem Memory.prefixBytes_writeFrom {m : Memory} (hm : m.wf) (l : List Byte) :
    Memory.prefixBytes (Memory.writeFrom m 0 l) l.length = l := by
  refine List.ext_getElem (by simp) fun j h _ => ?_
  have hj : j < l.length := by simpa using h
  have := Memory.read_writeFrom_same hm 0 l hj
  simp only [Nat.zero_add] at this
  simp [Memory.prefixBytes, this, hj]

end Sys2Proof.Machine
end

