-- ==== Sys2Proof/Laws/State.lean ====
section
/-! SUPPORT. One lemma per field per named update of the state, true by rfl. -/

namespace Sys2Proof.Machine

/-! ### State.emit -/

@[simp] theorem State.emit_cfg (s : State) (o : Output) :
    (s.emit o).cfg = s.cfg := rfl

@[simp] theorem State.emit_fcc (s : State) (o : Output) :
    (s.emit o).fcc = s.fcc := rfl

@[simp] theorem State.emit_vtd (s : State) (o : Output) :
    (s.emit o).vtd = s.vtd := rfl

@[simp] theorem State.emit_cnt (s : State) (o : Output) :
    (s.emit o).cnt = s.cnt := rfl

@[simp] theorem State.emit_inputs (s : State) (o : Output) :
    (s.emit o).inputs = s.inputs := rfl

@[simp] theorem State.emit_outs (s : State) (o : Output) :
    (s.emit o).outs = s.outs ++ [o] := rfl

/-! ### State.respond -/

@[simp] theorem State.respond_cfg (s : State) (st : Status) (p : BitVec 28) :
    (s.respond st p).cfg = s.cfg := rfl

@[simp] theorem State.respond_fcc (s : State) (st : Status) (p : BitVec 28) :
    (s.respond st p).fcc = s.fcc := rfl

@[simp] theorem State.respond_vtd (s : State) (st : Status) (p : BitVec 28) :
    (s.respond st p).vtd = s.vtd := rfl

@[simp] theorem State.respond_cnt (s : State) (st : Status) (p : BitVec 28) :
    (s.respond st p).cnt = s.cnt := rfl

@[simp] theorem State.respond_inputs (s : State) (st : Status) (p : BitVec 28) :
    (s.respond st p).inputs = s.inputs := rfl

@[simp] theorem State.respond_outs (s : State) (st : Status) (p : BitVec 28) :
    (s.respond st p).outs = s.outs ++ [.resp (respWord st p)] := rfl

/-! ### State.setTimer -/

@[simp] theorem State.setTimer_cfg (s : State) (i : Timer) (t : LogicalTimer) :
    (s.setTimer i t).cfg = s.cfg := rfl

@[simp] theorem State.setTimer_fcc (s : State) (i : Timer) (t : LogicalTimer) :
    (s.setTimer i t).fcc = s.fcc := rfl

@[simp] theorem State.setTimer_vtd (s : State) (i : Timer) (t : LogicalTimer) :
    (s.setTimer i t).vtd = s.vtd.setTimer i t := rfl

@[simp] theorem State.setTimer_cnt (s : State) (i : Timer) (t : LogicalTimer) :
    (s.setTimer i t).cnt = s.cnt := rfl

@[simp] theorem State.setTimer_inputs (s : State) (i : Timer) (t : LogicalTimer) :
    (s.setTimer i t).inputs = s.inputs := rfl

@[simp] theorem State.setTimer_outs (s : State) (i : Timer) (t : LogicalTimer) :
    (s.setTimer i t).outs = s.outs := rfl

/-! ### State.take -/

@[simp] theorem State.take_cfg (s : State) (c : Reg16) (rest : List Input) :
    (s.take c rest).cfg = s.cfg := rfl

@[simp] theorem State.take_fcc (s : State) (c : Reg16) (rest : List Input) :
    (s.take c rest).fcc = s.fcc := rfl

@[simp] theorem State.take_vtd (s : State) (c : Reg16) (rest : List Input) :
    (s.take c rest).vtd = s.vtd := rfl

@[simp] theorem State.take_cnt (s : State) (c : Reg16) (rest : List Input) :
    (s.take c rest).cnt = c := rfl

@[simp] theorem State.take_inputs (s : State) (c : Reg16) (rest : List Input) :
    (s.take c rest).inputs = rest := rfl

@[simp] theorem State.take_outs (s : State) (c : Reg16) (rest : List Input) :
    (s.take c rest).outs = s.outs := rfl

/-! ### takeReset -/

@[simp] theorem takeReset_cfg (s : State) :
    (takeReset s).cfg = s.cfg := rfl

@[simp] theorem takeReset_fcc (s : State) :
    (takeReset s).fcc = Fcc.reset s.cfg.cacheDepth := rfl

@[simp] theorem takeReset_vtd (s : State) :
    (takeReset s).vtd = Vtd.reset := rfl

@[simp] theorem takeReset_cnt (s : State) :
    (takeReset s).cnt = s.cnt := rfl

@[simp] theorem takeReset_inputs (s : State) :
    (takeReset s).inputs = s.inputs := rfl

@[simp] theorem takeReset_outs (s : State) :
    (takeReset s).outs = s.outs := rfl

/-! ### answerIllegal -/

@[simp] theorem answerIllegal_cfg (s : State) :
    (answerIllegal s).cfg = s.cfg := rfl

@[simp] theorem answerIllegal_fcc (s : State) :
    (answerIllegal s).fcc = s.fcc := rfl

@[simp] theorem answerIllegal_vtd (s : State) :
    (answerIllegal s).vtd = s.vtd := rfl

@[simp] theorem answerIllegal_cnt (s : State) :
    (answerIllegal s).cnt = s.cnt := rfl

@[simp] theorem answerIllegal_inputs (s : State) :
    (answerIllegal s).inputs = s.inputs := rfl

@[simp] theorem answerIllegal_outs (s : State) :
    (answerIllegal s).outs = s.outs ++ [.resp (respWord .eIllegal 0)] := rfl

/-! ### fireBookkeeping -/

@[simp] theorem fireBookkeeping_cfg (i : Timer) (s : State) :
    (fireBookkeeping i s).cfg = s.cfg := rfl

@[simp] theorem fireBookkeeping_fcc (i : Timer) (s : State) :
    (fireBookkeeping i s).fcc = s.fcc := rfl

@[simp] theorem fireBookkeeping_vtd (i : Timer) (s : State) :
    (fireBookkeeping i s).vtd = s.vtd.fireBookkeeping i := rfl

@[simp] theorem fireBookkeeping_cnt (i : Timer) (s : State) :
    (fireBookkeeping i s).cnt = s.cnt := rfl

@[simp] theorem fireBookkeeping_inputs (i : Timer) (s : State) :
    (fireBookkeeping i s).inputs = s.inputs := rfl

@[simp] theorem fireBookkeeping_outs (i : Timer) (s : State) :
    (fireBookkeeping i s).outs = s.outs := rfl

/-! ### raiseFault -/

@[simp] theorem raiseFault_cfg (f : VtdFault) (s : State) :
    (raiseFault f s).cfg = s.cfg := rfl

@[simp] theorem raiseFault_fcc (f : VtdFault) (s : State) :
    (raiseFault f s).fcc = s.fcc := rfl

@[simp] theorem raiseFault_vtd (f : VtdFault) (s : State) :
    (raiseFault f s).vtd = { s.vtd with flt := s.vtd.flt ||| f.bit, phase := .faulted } := rfl

@[simp] theorem raiseFault_cnt (f : VtdFault) (s : State) :
    (raiseFault f s).cnt = s.cnt := rfl

@[simp] theorem raiseFault_inputs (f : VtdFault) (s : State) :
    (raiseFault f s).inputs = s.inputs := rfl

@[simp] theorem raiseFault_outs (f : VtdFault) (s : State) :
    (raiseFault f s).outs = s.outs := rfl

/-! ### Vtd.setTimer (the scheduler-wide registers) -/

@[simp] theorem Vtd.setTimer_prev (s : Vtd) (i : Timer) (t : LogicalTimer) :
    (s.setTimer i t).prev = s.prev := by cases i <;> rfl

@[simp] theorem Vtd.setTimer_now (s : Vtd) (i : Timer) (t : LogicalTimer) :
    (s.setTimer i t).now = s.now := by cases i <;> rfl

@[simp] theorem Vtd.setTimer_next (s : Vtd) (i : Timer) (t : LogicalTimer) :
    (s.setTimer i t).next = s.next := by cases i <;> rfl

@[simp] theorem Vtd.setTimer_nextv (s : Vtd) (i : Timer) (t : LogicalTimer) :
    (s.setTimer i t).nextv = s.nextv := by cases i <;> rfl

@[simp] theorem Vtd.setTimer_hwcmp (s : Vtd) (i : Timer) (t : LogicalTimer) :
    (s.setTimer i t).hwcmp = s.hwcmp := by cases i <;> rfl

@[simp] theorem Vtd.setTimer_hwie (s : Vtd) (i : Timer) (t : LogicalTimer) :
    (s.setTimer i t).hwie = s.hwie := by cases i <;> rfl

@[simp] theorem Vtd.setTimer_late (s : Vtd) (i : Timer) (t : LogicalTimer) :
    (s.setTimer i t).late = s.late := by cases i <;> rfl

@[simp] theorem Vtd.setTimer_phase (s : Vtd) (i : Timer) (t : LogicalTimer) :
    (s.setTimer i t).phase = s.phase := by cases i <;> rfl

@[simp] theorem Vtd.setTimer_cur (s : Vtd) (i : Timer) (t : LogicalTimer) :
    (s.setTimer i t).cur = s.cur := by cases i <;> rfl

@[simp] theorem Vtd.setTimer_tentry (s : Vtd) (i : Timer) (t : LogicalTimer) :
    (s.setTimer i t).tentry = s.tentry := by cases i <;> rfl

@[simp] theorem Vtd.setTimer_hdist (s : Vtd) (i : Timer) (t : LogicalTimer) :
    (s.setTimer i t).hdist = s.hdist := by cases i <;> rfl

@[simp] theorem Vtd.setTimer_flt (s : Vtd) (i : Timer) (t : LogicalTimer) :
    (s.setTimer i t).flt = s.flt := by cases i <;> rfl

/-! ### Vtd.program -/

@[simp] theorem Vtd.program_slot (s : Vtd) (i : Timer) :
    (s.program i).slot = s.slot := rfl

@[simp] theorem Vtd.program_period (s : Vtd) (i : Timer) :
    (s.program i).period = s.period := rfl

@[simp] theorem Vtd.program_offset (s : Vtd) (i : Timer) :
    (s.program i).offset = s.offset := rfl

@[simp] theorem Vtd.program_prev (s : Vtd) (i : Timer) :
    (s.program i).prev = s.prev := rfl

@[simp] theorem Vtd.program_now (s : Vtd) (i : Timer) :
    (s.program i).now = (s.timer i).cmp := rfl

@[simp] theorem Vtd.program_next (s : Vtd) (i : Timer) :
    (s.program i).next = i := rfl

@[simp] theorem Vtd.program_nextv (s : Vtd) (i : Timer) :
    (s.program i).nextv = true := rfl

@[simp] theorem Vtd.program_hwcmp (s : Vtd) (i : Timer) :
    (s.program i).hwcmp = (s.timer i).cmp := rfl

@[simp] theorem Vtd.program_hwie (s : Vtd) (i : Timer) :
    (s.program i).hwie = true := rfl

@[simp] theorem Vtd.program_late (s : Vtd) (i : Timer) :
    (s.program i).late = s.late := rfl

@[simp] theorem Vtd.program_phase (s : Vtd) (i : Timer) :
    (s.program i).phase = s.phase := rfl

@[simp] theorem Vtd.program_cur (s : Vtd) (i : Timer) :
    (s.program i).cur = s.cur := rfl

@[simp] theorem Vtd.program_tentry (s : Vtd) (i : Timer) :
    (s.program i).tentry = s.tentry := rfl

@[simp] theorem Vtd.program_hdist (s : Vtd) (i : Timer) :
    (s.program i).hdist = s.hdist := rfl

@[simp] theorem Vtd.program_flt (s : Vtd) (i : Timer) :
    (s.program i).flt = s.flt := rfl

/-! ### Vtd.fireBookkeeping (the registers it never writes) -/

@[simp] theorem Vtd.fireBookkeeping_now (s : Vtd) (i : Timer) :
    (s.fireBookkeeping i).now = s.now := by cases i <;> rfl

@[simp] theorem Vtd.fireBookkeeping_next (s : Vtd) (i : Timer) :
    (s.fireBookkeeping i).next = s.next := by cases i <;> rfl

@[simp] theorem Vtd.fireBookkeeping_nextv (s : Vtd) (i : Timer) :
    (s.fireBookkeeping i).nextv = s.nextv := by cases i <;> rfl

@[simp] theorem Vtd.fireBookkeeping_hwcmp (s : Vtd) (i : Timer) :
    (s.fireBookkeeping i).hwcmp = s.hwcmp := by cases i <;> rfl

@[simp] theorem Vtd.fireBookkeeping_hwie (s : Vtd) (i : Timer) :
    (s.fireBookkeeping i).hwie = s.hwie := by cases i <;> rfl

@[simp] theorem Vtd.fireBookkeeping_late (s : Vtd) (i : Timer) :
    (s.fireBookkeeping i).late = s.late := by cases i <;> rfl

@[simp] theorem Vtd.fireBookkeeping_phase (s : Vtd) (i : Timer) :
    (s.fireBookkeeping i).phase = s.phase := by cases i <;> rfl

@[simp] theorem Vtd.fireBookkeeping_cur (s : Vtd) (i : Timer) :
    (s.fireBookkeeping i).cur = s.cur := by cases i <;> rfl

@[simp] theorem Vtd.fireBookkeeping_tentry (s : Vtd) (i : Timer) :
    (s.fireBookkeeping i).tentry = s.tentry := by cases i <;> rfl

@[simp] theorem Vtd.fireBookkeeping_hdist (s : Vtd) (i : Timer) :
    (s.fireBookkeeping i).hdist = s.hdist := by cases i <;> rfl

@[simp] theorem Vtd.fireBookkeeping_flt (s : Vtd) (i : Timer) :
    (s.fireBookkeeping i).flt = s.flt := by cases i <;> rfl

/-! ### Reading a timer -/

@[simp] theorem Vtd.timer_slot (v : Vtd) : v.timer .slot = v.slot := rfl

@[simp] theorem Vtd.timer_period (v : Vtd) : v.timer .period = v.period := rfl

@[simp] theorem Vtd.timer_offset (v : Vtd) : v.timer .offset = v.offset := rfl

@[simp] theorem Vtd.setTimer_timer_same (v : Vtd) (i : Timer) (t : LogicalTimer) : (v.setTimer i t).timer i = t := by
  cases i <;> rfl

theorem Vtd.setTimer_timer_other (v : Vtd) {i j : Timer} (h : j ≠ i) (t : LogicalTimer) :
    (v.setTimer i t).timer j = v.timer j := by
  cases i <;> cases j <;> first | rfl | exact absurd rfl h

@[simp] theorem Vtd.program_timer (v : Vtd) (i j : Timer) : (v.program i).timer j = v.timer j := by
  cases j <;> rfl

/-- A fire changes no callback (41_vtd_commands.md R141). -/
@[simp] theorem Vtd.fireBookkeeping_timer_cb (v : Vtd) (i j : Timer) :
    ((v.fireBookkeeping i).timer j).cb = (v.timer j).cb := by
  cases i <;> cases j <;> rfl

@[simp] theorem Vtd.fireBookkeeping_timer_cbv (v : Vtd) (i j : Timer) :
    ((v.fireBookkeeping i).timer j).cbv = (v.timer j).cbv := by
  cases i <;> cases j <;> rfl

/-- A fire arms nothing (41_vtd_commands.md R141). -/
theorem Vtd.fireBookkeeping_armed (v : Vtd) (i j : Timer) :
    ((v.fireBookkeeping i).timer j).armed = true → (v.timer j).armed = true := by
  cases i <;> cases j <;> simp [Vtd.fireBookkeeping]

end Sys2Proof.Machine
end

