-- ==== Sys2Proof/Laws/Fcc.lean ====
section
/-! SUPPORT. What the procedures of `FC_VAL` can do, each said once, in the terms of Safety.lean. -/

namespace Sys2Proof.Machine

@[simp] theorem Fcc.frame_length (f : Fcc) (n : Nat) : (f.frame n).length = n := Memory.prefixBytes_length ..

@[simp] theorem CacheEntry.frame_length (c : CacheEntry) : c.frame.length = c.len.toNat := Memory.prefixBytes_length ..

theorem Fcc.frame_getD (f : Fcc) {n j : Nat} (h : j < n) : (f.frame n).getD j 0 = Memory.read f.rxbuf j :=
  Memory.prefixBytes_getD _ h 0

/-- Two byte lists of one length are equal when they agree at every index. -/
theorem bytes_ext {l l' : List Byte} (hl : l.length = l'.length) (h : ∀ j < l.length, l.getD j 0 = l'.getD j 0) :
    l = l' := by
  refine List.ext_getElem hl fun j h1 h2 => ?_
  have := h j h1
  rwa [List.getD_eq_getElem _ _ h1, List.getD_eq_getElem _ _ h2] at this

theorem bytes_getD_set (l : List Byte) (p j : Nat) (v : Byte) (hj : j < l.length) :
    (l.set p v).getD j 0 = if j = p then v else l.getD j 0 := by
  rw [List.getD_eq_getElem _ _ (by simpa using hj), List.getElem_set, List.getD_eq_getElem _ _ hj]
  simp only [eq_comm]

/-! ### The difference list (40_fcc_commands.md R103) -/

theorem mem_differences {c : CacheEntry} {n : List Byte} {j : Nat} :
    j ∈ differences c n ↔ j < n.length ∧ Memory.read c.data j ≠ n.getD j 0 := by
  simp [differences]

theorem differences_sorted (c : CacheEntry) (n : List Byte) : (differences c n).Pairwise (· < ·) :=
  List.Pairwise.filter _ List.pairwise_lt_range

/-- The difference list has exactly the two elements `p1`, `p2` when the entry and the frame differ exactly there. -/
theorem differences_eq_pair {c : CacheEntry} {n : List Byte} {p1 p2 : Nat} :
    differences c n = [p1, p2] ↔ c.DiffersAt n p1 p2 := by
  constructor
  · intro h
    have hs := differences_sorted c n
    have hm := fun j => mem_differences (c := c) (n := n) (j := j)
    rw [h] at hs hm
    simp only [List.pairwise_cons, List.mem_cons, List.not_mem_nil, or_false, forall_eq] at hs hm
    refine ⟨hs.1, ((hm p2).mp (.inr rfl)).1, fun j hj => ?_⟩
    have := hm j
    tauto
  · rintro ⟨hlt, hn, hd⟩
    have h1 : ∀ j, j ∈ differences c n ↔ j ∈ [p1, p2] := by
      intro j
      rw [mem_differences]
      simp only [List.mem_cons, List.not_mem_nil, or_false]
      constructor
      · rintro ⟨hj, hne⟩
        exact (hd j hj).mp hne
      · intro h
        have hj : j < n.length := by omega
        exact ⟨hj, (hd j hj).mpr h⟩
    have hs2 : [p1, p2].Pairwise (· < ·) := by simpa using hlt
    exact List.Perm.eq_of_pairwise (fun a b _ _ h h' => absurd h (by simp only [not_lt]; exact le_of_lt h'))
      (differences_sorted c n) hs2
      ((List.perm_ext_iff_of_nodup ((differences_sorted c n).imp fun h => ne_of_lt h)
        (hs2.imp fun h => ne_of_lt h)).mpr h1)

/-! ### The trials (40_fcc_commands.md R104) -/

@[simp] theorem trialFrame_length (c : CacheEntry) (n : List Byte) (p1 p2 : Nat) (k : BitVec 2) :
    (trialFrame c n p1 p2 k).length = n.length := by
  simp only [trialFrame]
  split_ifs <;> simp

theorem trialFrame_getD (c : CacheEntry) {n : List Byte} {p1 p2 : Nat} (hp : p1 < p2) (k : BitVec 2) {j : Nat}
    (hj : j < n.length) :
    (trialFrame c n p1 p2 k).getD j 0 =
      if (j = p1 ∧ k.getLsbD 0 = true) ∨ (j = p2 ∧ k.getLsbD 1 = true) then Memory.read c.data j else n.getD j 0 := by
  have hj1 : ∀ v, j < (n.set p1 v).length := fun v => by simpa using hj
  simp only [trialFrame]
  cases k.getLsbD 0 <;> cases k.getLsbD 1 <;> simp only [if_true, Bool.false_eq_true, if_false, and_true, and_false,
    or_false, false_or, bytes_getD_set _ _ _ _ hj, bytes_getD_set _ _ _ _ (hj1 _)]
  · split_ifs with h
    · rw [h]
    · rfl
  · split_ifs with h
    · rw [h]
    · rfl
  · by_cases h2 : j = p2
    · simp [h2]
    · by_cases h1 : j = p1
      · simp [h1, ne_of_lt hp]
      · simp [h1, h2]

theorem trialFrame_isTrial (c : CacheEntry) {n : List Byte} {p1 p2 : Nat} (hp : p1 < p2) (k : BitVec 2) :
    c.IsTrial n p1 p2 k (trialFrame c n p1 p2 k) :=
  ⟨by simp, fun _ hj => trialFrame_getD c hp k hj⟩

/-- R104 determines the trial frame. -/
theorem CacheEntry.IsTrial.eq {c : CacheEntry} {n t : List Byte} {p1 p2 : Nat} {k : BitVec 2} (hp : p1 < p2)
    (h : c.IsTrial n p1 p2 k t) : t = trialFrame c n p1 p2 k := by
  refine bytes_ext (by simp [h.1]) fun j hj => ?_
  rw [h.1] at hj
  rw [h.2 j hj, trialFrame_getD c hp k hj]

/-! ### The search (40_fcc_commands.md R103) -/

/-- One entry of the search: what an accepted trial is. -/
theorem tryEntry_eq_some {p : Params} {f : Fcc} {n : List Byte} {e : Nat} {a : Accepted} :
    tryEntry p f n e = some a ↔
      a.entry = e ∧ (f.entry e).valid = true ∧ (f.entry e).len.toNat = n.length
      ∧ (f.entry e).DiffersAt n a.p1 a.p2
      ∧ firstTrial p (f.entry e) n a.p1 a.p2 = some a.trial := by
  simp only [tryEntry]
  split
  · next h =>
    simp only [h, true_and]
    split
    · next p1 p2 hd =>
      simp only [Option.map_eq_some_iff]
      constructor
      · rintro ⟨k, hk, rfl⟩
        exact ⟨rfl, differences_eq_pair.mp hd, hk⟩
      · rintro ⟨rfl, hda, hk⟩
        have := hd.symm.trans (differences_eq_pair.mpr hda)
        simp only [List.cons.injEq, and_true] at this
        obtain ⟨rfl, rfl⟩ := this
        exact ⟨a.trial, hk, rfl⟩
    · next hd =>
      simp only [reduceCtorEq, false_iff, not_and]
      intro _ hda _
      exact hd _ _ (differences_eq_pair.mpr hda)
  · next h =>
    simp only [reduceCtorEq, false_iff, not_and]
    intro _ hv hl _
    exact absurd ⟨hv, hl⟩ h

/-- An entry is combinable exactly when the search accepts a trial at it. -/
theorem combinable_iff {p : Params} {f : Fcc} {n : List Byte} {e : Nat} :
    f.Combinable p n e ↔ e < p.cacheDepth ∧ (tryEntry p f n e).isSome := by
  constructor
  · rintro ⟨he, hv, hl, p1, p2, k, t, hd, hk, ht, hok⟩
    refine ⟨he, ?_⟩
    obtain ⟨k', hk'⟩ : ∃ k', firstTrial p (f.entry e) n p1 p2 = some k' := by
      refine Option.isSome_iff_exists.mp (List.find?_isSome.mpr ⟨k, hk, ?_⟩)
      rw [← ht.eq hd.1]
      exact hok
    exact Option.isSome_iff_exists.mpr
      ⟨{ entry := e, trial := k', p1 := p1, p2 := p2 }, tryEntry_eq_some.mpr ⟨rfl, hv, hl, hd, hk'⟩⟩
  · rintro ⟨he, hs⟩
    obtain ⟨a, ha⟩ := Option.isSome_iff_exists.mp hs
    obtain ⟨-, hv, hl, hd, hk⟩ := tryEntry_eq_some.mp ha
    exact ⟨he, hv, hl, a.p1, a.p2, a.trial, _, hd, List.mem_of_find?_eq_some hk, trialFrame_isTrial _ hd.1 _,
      by simpa using List.find?_some hk⟩

/-- The search fails exactly when no entry is combinable. -/
theorem searchCache_eq_none {p : Params} {f : Fcc} {n : List Byte} :
    searchCache p f n = none ↔ ∀ e, ¬ f.Combinable p n e := by
  simp [searchCache, List.findSome?_eq_none_iff, combinable_iff]

/-- What the search finds: the first combinable entry, and its first validating trial. -/
theorem searchCache_eq_some {p : Params} {f : Fcc} {n : List Byte} {a : Accepted} :
    searchCache p f n = some a ↔
      a.entry < p.cacheDepth ∧ tryEntry p f n a.entry = some a ∧ ∀ e < a.entry, ¬ f.Combinable p n e := by
  have key : ∀ (d k : Nat), (List.range' k d).findSome? (tryEntry p f n) = some a ↔
      k ≤ a.entry ∧ a.entry < k + d ∧ tryEntry p f n a.entry = some a
      ∧ ∀ e, k ≤ e → e < a.entry → tryEntry p f n e = none := by
    intro d
    induction d with
    | zero => intro k; simp; intro h1 h2; omega
    | succ d ih =>
      intro k
      rw [List.range'_succ, List.findSome?_cons]
      cases hk : tryEntry p f n k with
      | some b =>
        have hb := (tryEntry_eq_some.mp hk).1
        simp only [Option.some.injEq]
        constructor
        · rintro rfl
          exact ⟨by omega, by omega, by rw [hb]; exact hk, fun e _ _ => by omega⟩
        · rintro ⟨h1, h2, h3, h4⟩
          rcases Nat.lt_or_ge k a.entry with h | h
          · simp [h4 k (le_refl _) h] at hk
          · have : k = a.entry := by omega
            rw [← this, hk] at h3
            simpa using h3
      | none =>
        simp only [ih]
        constructor
        · rintro ⟨h1, h2, h3, h4⟩
          refine ⟨by omega, by omega, h3, fun e he he' => ?_⟩
          rcases Nat.eq_or_lt_of_le he with rfl | he
          · exact hk
          · exact h4 e he he'
        · rintro ⟨h1, h2, h3, h4⟩
          refine ⟨?_, by omega, h3, fun e he he' => h4 e (by omega) he'⟩
          rcases Nat.eq_or_lt_of_le h1 with h | h
          · rw [← h, hk] at h3; simp at h3
          · exact h
  rw [searchCache, List.range_eq_range', key]
  constructor
  · rintro ⟨-, h2, h3, h4⟩
    refine ⟨by omega, h3, fun e he hc => ?_⟩
    have := (combinable_iff.mp hc).2
    simp [h4 e (Nat.zero_le _) he] at this
  · rintro ⟨h2, h3, h4⟩
    refine ⟨Nat.zero_le _, by omega, h3, fun e _ he => ?_⟩
    by_contra hne
    exact h4 e he (combinable_iff.mpr ⟨by omega, Option.isSome_iff_ne_none.mpr hne⟩)

/-! ### Insertion and correction (40_fcc_commands.md R105, R106) -/

theorem Fcc.entry_eq_getElem {f : Fcc} {e : Nat} (h : e < f.cache.length) : f.entry e = f.cache[e] := by
  simp [Fcc.entry, h]

theorem Fcc.insert_entry_same {f : Fcc} (h : f.cwr < f.cache.length) (depth : Nat) (len : Byte) (n : List Byte) :
    (f.insert depth len n).entry f.cwr
      = { valid := true, len := len, data := Memory.writeFrom (f.entry f.cwr).data 0 n } := by
  simp [Fcc.insert, Fcc.entry, h]

theorem Fcc.insert_entry_other (f : Fcc) {e : Nat} (h : e ≠ f.cwr) (depth : Nat) (len : Byte) (n : List Byte) :
    (f.insert depth len n).entry e = f.entry e := by
  simp [Fcc.insert, Fcc.entry, List.getElem?_set_ne h.symm]

/-- After a correction the frame body in the receive buffer is the accepted trial. -/
theorem Fcc.correct_frame {f : Fcc} (hm : f.rxbuf.wf) {a : Accepted} {len : Nat}
    (hd : (f.entry a.entry).DiffersAt (f.frame len) a.p1 a.p2) :
    (f.correct (f.frame len) a).frame len = trialFrame (f.entry a.entry) (f.frame len) a.p1 a.p2 a.trial := by
  have hn : (f.frame len).length = len := by simp
  refine bytes_ext (by simp) fun j hj => ?_
  rw [Fcc.frame_length] at hj
  have ht := trialFrame_getD (f.entry a.entry) hd.1 a.trial (n := f.frame len) (j := j) (by omega)
  rw [Fcc.frame_getD _ hj]
  simp only [Fcc.correct]
  by_cases h2 : j = a.p2
  · subst h2
    rw [Memory.read_write_same (Memory.write_wf hm _ _)]
  · rw [Memory.read_write_other _ _ h2]
    by_cases h1 : j = a.p1
    · subst h1
      rw [Memory.read_write_same hm]
    · rw [Memory.read_write_other _ _ h1, ht, if_neg (by simp [h1, h2]), Fcc.frame_getD _ hj]

/-! ### `FC_VAL` -/

/-- Everything `FC_VAL` can do to the unit, by verdict (40_fcc_commands.md R106). -/
theorem Fcc.validate_cases (p : Params) (f : Fcc) (len : Byte) (hw : Bool) :
    (127 < len.toNat ∧ f.validate p len hw = f.verdict len .dropOversize)
    ∨ (len.toNat ≤ 127 ∧ ((p.crcMode = .hw ∧ hw = true) ∨ (p.crcMode = .sw ∧ crcOk p.frameCheck (f.frame len.toNat) = true))
        ∧ f.validate p len hw = f.verdict len .passDirect)
    ∨ (len.toNat ≤ 127 ∧ p.crcMode = .hw ∧ hw = false ∧ f.validate p len hw = f.verdict len .failNocache)
    ∨ (len.toNat ≤ 127 ∧ p.crcMode = .sw ∧ crcOk p.frameCheck (f.frame len.toNat) = false
        ∧ ∃ a, searchCache p f (f.frame len.toNat) = some a
          ∧ f.validate p len hw = (f.correct (f.frame len.toNat) a).verdictCombined len a)
    ∨ (len.toNat ≤ 127 ∧ p.crcMode = .sw ∧ crcOk p.frameCheck (f.frame len.toNat) = false
        ∧ searchCache p f (f.frame len.toNat) = none
        ∧ f.validate p len hw = (f.insert p.cacheDepth len (f.frame len.toNat)).verdict len .failCached) := by
  unfold Fcc.validate
  by_cases hL : 127 < len.toNat
  · simp [hL]
  · have hL' : len.toNat ≤ 127 := by omega
    simp only [if_neg hL]
    cases hm : p.crcMode with
    | hw => cases hw <;> simp [hL', hL]
    | sw =>
      cases hc : crcOk p.frameCheck (f.frame len.toNat) with
      | true => simp [hL', hL]
      | false =>
        cases hs : searchCache p f (f.frame len.toNat) with
        | some a => simp [hL', hL, Fcc.recover, hs]
        | none => simp [hL', hL, Fcc.recover, hs]

/-- `FC_VAL` always answers, with the new `FCRES` as its payload (30_encoding.md R86). -/
theorem execFcVal_eq (len : BitVec 8) (hw : Bool) (s : State) :
    execFcVal len hw s = .next { s with
      fcc := s.fcc.validate s.cfg len hw
      outs := s.outs ++ [.resp (respWord .ok ((s.fcc.validate s.cfg len hw).fcres.setWidth 28))] } := rfl

end Sys2Proof.Machine
end

