-- ==== Sys2Proof/Laws/Flags.lean ====
section
/-! SUPPORT. The packed words as numbers and by field, so that no proof takes a concatenation apart again. -/

namespace Sys2Proof.Machine

/-- A concatenation as a number. -/
theorem toNat_append_eq {m n : Nat} (x : BitVec m) (y : BitVec n) : (x ++ y).toNat = x.toNat * 2 ^ n + y.toNat := by
  rw [BitVec.toNat_append, ← Nat.shiftLeft_add_eq_or_of_lt y.isLt, Nat.shiftLeft_eq]

/-- A response word as a number (30_encoding.md R83). -/
theorem respWord_toNat (st : Status) (p : BitVec 28) :
    (respWord st p).toNat = st.code.toNat * 2 ^ 28 + p.toNat :=
  toNat_append_eq st.code p

/-- An `OK` response is its payload, zero-extended. -/
theorem respWord_ok_setWidth {n : Nat} (v : BitVec n) (h : n ≤ 28) :
    respWord .ok (v.setWidth 28) = v.setWidth 32 := by
  apply BitVec.eq_of_toNat_eq
  have h1 := v.isLt
  have h2 : 2 ^ n ≤ 2 ^ 28 := Nat.pow_le_pow_right (by decide) h
  have h3 : v.toNat < 2 ^ 28 := by omega
  rw [respWord_toNat, BitVec.toNat_setWidth, BitVec.toNat_setWidth, Nat.mod_eq_of_lt h3, Nat.mod_eq_of_lt (by omega)]
  simp [Status.code]

/-- The response of an arm or cancel command as a number: `(found << 16) + d` (41_vtd_commands.md R142). -/
theorem respWord_reschedule (found : Bool) (d : Reg16) :
    respWord .ok (reschedulePayload found d) = (if found then 0x00010000 else 0) + d.setWidth 32 := by
  apply BitVec.eq_of_toNat_eq
  have h : (reschedulePayload found d).toNat = (BitVec.ofBool found).toNat * 2 ^ 16 + d.toNat := by
    have h1 := toNat_append_eq (0#11 ++ BitVec.ofBool found) d
    have h2 := toNat_append_eq 0#11 (BitVec.ofBool found)
    rw [h2] at h1
    simpa [reschedulePayload] using h1
  have hd := d.isLt
  rw [respWord_toNat, h]
  cases found <;> simp [Status.code, BitVec.toNat_setWidth] <;> omega

/-- The response of a `VT_CBRET` that started a late fire (30_encoding.md R86). -/
theorem respWord_lateFire (g : Timer) :
    respWord .ok (lateFirePayload g) = (match g with | .slot => 1 | .period => 3 | .offset => 5) := by
  cases g <;> decide

/-- The status field of a response word. -/
theorem respWord_status (st : Status) (p : BitVec 28) : (respWord st p).extractLsb' 28 4 = st.code := by
  apply BitVec.eq_of_toNat_eq
  have hp := p.isLt
  have hc := st.code.isLt
  rw [BitVec.extractLsb'_toNat, respWord_toNat, Nat.shiftRight_eq_div_pow]
  omega

/-- `FCRES` as a number: `len * 256 + combo * 16 + verdict * 2 + crc_pass` (10_state.md R25). -/
theorem fcresWord_toNat (len : Byte) (combo : BitVec 2) (v : Verdict) :
    (fcresWord len combo v).toNat
      = len.toNat * 256 + combo.toNat * 16 + v.code.toNat * 2 + (BitVec.ofBool v.pass).toNat := by
  have h1 := toNat_append_eq (len ++ 0#2 ++ combo ++ v.code) (BitVec.ofBool v.pass)
  have h2 := toNat_append_eq (len ++ 0#2 ++ combo) v.code
  have h3 := toNat_append_eq (len ++ 0#2) combo
  have h4 := toNat_append_eq len 0#2
  have h : (fcresWord len combo v).toNat = (len ++ 0#2 ++ combo ++ v.code ++ BitVec.ofBool v.pass).toNat := rfl
  rw [h, h1, h2, h3, h4]
  simp only [BitVec.toNat_ofNat]
  ring

theorem Verdict.pass_toNat (v : Verdict) :
    (BitVec.ofBool v.pass).toNat = if v = .passDirect ∨ v = .passCombined then 1 else 0 := by
  cases v <;> decide

/-- The field `verdict` of a packed `FCRES`. -/
@[simp] theorem fcresVerdict_fcresWord (len : Byte) (combo : BitVec 2) (v : Verdict) :
    fcresVerdict (fcresWord len combo v) = v.code := by
  apply BitVec.eq_of_toNat_eq
  have hv := v.code.isLt
  have hp := (BitVec.ofBool v.pass).isLt
  rw [fcresVerdict, BitVec.extractLsb'_toNat, fcresWord_toNat, Nat.shiftRight_eq_div_pow]
  omega

/-- The field `crc_pass` of a packed `FCRES`. -/
@[simp] theorem fcresPass_fcresWord (len : Byte) (combo : BitVec 2) (v : Verdict) :
    fcresPass (fcresWord len combo v) = v.pass := by
  have h := fcresWord_toNat len combo v
  have hb : fcresPass (fcresWord len combo v) = decide ((fcresWord len combo v).toNat % 2 = 1) := by
    simp [fcresPass, BitVec.getLsbD, Nat.testBit_zero]
  rw [hb, h]
  cases v <;> simp [Verdict.code, Verdict.pass] <;> omega

/-- The field `len` of a packed `FCRES`. -/
@[simp] theorem fcresWord_len (len : Byte) (combo : BitVec 2) (v : Verdict) :
    (fcresWord len combo v).extractLsb' 8 8 = len := by
  apply BitVec.eq_of_toNat_eq
  have hl := len.isLt
  have hc := combo.isLt
  have hv := v.code.isLt
  have hp := (BitVec.ofBool v.pass).isLt
  rw [BitVec.extractLsb'_toNat, fcresWord_toNat, Nat.shiftRight_eq_div_pow]
  omega

/-- The two reserved bits of a packed `FCRES`. -/
@[simp] theorem fcresWord_reserved (len : Byte) (combo : BitVec 2) (v : Verdict) :
    (fcresWord len combo v).extractLsb' 6 2 = 0 := by
  apply BitVec.eq_of_toNat_eq
  have hc := combo.isLt
  have hv := v.code.isLt
  have hp := (BitVec.ofBool v.pass).isLt
  rw [BitVec.extractLsb'_toNat, fcresWord_toNat, Nat.shiftRight_eq_div_pow]
  show _ = 0
  omega

/-- The field `combo` of a packed `FCRES`. -/
@[simp] theorem fcresWord_combo (len : Byte) (combo : BitVec 2) (v : Verdict) :
    (fcresWord len combo v).extractLsb' 4 2 = combo := by
  apply BitVec.eq_of_toNat_eq
  have hc := combo.isLt
  have hv := v.code.isLt
  have hp := (BitVec.ofBool v.pass).isLt
  rw [BitVec.extractLsb'_toNat, fcresWord_toNat, Nat.shiftRight_eq_div_pow]
  omega

/-- `FCPOS` as a number, for positions of a frame. -/
theorem fcposWord_toNat {p1 p2 : Nat} (h1 : p1 < 128) (h2 : p2 < 128) : (fcposWord p1 p2).toNat = p2 * 256 + p1 := by
  simp only [fcposWord, BitVec.toNat_add, BitVec.toNat_shiftLeft, BitVec.toNat_ofNat, Nat.shiftLeft_eq]
  omega

end Sys2Proof.Machine
end

