-- ==== Sys2Proof/Laws/Ops.lean ====
section
/-! SUPPORT. For each shared operation one lemma that says once everything it can do; proofs cite these instead of
unfolding the operation. -/

namespace Sys2Proof.Machine

/-! ### `Reschedule()` -/

theorem Timer.eq_cases (i : Timer) : i = .slot ∨ i = .period ∨ i = .offset := by cases i <;> simp

/-- A property of every timer, one timer at a time. -/
theorem Timer.forall_iff {p : Timer → Prop} : (∀ i, p i) ↔ p .slot ∧ p .period ∧ p .offset :=
  ⟨fun h => ⟨h _, h _, h _⟩, fun h i => by cases i <;> [exact h.1; exact h.2.1; exact h.2.2]⟩

/-- What is known of the scan's best so far, the timers `l` having been looked at. -/
abbrev Vtd.IsBestOf (v : Vtd) (l : List Timer) : Nearest → Prop
  | none => ∀ j ∈ l, (v.timer j).armed = false
  | some (i, d) => i ∈ l ∧ (v.timer i).armed = true ∧ d = v.distance i
      ∧ ∀ j ∈ l, (v.timer j).armed = true → d ≤ v.distance j ∧ (d = v.distance j → i.code ≤ j.code)

/-- One turn of the scan, at a timer that comes after those looked at. -/
theorem scanTimer_best {v : Vtd} {l : List Timer} {best : Nearest} (h : v.IsBestOf l best) {i : Timer}
    (hi : ∀ j ∈ l, j.code ≤ i.code) : v.IsBestOf (l ++ [i]) (scanTimer v best i) := by
  unfold scanTimer
  split
  · next ha =>
    cases best with
    | none =>
      refine ⟨by simp, ha, rfl, fun j hj hja => ?_⟩
      rcases List.mem_append.mp hj with hj | hj
      · simp [h j hj] at hja
      · obtain rfl : j = i := by simpa using hj
        simp
    | some r =>
      obtain ⟨k, d⟩ := r
      obtain ⟨hk, hka, hd, hbest⟩ := h
      simp only
      split
      · next hlt =>
        refine ⟨by simp, ha, rfl, fun j hj hja => ?_⟩
        rcases List.mem_append.mp hj with hj | hj
        · have := (hbest j hj hja).1
          simp only [Vtd.distance] at *
          exact ⟨by bv_omega, fun he => by bv_omega⟩
        · obtain rfl : j = i := by simpa using hj
          simp
      · next hge =>
        refine ⟨List.mem_append_left _ hk, hka, hd, fun j hj hja => ?_⟩
        rcases List.mem_append.mp hj with hj | hj
        · exact hbest j hj hja
        · obtain rfl : j = i := by simpa using hj
          exact ⟨by simp only [Vtd.distance]; bv_omega, fun _ => hi k hk⟩
  · next ha =>
    cases best with
    | none =>
      intro j hj
      rcases List.mem_append.mp hj with hj | hj
      · exact h j hj
      · obtain rfl : j = i := by simpa using hj
        simpa using ha
    | some r =>
      obtain ⟨k, d⟩ := r
      obtain ⟨hk, hka, hd, hbest⟩ := h
      refine ⟨List.mem_append_left _ hk, hka, hd, fun j hj hja => ?_⟩
      rcases List.mem_append.mp hj with hj | hj
      · exact hbest j hj hja
      · obtain rfl : j = i := by simpa using hj
        exact absurd hja ha

/-- The whole scan. -/
theorem nearestTimer_best (v : Vtd) : v.IsBestOf [.slot, .period, .offset] (nearestTimer v) := by
  have h0 : v.IsBestOf [] none := by simp [Vtd.IsBestOf]
  have h1 := scanTimer_best h0 (i := .slot) (by simp)
  have h2 := scanTimer_best h1 (i := .period) (by simp [Timer.code])
  exact scanTimer_best h2 (i := .offset) (by simp [Timer.code])

/-- When the scan finds nothing, no timer is armed. -/
theorem nearestTimer_eq_none {v : Vtd} (h : nearestTimer v = none) (i : Timer) : (v.timer i).armed = false := by
  have := nearestTimer_best v
  rw [h] at this
  exact this i (by cases i <;> simp)

/-- What the scan finds is the nearest armed timer and its distance. -/
theorem nearestTimer_eq_some {v : Vtd} {i : Timer} {d : Reg16} (h : nearestTimer v = some (i, d)) :
    v.IsNearest i ∧ d = v.distance i := by
  have := nearestTimer_best v
  rw [h] at this
  obtain ⟨-, ha, rfl, hb⟩ := this
  exact ⟨⟨ha, fun j => hb j (by cases j <;> simp)⟩, rfl⟩

/-- Everything `Reschedule()` can do. -/
theorem reschedule_spec (s : State) :
    ∃ w o, s.vtd.ReschedulesTo w (reschedule s).found (reschedule s).dist o
      ∧ (reschedule s).state = { s with vtd := w, outs := s.outs ++ o } := by
  unfold reschedule
  cases h : nearestTimer s.vtd with
  | none => exact ⟨s.vtd, [], .inl ⟨nearestTimer_eq_none h, rfl, rfl, rfl, rfl⟩, by simp⟩
  | some r =>
    obtain ⟨i, d⟩ := r
    obtain ⟨hi, hd⟩ := nearestTimer_eq_some h
    exact ⟨s.vtd.program i, [.cmpwr (s.vtd.timer i).cmp], .inr ⟨i, hi, rfl, rfl, hd, rfl⟩, rfl⟩

/-- The end of an arm or cancel command: the reschedule, then its result as the response. -/
theorem rescheduleAndRespond_spec (s : State) :
    ∃ w found d o, s.vtd.ReschedulesTo w found d o
      ∧ rescheduleAndRespond s
        = { s with vtd := w, outs := s.outs ++ o ++ [.resp (respWord .ok (reschedulePayload found d))] } := by
  obtain ⟨w, o, h, hs⟩ := reschedule_spec s
  exact ⟨w, _, _, o, h, by simp [rescheduleAndRespond, hs, State.respond, State.emit]⟩

/-- The handler's reschedule: the same, and the distance kept in `hdist`. -/
theorem handlerReschedule_spec (s : State) :
    ∃ w found d o, s.vtd.ReschedulesTo w found d o
      ∧ handlerReschedule s = { s with vtd := { w with hdist := d }, outs := s.outs ++ o } := by
  obtain ⟨w, o, h, hs⟩ := reschedule_spec s
  exact ⟨w, _, _, o, h, by simp [handlerReschedule, hs]⟩

/-- The two outcomes of a reschedule, with the named update of the model. -/
theorem Vtd.ReschedulesTo.cases {v w : Vtd} {found : Bool} {d : Reg16} {o : List Output}
    (h : v.ReschedulesTo w found d o) :
    ((∀ i, (v.timer i).armed = false) ∧ w = v ∧ found = false ∧ d = 0xFFFF ∧ o = [])
    ∨ ∃ i, v.IsNearest i ∧ w = v.program i ∧ found = true ∧ d = v.distance i ∧ o = [.cmpwr (v.timer i).cmp] :=
  h

theorem Timer.code_le_antisymm {i j : Timer} (h : i.code ≤ j.code) (h' : j.code ≤ i.code) : i = j := by
  cases i <;> cases j <;> simp_all [Timer.code]

/-- At most one timer is the nearest. -/
theorem Vtd.IsNearest.unique {v : Vtd} {i j : Timer} (hi : v.IsNearest i) (hj : v.IsNearest j) : i = j := by
  have h := hi.2 j hj.1
  have h' := hj.2 i hi.1
  have he : v.distance i = v.distance j := by
    have h1 := h.1
    have h2 := h'.1
    simp only [Vtd.distance] at *
    bv_omega
  exact Timer.code_le_antisymm (h.2 he) (h'.2 he.symm)

/-- After a reschedule the selected timer is the nearest, at distance 0 (R140 (a)). -/
theorem Vtd.IsNearest.program {v : Vtd} {i : Timer} (h : v.IsNearest i) : (v.program i).IsNearest i := by
  refine ⟨by simpa using h.1, fun j hj => ?_⟩
  rw [Vtd.program_timer] at hj
  have := h.2 j hj
  simp only [Vtd.distance, Vtd.program_timer, Vtd.program_now] at this ⊢
  exact ⟨by bv_omega, fun he => this.2 (by bv_omega)⟩

/-- A reschedule writes `hwcmp`, `hwie`, `now`, `next`, `nextv` and nothing else. -/
theorem Vtd.ReschedulesTo.frame {v w : Vtd} {found : Bool} {d : Reg16} {o : List Output}
    (h : v.ReschedulesTo w found d o) :
    w = { v with hwcmp := w.hwcmp, hwie := w.hwie, now := w.now, next := w.next, nextv := w.nextv } := by
  rcases h with ⟨-, rfl, -⟩ | ⟨i, -, rfl, -⟩ <;> rfl

/-- A reschedule leaves the timers' own registers alone. -/
theorem Vtd.ReschedulesTo.timer {v w : Vtd} {found : Bool} {d : Reg16} {o : List Output}
    (h : v.ReschedulesTo w found d o) (j : Timer) : w.timer j = v.timer j := by
  rw [h.frame]
  cases j <;> rfl

/-- A reschedule that emits nothing does nothing; one that programs the compare register moves everything R140 names. -/
theorem Vtd.ReschedulesTo.emits {v w : Vtd} {found : Bool} {d : Reg16} {o : List Output}
    (h : v.ReschedulesTo w found d o) :
    (o = [] ∧ w = v)
    ∨ ∃ x, o = [.cmpwr x] ∧ w.now = x ∧ w.hwcmp = x ∧ w.hwie = true ∧ w.nextv = true ∧ (w.timer w.next).cmp = x := by
  rcases h.cases with ⟨-, rfl, -, -, rfl⟩ | ⟨i, -, rfl, -, -, rfl⟩
  · exact .inl ⟨rfl, rfl⟩
  · exact .inr ⟨_, rfl, rfl, rfl, rfl, rfl, by rw [Vtd.program_timer]; rfl⟩

/-- A reschedule finds a timer exactly when one is armed. -/
theorem Vtd.ReschedulesTo.found_iff {v w : Vtd} {found : Bool} {d : Reg16} {o : List Output}
    (h : v.ReschedulesTo w found d o) : found = true ↔ ∃ i, (v.timer i).armed = true := by
  rcases h with ⟨hn, -, rfl, -⟩ | ⟨i, hi, -, rfl, -⟩
  · simp [hn]
  · exact ⟨fun _ => ⟨i, hi.1⟩, fun _ => rfl⟩

/-! ### Firing -/

theorem Vtd.fireBookkeeping_bookkeeps (v : Vtd) (i : Timer) : v.BookkeepsTo (v.fireBookkeeping i) i := by
  cases i <;> simp [Vtd.BookkeepsTo, Vtd.fireBookkeeping]

theorem emitFire_assigned {s : State} {i : Timer} (h : (s.vtd.timer i).cbv = true) (ph : Phase) :
    emitFire i ph s
      = { s with vtd := { s.vtd with cur := i, phase := ph }, outs := s.outs ++ [.fire i (s.vtd.timer i).cb] } := by
  simp [emitFire, h, State.emit]

theorem emitFire_unassigned {s : State} {i : Timer} (h : (s.vtd.timer i).cbv = false) (ph : Phase) :
    emitFire i ph s = { s with vtd := { s.vtd with cur := i, flt := s.vtd.flt ||| 2, phase := .faulted } } := by
  simp [emitFire, h, raiseFault, VtdFault.bit]

/-- A late fire of a timer with a callback. -/
theorem lateFire_assigned {s : State} (h : (s.vtd.timer s.vtd.next).cbv = true) :
    lateFire s =
      { s with
        vtd := { s.vtd.fireBookkeeping s.vtd.next with cur := s.vtd.next, phase := .cbLate }
        outs := s.outs ++ [.fire s.vtd.next (s.vtd.timer s.vtd.next).cb]
          ++ [.resp (respWord .ok (lateFirePayload s.vtd.next))] } := by
  have h' : ((fireBookkeeping s.vtd.next s).vtd.timer s.vtd.next).cbv = true := by simp [h]
  simp [lateFire, emitFire_assigned h', State.respond, State.emit]

/-- A late fire of a timer without a callback. -/
theorem lateFire_unassigned {s : State} (h : (s.vtd.timer s.vtd.next).cbv = false) :
    lateFire s =
      { s with
        vtd := { s.vtd.fireBookkeeping s.vtd.next with
                  cur := s.vtd.next, flt := s.vtd.flt ||| 2, phase := .faulted }
        outs := s.outs ++ [.resp (respWord .faultNow 0)] } := by
  have h' : ((fireBookkeeping s.vtd.next s).vtd.timer s.vtd.next).cbv = false := by simp [h]
  simp [lateFire, emitFire_unassigned h', State.respond, State.emit]

/-- The catch-up test that holds. -/
theorem catchUp_late {s : State} (h : s.vtd.hdist < dist16 s.cnt s.vtd.tentry) : catchUp s = lateFire s :=
  if_pos h

/-- The catch-up test that does not hold: the handler ends. -/
theorem catchUp_ends {s : State} (h : ¬ s.vtd.hdist < dist16 s.cnt s.vtd.tentry) :
    catchUp s = { s with vtd := { s.vtd with phase := .idle }, outs := s.outs ++ [.resp (respWord .ok 0)] } := by
  simp only [catchUp, if_neg h]
  rfl

/-- The first part of `VT_CBRET`, by phase. -/
theorem countLateReturn_spec (s : State) :
    (s.vtd.phase ≠ .cbLate ∧ countLateReturn s = s)
    ∨ (s.vtd.phase = .cbLate ∧ ∃ w found d o,
        ({ s.vtd with late := s.vtd.late + 1 } : Vtd).ReschedulesTo w found d o
        ∧ countLateReturn s = { s with vtd := { w with hdist := d }, outs := s.outs ++ o }) := by
  unfold countLateReturn
  split
  · next h => exact .inr ⟨h, handlerReschedule_spec { s with vtd := { s.vtd with late := inc16 s.vtd.late } }⟩
  · next h => exact .inl ⟨h, rfl⟩

/-- Handler entry with `next` unwritten. -/
theorem enterHandler_unset {s : State} (h : s.vtd.nextv = false) :
    enterHandler s =
      { s with vtd := { s.vtd with tentry := s.cnt, flt := s.vtd.flt ||| 1, phase := .faulted } } := by
  simp [enterHandler, h, raiseFault, VtdFault.bit]

/-- Handler entry with `next` written: bookkeeping, reschedule, then the fire. -/
theorem enterHandler_set {s : State} (h : s.vtd.nextv = true) :
    ∃ w found d o,
      (({ s.vtd with tentry := s.cnt } : Vtd).fireBookkeeping s.vtd.next).ReschedulesTo w found d o
      ∧ enterHandler s = emitFire s.vtd.next .cbFirst { s with vtd := { w with hdist := d }, outs := s.outs ++ o } := by
  obtain ⟨w, found, d, o, hr, hs⟩ :=
    handlerReschedule_spec (fireBookkeeping s.vtd.next { s with vtd := { s.vtd with tentry := s.cnt } })
  exact ⟨w, found, d, o, hr, by rw [enterHandler, if_pos h, hs]; rfl⟩

/-! ### Inputs -/

theorem step_reset {s : State} {c : Reg16} {rest : List Input} (h : s.inputs = ⟨.reset, c⟩ :: rest) :
    step s = .next (takeReset (s.take c rest)) := by
  simp [step, h]

theorem step_irq {s : State} {c : Reg16} {rest : List Input} (h : s.inputs = ⟨.irq, c⟩ :: rest) :
    step s = .next (takeIrq (s.take c rest)) := by
  simp [step, h]

theorem step_cmd {s : State} {w : Word32} {c : Reg16} {rest : List Input} (h : s.inputs = ⟨.cmd w, c⟩ :: rest) :
    step s = takeCommand w (s.take c rest) := by
  simp [step, h]

theorem takeCommand_ok {w : Word32} {i : Instr} (h : decode w = .ok i) (s : State) : takeCommand w s = exec i s := by
  simp [takeCommand, h]

theorem takeCommand_error {w : Word32} {e : DecodeError} (h : decode w = .error e) (s : State) :
    takeCommand w s = .next (answerIllegal s) := by
  simp [takeCommand, h]

theorem unlessFaulted_of_faulted {s : State} (h : s.vtd.phase = .faulted) (r : State) :
    unlessFaulted s r = .next (s.respond .eFaulted 0) :=
  if_pos h

theorem unlessFaulted_of_not {s : State} (h : s.vtd.phase ≠ .faulted) (r : State) : unlessFaulted s r = .next r :=
  if_neg h

end Sys2Proof.Machine
end

