-- ==== Sys2Proof/Laws/PerInstr.lean ====
section
/-! SUPPORT. Statements about every instruction as syntax, one lemma per constructor. -/

namespace Sys2Proof.Laws

/-- The command word of an instruction matches the row of its mnemonic in the opcode map of 30_encoding.md R85: under the
row's mask its bits are the row's, so every reserved bit is 0 and no operand reaches a bit that is not its own. -/
def MatchesRow.Statement (i : Instr) : Prop :=
  ∃ row ∈ opcodeMap, row.mnemonic = i.mnemonic ∧ encode i &&& row.mask = row.value

/-- A row whose mask and match are given by field. -/
theorem matchesRow_of_fields {i : Instr} {row : OpcodeRow} {op a opm am : BitVec 8} {b bm : BitVec 16}
    (hrow : row ∈ opcodeMap) (hm : row.mnemonic = i.mnemonic) (he : encode i = assemble op a b)
    (hmask : row.mask = assemble opm am bm)
    (hval : row.value = assemble (op &&& opm) (a &&& am) (b &&& bm)) : MatchesRow.Statement i :=
  ⟨row, hrow, hm, by rw [he, hmask, assemble_and, hval]⟩

theorem MatchesRow.rdreg (rn : BitVec 8) : MatchesRow.Statement (.rdreg rn) :=
  matchesRow_of_fields (row := ⟨"RDREG", 0x02000000, 0xFF00FFFF⟩) (opm := 0xFF) (am := 0) (bm := 0xFFFF)
    (by decide) rfl rfl (by decide) (by simp; decide)

theorem MatchesRow.fcLd (idx d : BitVec 8) : MatchesRow.Statement (.fcLd idx d) :=
  matchesRow_of_fields (row := ⟨"FC_LD", 0x10000000, 0xFF00FF00⟩) (opm := 0xFF) (am := 0) (bm := 0xFF00)
    (by decide) rfl rfl (by decide)
    (by
      have h : (0#8 ++ d) &&& (0xFF00 : BitVec 16) = 0 := by
        show (0#8 ++ d) &&& (0xFF#8 ++ 0#8) = 0#8 ++ 0#8
        rw [BitVec.and_append]; simp
      rw [h]; simp; decide)

theorem MatchesRow.fcRd (idx : BitVec 8) : MatchesRow.Statement (.fcRd idx) :=
  matchesRow_of_fields (row := ⟨"FC_RD", 0x11000000, 0xFF00FFFF⟩) (opm := 0xFF) (am := 0) (bm := 0xFFFF)
    (by decide) rfl rfl (by decide) (by simp; decide)

theorem MatchesRow.fcVal (len : BitVec 8) (hw : Bool) : MatchesRow.Statement (.fcVal len hw) :=
  matchesRow_of_fields (row := ⟨"FC_VAL", 0x12000000, 0xFF00FFFE⟩) (opm := 0xFF) (am := 0) (bm := 0xFFFE)
    (by decide) rfl rfl (by decide) (by cases hw <;> simp <;> decide)

theorem MatchesRow.vtSetcbSlot (tag : BitVec 16) : MatchesRow.Statement (.vtSetcbSlot tag) :=
  matchesRow_of_fields (row := ⟨"VT_SETCB_SLOT", 0x20000000, 0xFFFF0000⟩) (opm := 0xFF) (am := 0xFF) (bm := 0)
    (by decide) rfl rfl (by decide) (by simp; decide)

theorem MatchesRow.vtSetcbPeriod (tag : BitVec 16) : MatchesRow.Statement (.vtSetcbPeriod tag) :=
  matchesRow_of_fields (row := ⟨"VT_SETCB_PERIOD", 0x21000000, 0xFFFF0000⟩) (opm := 0xFF) (am := 0xFF) (bm := 0)
    (by decide) rfl rfl (by decide) (by simp; decide)

theorem MatchesRow.vtSetcbOffset (tag : BitVec 16) : MatchesRow.Statement (.vtSetcbOffset tag) :=
  matchesRow_of_fields (row := ⟨"VT_SETCB_OFFSET", 0x22000000, 0xFFFF0000⟩) (opm := 0xFF) (am := 0xFF) (bm := 0)
    (by decide) rfl rfl (by decide) (by simp; decide)

theorem MatchesRow.vtArmSlot (v : BitVec 16) : MatchesRow.Statement (.vtArmSlot v) :=
  matchesRow_of_fields (row := ⟨"VT_ARM_SLOT", 0x24000000, 0xFFFF0000⟩) (opm := 0xFF) (am := 0xFF) (bm := 0)
    (by decide) rfl rfl (by decide) (by simp; decide)

theorem MatchesRow.vtArmPeriod (v : BitVec 16) : MatchesRow.Statement (.vtArmPeriod v) :=
  matchesRow_of_fields (row := ⟨"VT_ARM_PERIOD", 0x25000000, 0xFFFF0000⟩) (opm := 0xFF) (am := 0xFF) (bm := 0)
    (by decide) rfl rfl (by decide) (by simp; decide)

theorem MatchesRow.vtArmOffset (v : BitVec 16) : MatchesRow.Statement (.vtArmOffset v) :=
  matchesRow_of_fields (row := ⟨"VT_ARM_OFFSET", 0x26000000, 0xFFFF0000⟩) (opm := 0xFF) (am := 0xFF) (bm := 0)
    (by decide) rfl rfl (by decide) (by simp; decide)

theorem MatchesRow.vtCancelSlot : MatchesRow.Statement .vtCancelSlot := by
  exact ⟨⟨"VT_CANCEL_SLOT", 0x28000000, 0xFFFFFFFF⟩, by decide, rfl, by decide⟩

theorem MatchesRow.vtCancelPeriod : MatchesRow.Statement .vtCancelPeriod := by
  exact ⟨⟨"VT_CANCEL_PERIOD", 0x29000000, 0xFFFFFFFF⟩, by decide, rfl, by decide⟩

theorem MatchesRow.vtCancelOffset : MatchesRow.Statement .vtCancelOffset := by
  exact ⟨⟨"VT_CANCEL_OFFSET", 0x2A000000, 0xFFFFFFFF⟩, by decide, rfl, by decide⟩

theorem MatchesRow.vtCbret : MatchesRow.Statement .vtCbret := by
  exact ⟨⟨"VT_CBRET", 0x2C000000, 0xFFFFFFFF⟩, by decide, rfl, by decide⟩

end Sys2Proof.Laws
end

