-- ==== Sys2Proof/Laws/Step.lean ====
section
/-! SUPPORT. For each kind of transition one lemma that says once everything it can do to the machine; proofs about every
step go through these. -/

namespace Sys2Proof.Machine

/-- A number is read exactly when the table of 10_state.md R45 populates it. -/
theorem readRegister_isSome (s : State) (rn : BitVec 8) :
    (readRegister s rn).isSome = isRegisterNumber s.cfg.cacheDepth rn := by
  unfold readRegister isRegisterNumber
  split
  all_goals first
    | (rename_i h; simp only [h]; rfl)
    | skip
  rename_i h0 h1 h2 h3 h4 h5 h6 h7 h8 h9 h10 h11 h12 h13 h14 h15 h16 h17 h18 h19 h20
  have hc : [0x00, 0x01, 0x02, 0x03, 0x10, 0x11, 0x12, 0x14, 0x15, 0x16, 0x18, 0x19, 0x1A, 0x1C, 0x1D, 0x1E, 0x1F, 0x20,
    0x21, 0x22, 0x23].contains rn.toNat = false := by
    rw [List.contains_eq_mem, decide_eq_false_iff_not]
    simp only [List.mem_cons, List.not_mem_nil, or_false, not_or]
    refine ⟨?_, ?_, ?_, ?_, ?_, ?_, ?_, ?_, ?_, ?_, ?_, ?_, ?_, ?_, ?_, ?_, ?_, ?_, ?_, ?_, ?_⟩ <;> assumption
  rw [hc, Bool.false_or]
  split <;> simp_all

/-- Everything a command of the FCC unit, or `RDREG`, can do: it leaves the VTD unit alone and answers `OK` or `E_RANGE`. -/
theorem exec_fcc_cases {i : Instr} (hi : i.isVt = false) (s : State) :
    ∃ f st p, (st = .ok ∨ st = .eRange)
      ∧ exec i s = .next { s with fcc := f, outs := s.outs ++ [.resp (respWord st p)] } := by
  cases i with
  | rdreg rn =>
    simp only [exec, execRdreg]
    cases readRegister s rn with
    | some v => exact ⟨s.fcc, .ok, _, .inl rfl, rfl⟩
    | none => exact ⟨s.fcc, .eRange, _, .inr rfl, rfl⟩
  | fcLd idx d =>
    simp only [exec, execFcLd]
    split
    · exact ⟨_, .ok, _, .inl rfl, rfl⟩
    · exact ⟨s.fcc, .eRange, _, .inr rfl, rfl⟩
  | fcRd idx =>
    simp only [exec, execFcRd]
    split
    · exact ⟨s.fcc, .ok, _, .inl rfl, rfl⟩
    · exact ⟨s.fcc, .eRange, _, .inr rfl, rfl⟩
  | fcVal len hw => exact ⟨_, .ok, _, .inl rfl, execFcVal_eq len hw s⟩
  | _ => simp [Instr.isVt] at hi

/-- The command that assigns the callback of a timer (41_vtd_commands.md R131 to R133). -/
def Timer.setCommand : Timer → Reg16 → Instr
  | .slot => .vtSetcbSlot
  | .period => .vtSetcbPeriod
  | .offset => .vtSetcbOffset

/-- The command that arms a timer (41_vtd_commands.md R142 to R144). -/
def Timer.armCommand : Timer → Reg16 → Instr
  | .slot => .vtArmSlot
  | .period => .vtArmPeriod
  | .offset => .vtArmOffset

/-- The command that cancels a timer (41_vtd_commands.md R150 to R152). -/
def Timer.cancelCommand : Timer → Instr
  | .slot => .vtCancelSlot
  | .period => .vtCancelPeriod
  | .offset => .vtCancelOffset

/-- The value an arm command counts from (41_vtd_commands.md R142 to R144). -/
def Vtd.armBase (v : Vtd) : Timer → Reg16
  | .slot => v.slot.cmp
  | .period => v.period.cmp
  | .offset => v.prev

/-- What the `VT_*` command `i`, not `VT_CBRET`, does to a unit not in `FAULTED`: it is one of the three commands of one
timer `j`. -/
abbrev Vtd.CommandedTo (v : Vtd) (i : Instr) (w : Vtd) (o : List Output) : Prop :=
  ∃ j,
    (∃ tag, i = j.setCommand tag ∧ w = v.setTimer j { v.timer j with cb := tag, cbv := true } ∧ o = [])
    ∨ (∃ x, i = j.armCommand x ∧ ∃ found d,
        (v.setTimer j { v.timer j with cmp := v.armBase j + x, dly := x, armed := true }).ReschedulesTo w found d o)
    ∨ (i = j.cancelCommand ∧ ∃ found d,
        (v.setTimer j { v.timer j with armed := false, dly := 0 }).ReschedulesTo w found d o)

theorem armTimer_cases (j : Timer) (x : Reg16) (s : State) :
    ∃ w o p, s.vtd.CommandedTo (j.armCommand x) w o
      ∧ armTimer j (s.vtd.armBase j) x s
        = { s with vtd := w, outs := s.outs ++ o ++ [.resp (respWord .ok p)] } := by
  obtain ⟨w, f, d, o, h, hs⟩ := rescheduleAndRespond_spec
    (s.setTimer j { s.vtd.timer j with cmp := add16 (s.vtd.armBase j) x, dly := x, armed := true })
  exact ⟨w, o, _, ⟨j, .inr (.inl ⟨x, rfl, f, d, h⟩)⟩, by rw [armTimer, hs]; rfl⟩

theorem cancelTimer_cases (j : Timer) (s : State) :
    ∃ w o p, s.vtd.CommandedTo j.cancelCommand w o
      ∧ cancelTimer j s = { s with vtd := w, outs := s.outs ++ o ++ [.resp (respWord .ok p)] } := by
  obtain ⟨w, f, d, o, h, hs⟩ :=
    rescheduleAndRespond_spec (s.setTimer j { s.vtd.timer j with armed := false, dly := 0 })
  exact ⟨w, o, _, ⟨j, .inr (.inr ⟨rfl, f, d, h⟩)⟩, by rw [cancelTimer, hs]; rfl⟩

theorem setCallback_cases (j : Timer) (tag : Reg16) (s : State) :
    ∃ w o p, s.vtd.CommandedTo (j.setCommand tag) w o
      ∧ setCallback j tag s = { s with vtd := w, outs := s.outs ++ o ++ [.resp (respWord .ok p)] } :=
  ⟨_, [], 0, ⟨j, .inl ⟨tag, rfl, rfl, rfl⟩⟩, by simp [setCallback, State.respond, State.emit, State.setTimer]⟩

/-- In `FAULTED` every `VT_*` command only answers `E_FAULTED` (30_encoding.md R88 (2)). -/
theorem exec_vt_faulted {i : Instr} (hi : i.isVt = true) {s : State} (h : s.vtd.phase = .faulted) :
    exec i s = .next { s with outs := s.outs ++ [.resp (respWord .eFaulted 0)] } := by
  cases i <;> first | (simp [Instr.isVt] at hi; done) | exact unlessFaulted_of_faulted h _

/-- Everything a `VT_*` command other than `VT_CBRET` can do, outside `FAULTED`. -/
theorem exec_command_cases {i : Instr} (hi : i.isVt = true) (hc : i ≠ .vtCbret) {s : State}
    (h : s.vtd.phase ≠ .faulted) :
    ∃ w o p, s.vtd.CommandedTo i w o
      ∧ exec i s = .next { s with vtd := w, outs := s.outs ++ o ++ [.resp (respWord .ok p)] } := by
  have key : ∀ r : State, (∃ w o p, s.vtd.CommandedTo i w o
        ∧ r = { s with vtd := w, outs := s.outs ++ o ++ [.resp (respWord .ok p)] }) →
      ∃ w o p, s.vtd.CommandedTo i w o
        ∧ unlessFaulted s r = .next { s with vtd := w, outs := s.outs ++ o ++ [.resp (respWord .ok p)] } := by
    rintro r ⟨w, o, p, hm, rfl⟩
    exact ⟨w, o, p, hm, unlessFaulted_of_not h _⟩
  cases i with
  | vtSetcbSlot tag => exact key _ (setCallback_cases .slot tag s)
  | vtSetcbPeriod tag => exact key _ (setCallback_cases .period tag s)
  | vtSetcbOffset tag => exact key _ (setCallback_cases .offset tag s)
  | vtArmSlot v => exact key _ (armTimer_cases .slot v s)
  | vtArmPeriod v => exact key _ (armTimer_cases .period v s)
  | vtArmOffset v => exact key _ (armTimer_cases .offset v s)
  | vtCancelSlot => exact key _ (cancelTimer_cases .slot s)
  | vtCancelPeriod => exact key _ (cancelTimer_cases .period s)
  | vtCancelOffset => exact key _ (cancelTimer_cases .offset s)
  | vtCbret => exact absurd rfl hc
  | _ => simp [Instr.isVt] at hi

theorem exec_cbret_idle {s : State} (h : s.vtd.phase = .idle) :
    exec .vtCbret s = .next { s with outs := s.outs ++ [.resp (respWord .ePhase 0)] } := by
  simp [exec, execVtCbret, unlessFaulted, h, State.respond, State.emit]

theorem exec_cbret_open {s : State} (h : s.vtd.phase = .cbFirst ∨ s.vtd.phase = .cbLate) :
    exec .vtCbret s = .next (callbackReturn s) := by
  rcases h with h | h <;> simp [exec, execVtCbret, unlessFaulted, h]

/-- What the first part of `VT_CBRET` does to the unit: nothing after the first callback; the count, the reschedule and the
new distance after a late one. -/
abbrev Vtd.CountsTo (v w : Vtd) (o : List Output) : Prop :=
  (v.phase ≠ .cbLate ∧ w = v ∧ o = [])
  ∨ (v.phase = .cbLate ∧ ∃ x found d,
      ({ v with late := v.late + 1 } : Vtd).ReschedulesTo x found d o ∧ w = { x with hdist := d })

/-- What the first part of `VT_CBRET` leaves alone, and the late counter. -/
theorem Vtd.CountsTo.frame {v w : Vtd} {o : List Output} (h : v.CountsTo w o) :
    w.prev = v.prev ∧ w.phase = v.phase ∧ w.tentry = v.tentry ∧ w.cur = v.cur ∧ w.flt = v.flt
    ∧ w.late = (if v.phase = .cbLate then v.late + 1 else v.late) ∧ ∀ j, w.timer j = v.timer j := by
  rcases h with ⟨h, rfl, -⟩ | ⟨h, x, f, d, hr, rfl⟩
  · simp [h]
  · have ht : ∀ j, Vtd.timer { x with hdist := d } j = v.timer j := fun j =>
      Eq.trans (by cases j <;> rfl) ((hr.timer j).trans (by cases j <;> rfl))
    refine ⟨?_, ?_, ?_, ?_, ?_, ?_, ht⟩ <;> (rw [hr.frame]; try simp [h])

/-- What the catch-up test and what follows it do to the unit, at counter sample `c`: the handler ends, or the timer `next`
names fires late, or it has no callback. -/
abbrev Vtd.CatchesUpTo (v w : Vtd) (c : Reg16) (o : List Output) (st : Status) : Prop :=
  (¬ v.hdist < c - v.tentry ∧ w = { v with phase := .idle } ∧ o = [] ∧ st = .ok)
  ∨ (v.hdist < c - v.tentry ∧ (v.timer v.next).cbv = true
      ∧ w = { v.fireBookkeeping v.next with cur := v.next, phase := .cbLate }
      ∧ o = [.fire v.next (v.timer v.next).cb] ∧ st = .ok)
  ∨ (v.hdist < c - v.tentry ∧ (v.timer v.next).cbv = false
      ∧ w = { v.fireBookkeeping v.next with cur := v.next, flt := v.flt ||| 2, phase := .faulted }
      ∧ o = [] ∧ st = .faultNow)

/-- Everything the return of a callback can do. -/
theorem callbackReturn_cases (s : State) :
    ∃ v w o o' st p, s.vtd.CountsTo v o ∧ v.CatchesUpTo w s.cnt o' st
      ∧ callbackReturn s = { s with vtd := w, outs := s.outs ++ o ++ o' ++ [.resp (respWord st p)] } := by
  obtain ⟨v, o, hv, hs⟩ :
      ∃ v o, s.vtd.CountsTo v o ∧ countLateReturn s = { s with vtd := v, outs := s.outs ++ o } := by
    rcases countLateReturn_spec s with ⟨hp, he⟩ | ⟨hp, w, f, d, o, hr, he⟩
    · exact ⟨s.vtd, [], .inl ⟨hp, rfl, rfl⟩, by simpa using he⟩
    · exact ⟨_, o, .inr ⟨hp, w, f, d, hr, rfl⟩, he⟩
  rw [callbackReturn, hs]
  by_cases hd : v.hdist < s.cnt - v.tentry
  · cases hb : (v.timer v.next).cbv with
    | true =>
      exact ⟨v, _, o, [.fire v.next (v.timer v.next).cb], .ok, _, hv, .inr (.inl ⟨hd, hb, rfl, rfl, rfl⟩), by
        rw [catchUp_late hd, lateFire_assigned hb]⟩
    | false =>
      exact ⟨v, _, o, [], .faultNow, 0, hv, .inr (.inr ⟨hd, hb, rfl, rfl, rfl⟩), by
        rw [catchUp_late hd, lateFire_unassigned hb]; simp⟩
  · exact ⟨v, _, o, [], .ok, 0, hv, .inl ⟨hd, rfl, rfl, rfl⟩, by rw [catchUp_ends hd]; simp⟩

/-- What an `IRQ` with sample `c` does to the unit (60_exceptions.md R171, R172, R182, R183). -/
abbrev Vtd.InterruptsTo (v w : Vtd) (c : Reg16) (o : List Output) : Prop :=
  (v.phase ≠ .idle ∧ w = v ∧ o = [])
  ∨ (v.phase = .idle ∧ v.nextv = false
      ∧ w = { v with tentry := c, flt := v.flt ||| 1, phase := .faulted } ∧ o = [])
  ∨ (v.phase = .idle ∧ v.nextv = true ∧ ∃ x found d o',
      (({ v with tentry := c } : Vtd).fireBookkeeping v.next).ReschedulesTo x found d o'
      ∧ (((v.timer v.next).cbv = true ∧ w = { x with hdist := d, cur := v.next, phase := .cbFirst }
            ∧ o = o' ++ [.fire v.next (v.timer v.next).cb])
          ∨ ((v.timer v.next).cbv = false
            ∧ w = { x with hdist := d, cur := v.next, flt := v.flt ||| 2, phase := .faulted } ∧ o = o')))

/-- Everything an `IRQ` can do. -/
theorem takeIrq_cases (s : State) :
    ∃ w o, s.vtd.InterruptsTo w s.cnt o ∧ takeIrq s = { s with vtd := w, outs := s.outs ++ o } := by
  unfold takeIrq
  split
  · next hp =>
    cases hn : s.vtd.nextv with
    | false => exact ⟨_, [], .inr (.inl ⟨hp, hn, rfl, rfl⟩), by rw [enterHandler_unset hn]; simp⟩
    | true =>
      obtain ⟨x, f, d, o, hr, he⟩ := enterHandler_set hn
      have hx : ∀ j, (x.timer j).cb = (s.vtd.timer j).cb ∧ (x.timer j).cbv = (s.vtd.timer j).cbv := by
        intro j
        have ht : x.timer j = (({ s.vtd with tentry := s.cnt } : Vtd).fireBookkeeping s.vtd.next).timer j := by
          rw [hr.frame]; cases j <;> rfl
        rw [ht]
        constructor
        · rw [Vtd.fireBookkeeping_timer_cb]; cases j <;> rfl
        · rw [Vtd.fireBookkeeping_timer_cbv]; cases j <;> rfl
      have hy : ∀ j, Vtd.timer { x with hdist := d } j = x.timer j := fun j => by cases j <;> rfl
      have hf : x.flt = s.vtd.flt := by rw [hr.frame]; simp
      cases hb : (s.vtd.timer s.vtd.next).cbv with
      | true =>
        refine ⟨_, _, .inr (.inr ⟨hp, hn, x, f, d, o, hr, .inl ⟨hb, rfl, rfl⟩⟩), ?_⟩
        rw [he, emitFire_assigned (by simp [hy, hx, hb])]
        simp [hy, hx]
      | false =>
        refine ⟨_, _, .inr (.inr ⟨hp, hn, x, f, d, o, hr, .inr ⟨hb, rfl, rfl⟩⟩), ?_⟩
        rw [he, emitFire_unassigned (by simp [hy, hx, hb])]
        simp [hf]
  · next hp => exact ⟨s.vtd, [], .inl ⟨hp, rfl, rfl⟩, by simp⟩

/-- What the command `i` does to units `f` and `v` at counter sample `c`, as the VTD unit sees it: an `FC_*` command,
`RDREG` and a command turned away leave it alone; the others as said above. -/
abbrev CommandDoes (i : Instr) (f : Fcc) (v : Vtd) (c : Reg16) (f' : Fcc) (w : Vtd) (o : List Output) (st : Status) : Prop :=
  (w = v ∧ o = [] ∧ (i = .vtCbret → v.phase = .idle ∨ v.phase = .faulted) ∧ (i.isVt = true → f' = f))
  ∨ (i.isVt = true ∧ i ≠ .vtCbret ∧ v.phase ≠ .faulted ∧ f' = f ∧ v.CommandedTo i w o ∧ st = .ok)
  ∨ (i = .vtCbret ∧ (v.phase = .cbFirst ∨ v.phase = .cbLate) ∧ f' = f
      ∧ ∃ x o1 o2, v.CountsTo x o1 ∧ x.CatchesUpTo w c o2 st ∧ o = o1 ++ o2)

/-- Everything a command can do, with the VTD unit's part spelled out. -/
theorem exec_cases (i : Instr) (s : State) :
    ∃ f w o st p, CommandDoes i s.fcc s.vtd s.cnt f w o st
      ∧ exec i s = .next { s with fcc := f, vtd := w, outs := s.outs ++ o ++ [.resp (respWord st p)] } := by
  cases hi : i.isVt with
  | false =>
    obtain ⟨f, st, p, -, he⟩ := exec_fcc_cases hi s
    exact ⟨f, s.vtd, [], st, p,
      .inl ⟨rfl, rfl, fun h => by rw [h] at hi; simp [Instr.isVt] at hi, fun h => by simp [hi] at h⟩, by simpa using he⟩
  | true =>
    by_cases hf : s.vtd.phase = .faulted
    · exact ⟨s.fcc, s.vtd, [], _, _, .inl ⟨rfl, rfl, fun _ => .inr hf, fun _ => rfl⟩, by
        simpa using exec_vt_faulted hi hf⟩
    · by_cases hc : i = .vtCbret
      · subst hc
        obtain ⟨v, w, o1, o2, st, p, hv, hw, he⟩ := callbackReturn_cases s
        have hopen : ∀ h : s.vtd.phase = .cbFirst ∨ s.vtd.phase = .cbLate,
            exec .vtCbret s
              = .next { s with vtd := w, outs := s.outs ++ (o1 ++ o2) ++ [.resp (respWord st p)] } := fun h => by
          rw [exec_cbret_open h, he, List.append_assoc s.outs o1 o2]
        cases hp : s.vtd.phase with
        | idle =>
          exact ⟨s.fcc, s.vtd, [], _, _, .inl ⟨rfl, rfl, fun _ => .inl hp, fun _ => rfl⟩, by
            simpa using exec_cbret_idle hp⟩
        | cbFirst =>
          exact ⟨s.fcc, w, o1 ++ o2, st, p, .inr (.inr ⟨rfl, .inl hp, rfl, v, o1, o2, hv, hw, rfl⟩), hopen (.inl hp)⟩
        | cbLate =>
          exact ⟨s.fcc, w, o1 ++ o2, st, p, .inr (.inr ⟨rfl, .inr hp, rfl, v, o1, o2, hv, hw, rfl⟩), hopen (.inr hp)⟩
        | faulted => exact absurd hp hf
      · obtain ⟨w, o, p, hm, he⟩ := exec_command_cases hi hc hf
        exact ⟨s.fcc, w, o, .ok, p, .inr (.inl ⟨hi, hc, hf, rfl, hm, rfl⟩), he⟩

/-- Every command answers: `exec` never stops. -/
theorem exec_next (i : Instr) (s : State) : ∃ t, exec i s = .next t := by
  obtain ⟨f, w, o, st, p, -, he⟩ := exec_cases i s
  exact ⟨_, he⟩

/-- Every step goes on, and is one of: waiting, `RESET`, an `IRQ`, an illegal word, a command. -/
theorem step_cases {s t : State} (h : step s = .next t) :
    (s.inputs = [] ∧ t = s)
    ∨ (∃ c rest, s.inputs = ⟨.reset, c⟩ :: rest ∧ t = takeReset (s.take c rest))
    ∨ (∃ c rest w o, s.inputs = ⟨.irq, c⟩ :: rest ∧ s.vtd.InterruptsTo w c o
        ∧ t = { s with inputs := rest, cnt := c, vtd := w, outs := s.outs ++ o })
    ∨ (∃ u c rest e, s.inputs = ⟨.cmd u, c⟩ :: rest ∧ decode u = .error e
        ∧ t = { s with inputs := rest, cnt := c, outs := s.outs ++ [.resp (respWord .eIllegal 0)] })
    ∨ (∃ u c rest i f w o st p, s.inputs = ⟨.cmd u, c⟩ :: rest ∧ decode u = .ok i
        ∧ CommandDoes i s.fcc s.vtd c f w o st
        ∧ t = { s with
                inputs := rest, cnt := c, fcc := f, vtd := w
                outs := s.outs ++ o ++ [.resp (respWord st p)] }) := by
  rcases hin : s.inputs with _ | ⟨⟨ev, c⟩, rest⟩
  · left
    simp only [step, hin, Host.Outcome.next.injEq] at h
    exact ⟨rfl, h.symm⟩
  · right
    cases ev with
    | reset =>
      rw [step_reset hin, Host.Outcome.next.injEq] at h
      exact .inl ⟨c, rest, rfl, h.symm⟩
    | irq =>
      rw [step_irq hin, Host.Outcome.next.injEq] at h
      obtain ⟨w, o, hw, he⟩ := takeIrq_cases (s.take c rest)
      exact .inr (.inl ⟨c, rest, w, o, rfl, hw, h.symm.trans he⟩)
    | cmd u =>
      rw [step_cmd hin] at h
      cases hd : decode u with
      | ok i =>
        obtain ⟨f, w, o, st, p, hm, he⟩ := exec_cases i (s.take c rest)
        rw [takeCommand_ok hd, he, Host.Outcome.next.injEq] at h
        exact .inr (.inr (.inr ⟨u, c, rest, i, f, w, o, st, p, rfl, hd, hm, h.symm⟩))
      | error e =>
        rw [takeCommand_error hd, Host.Outcome.next.injEq] at h
        exact .inr (.inr (.inl ⟨u, c, rest, e, rfl, hd, h.symm⟩))

/-- What a command does to the FCC unit: `FC_LD` writes one byte, `FC_VAL` validates, every other leaves it alone. -/
theorem exec_fcc_unit {i : Instr} {s t : State} (h : exec i s = .next t) :
    t.cfg = s.cfg
    ∧ (t.fcc = s.fcc
      ∨ (∃ idx d, i = .fcLd idx d ∧ idx.toNat < Config.maxLen
          ∧ t.fcc = { s.fcc with rxbuf := Memory.write s.fcc.rxbuf idx.toNat d })
      ∨ ∃ len hw, i = .fcVal len hw ∧ t.fcc = s.fcc.validate s.cfg len hw) := by
  obtain ⟨f, w, o, st, p, hm, he⟩ := exec_cases i s
  rw [he, Host.Outcome.next.injEq] at h
  refine ⟨by rw [← h], ?_⟩
  cases hi : i.isVt with
  | true =>
    have : f = s.fcc := by
      rcases hm with ⟨-, -, -, hf⟩ | ⟨-, -, -, hf, -⟩ | ⟨-, -, hf, -⟩
      · exact hf hi
      · exact hf
      · exact hf
    exact .inl (by rw [← h, ← this])
  | false =>
    rw [h] at he
    cases i with
    | rdreg rn =>
      simp only [exec, execRdreg] at he
      split at he <;> exact .inl (by rw [← Host.Outcome.next.inj he]; rfl)
    | fcLd idx d =>
      simp only [exec, execFcLd, isBufferIndex, decide_eq_true_eq] at he
      split at he
      · next hb => exact .inr (.inl ⟨idx, d, rfl, hb, by rw [← Host.Outcome.next.inj he]; rfl⟩)
      · exact .inl (by rw [← Host.Outcome.next.inj he]; rfl)
    | fcRd idx =>
      simp only [exec, execFcRd] at he
      split at he <;> exact .inl (by rw [← Host.Outcome.next.inj he]; rfl)
    | fcVal len hw => exact .inr (.inr ⟨len, hw, rfl, by rw [← Host.Outcome.next.inj he]; rfl⟩)
    | _ => simp [Instr.isVt] at hi

/-- What a step does to the FCC unit. -/
theorem step_fcc_unit {s t : State} (h : step s = .next t) :
    t.cfg = s.cfg
    ∧ (t.fcc = s.fcc
      ∨ (s.offersReset ∧ t.fcc = Fcc.reset s.cfg.cacheDepth)
      ∨ (∃ idx d, s.offersCommand (.fcLd idx d) ∧ idx.toNat < Config.maxLen
          ∧ t.fcc = { s.fcc with rxbuf := Memory.write s.fcc.rxbuf idx.toNat d })
      ∨ ∃ len hw, s.offersCommand (.fcVal len hw) ∧ t.fcc = s.fcc.validate s.cfg len hw) := by
  rcases hin : s.inputs with _ | ⟨⟨ev, c⟩, rest⟩
  · simp only [step, hin, Host.Outcome.next.injEq] at h
    exact ⟨by rw [h], .inl (by rw [h])⟩
  · cases ev with
    | reset =>
      rw [step_reset hin, Host.Outcome.next.injEq] at h
      exact ⟨by rw [← h]; rfl, .inr (.inl ⟨⟨c, rest, hin⟩, by rw [← h]; rfl⟩)⟩
    | irq =>
      rw [step_irq hin, Host.Outcome.next.injEq] at h
      obtain ⟨w, o, -, he⟩ := takeIrq_cases (s.take c rest)
      rw [he] at h
      exact ⟨by rw [← h]; rfl, .inl (by rw [← h]; rfl)⟩
    | cmd u =>
      rw [step_cmd hin] at h
      cases hd : decode u with
      | error e =>
        rw [takeCommand_error hd, Host.Outcome.next.injEq] at h
        exact ⟨by rw [← h]; rfl, .inl (by rw [← h]; rfl)⟩
      | ok i =>
        rw [takeCommand_ok hd] at h
        obtain ⟨hc, hf⟩ := exec_fcc_unit h
        refine ⟨hc, ?_⟩
        rcases hf with hf | ⟨idx, d, rfl, hb, hf⟩ | ⟨len, hw, rfl, hf⟩
        · exact .inl hf
        · exact .inr (.inr (.inl ⟨idx, d, ⟨u, c, rest, hin, hd⟩, hb, hf⟩))
        · exact .inr (.inr (.inr ⟨len, hw, ⟨u, c, rest, hin, hd⟩, hf⟩))

end Sys2Proof.Machine
end

