-- ==== Sys2Proof/Tests/Slice0.lean ====
section
/-! SUPPORT. The model's own tests: ill-formed terms refused, words written out from 30_encoding.md decoded, the spec's
vectors (95_test_vectors.md, named in each docstring) as single steps, and for every obligation with hypotheses a
concrete case that meets them. -/

namespace Sys2Proof.Tests

open Sys2Proof Sys2Proof.Machine

set_option Elab.async false

/-! ### Small states -/

/-- The state a command leaves. -/
def after (i : Instr) (s : State) : State :=
  match exec i s with
  | .next t => t
  | .fault _ => s
  | .refused _ => s

/-- The state a step leaves. -/
def stepped (s : State) : State :=
  match step s with
  | .next t => t
  | .fault _ => s
  | .refused _ => s

/-- The state with one input offered. -/
def offer (e : Event) (c : Reg16) (s : State) : State := { s with inputs := [⟨e, c⟩] }

/-- The frames `G`, `A`, `B` of 95_test_vectors.md section 2.1. -/
def frameG : List Byte := [0x01, 0x02, 0x03, 0x04, 0x05, 0x9B, 0xED]
def frameA : List Byte := [0x01, 0xAA, 0x03, 0x04, 0x05, 0x9B, 0xED]
def frameB : List Byte := [0x01, 0x02, 0x03, 0x55, 0x05, 0x9B, 0xED]

/-- The frame of V10. -/
def frameX : List Byte := [0x01, 0xBB, 0x03, 0x04, 0x66, 0x9B, 0xED]

/-- After reset, a frame loaded. -/
def loaded (p : Params) (f : List Byte) : State :=
  let s := State.resetWith p
  { s with fcc := { s.fcc with rxbuf := Memory.writeFrom [] 0 f } }

/-- One frame cached (V5), another loaded. -/
def cachedThen (old new : List Byte) : State :=
  let s := loaded Params.default new
  { s with fcc := { s.fcc with cache := [⟨true, 7, Memory.writeFrom [] 0 old⟩] } }

/-- The parameters of a machine whose hardware computes the check. -/
def hwParams : Params := { Params.default with crcMode := .hw }

/-- Program P3 before its `IRQ`: SLOT at 10, PERIOD at 12, both with callbacks. -/
def armedTwo : State :=
  let s := State.reset
  { s with
    vtd := { s.vtd with
              slot := ⟨true, 10, 0xA0, true, 10⟩, period := ⟨true, 12, 0xA1, true, 12⟩
              now := 10, hwcmp := 10, hwie := true, next := .slot, nextv := true } }

/-- Program P3 after its `IRQ`, the counter input at `c`. -/
def firstOpen (c : Reg16) : State :=
  { armedTwo with
    cnt := c
    vtd := { armedTwo.vtd with
              slot := ⟨false, 10, 0xA0, true, 10⟩, now := 12, hwcmp := 12, next := .period
              phase := .cbFirst, cur := .slot, tentry := 10, hdist := 2 } }

/-- Program P3 after its first `VT_CBRET`, the counter input at `c`. -/
def lateOpen (c : Reg16) : State :=
  { firstOpen c with
    vtd := { (firstOpen c).vtd with
              period := ⟨true, 24, 0xA1, true, 12⟩, prev := 12, phase := .cbLate, cur := .period } }

/-- The same state with the PERIOD timer's callback not assigned. -/
def noPeriodCallback (s : State) : State :=
  { s with vtd := { s.vtd with period := { s.vtd.period with cbv := false } } }

/-- A state in `FAULTED` (V28). -/
def faultedState : State :=
  let s := State.reset
  { s with vtd := { s.vtd with phase := .faulted, flt := 2, hwie := true, nextv := true } }

/-- A PERIOD timer of period 0 fired late (V33), the counter input at `c`. -/
def periodZero (c : Reg16) : State :=
  let s := State.reset
  { s with
    cnt := c
    vtd := { s.vtd with
              period := ⟨true, 0, 0xA1, true, 0⟩, hwie := true, next := .period, nextv := true
              phase := .cbLate, cur := .period, tentry := 5 } }

/-! ### WellFormed: an ill-formed term for each check -/

theorem test_wf_rdreg_hole : (Instr.rdreg 0x04).wellFormed 1 = false := by decide
theorem test_wf_rdreg_cache : (Instr.rdreg 0x41).wellFormed 1 = false ∧ (Instr.rdreg 0x41).wellFormed 2 = true := by decide
theorem test_wf_fcLd : (Instr.fcLd 127 0).wellFormed 1 = false ∧ (Instr.fcLd 126 0).wellFormed 1 = true := by decide
theorem test_wf_fcRd : (Instr.fcRd 127).wellFormed 1 = false ∧ (Instr.fcRd 126).wellFormed 1 = true := by decide

/-! ### Decoding: words written out bit by bit, `op a b` (R81, R82, R85) -/

theorem test_decode_rdreg : decode 0b00000010_00100000_0000000000000000 = .ok (.rdreg 0x20) := by rfl
theorem test_decode_fcLd : decode 0b00010000_00000011_0000000001010101 = .ok (.fcLd 3 0x55) := by rfl
theorem test_decode_fcRd : decode 0b00010001_01111110_0000000000000000 = .ok (.fcRd 126) := by rfl
theorem test_decode_fcVal : decode 0b00010010_00000111_0000000000000001 = .ok (.fcVal 7 true) := by rfl
theorem test_decode_vtSetcbSlot : decode 0b00100000_00000000_0000000010100000 = .ok (.vtSetcbSlot 0xA0) := by rfl
theorem test_decode_vtSetcbPeriod : decode 0b00100001_00000000_0000000010110001 = .ok (.vtSetcbPeriod 0xB1) := by rfl
theorem test_decode_vtSetcbOffset : decode 0b00100010_00000000_1011111011101111 = .ok (.vtSetcbOffset 0xBEEF) := by rfl
theorem test_decode_vtArmSlot : decode 0b00100100_00000000_1111111111110000 = .ok (.vtArmSlot 0xFFF0) := by rfl
theorem test_decode_vtArmPeriod : decode 0b00100101_00000000_0000000001100100 = .ok (.vtArmPeriod 100) := by rfl
theorem test_decode_vtArmOffset : decode 0b00100110_00000000_0000000000011110 = .ok (.vtArmOffset 30) := by rfl
theorem test_decode_vtCancelSlot : decode 0b00101000_00000000_0000000000000000 = .ok .vtCancelSlot := by rfl
theorem test_decode_vtCancelPeriod : decode 0b00101001_00000000_0000000000000000 = .ok .vtCancelPeriod := by rfl
theorem test_decode_vtCancelOffset : decode 0b00101010_00000000_0000000000000000 = .ok .vtCancelOffset := by rfl
theorem test_decode_vtCbret : decode 0b00101100_00000000_0000000000000000 = .ok .vtCbret := by rfl

/-- V21: words with a reserved bit set, of every format. -/
theorem test_decode_reserved :
    decode 0x28000001 = .error .reservedBitSet
    ∧ decode 0x28010000 = .error .reservedBitSet
    ∧ decode 0x2C000001 = .error .reservedBitSet
    ∧ decode 0x24010005 = .error .reservedBitSet
    ∧ decode 0x20FF0000 = .error .reservedBitSet
    ∧ decode 0x10030155 = .error .reservedBitSet
    ∧ decode 0x11030001 = .error .reservedBitSet
    ∧ decode 0x12070002 = .error .reservedBitSet
    ∧ decode 0x02000001 = .error .reservedBitSet :=
  ⟨rfl, rfl, rfl, rfl, rfl, rfl, rfl, rfl, rfl⟩

/-- V21: words with no such opcode. -/
theorem test_decode_unknown :
    decode 0x00000000 = .error .unknownOpcode
    ∧ decode 0xFFFFFFFF = .error .unknownOpcode
    ∧ decode 0x01000000 = .error .unknownOpcode
    ∧ decode 0x03000000 = .error .unknownOpcode
    ∧ decode 0x13000000 = .error .unknownOpcode
    ∧ decode 0x23000000 = .error .unknownOpcode
    ∧ decode 0x27000000 = .error .unknownOpcode
    ∧ decode 0x2B000000 = .error .unknownOpcode
    ∧ decode 0x2D000000 = .error .unknownOpcode :=
  ⟨rfl, rfl, rfl, rfl, rfl, rfl, rfl, rfl, rfl⟩

theorem test_table_word : decodeTableWord 32 0x12FF0001 = some (.fcVal 255 true) := by rfl

/-! ### One step at a time -/

/-- V37: `RDREG CB2`. -/
theorem test_rdreg_cb2 : (after (.rdreg 0x1A) (after (.vtSetcbOffset 0xBEEF) State.reset)).outs = [.resp 0, .resp 0xBEEF] := by
  decide +kernel

/-- V29: `RDREG VTSTAT` packs a state with every field in use. -/
theorem test_rdreg_vtstat :
    (after (.rdreg 0x20) (after .vtCbret (noPeriodCallback (firstOpen 15)))).outs = [.resp 0xE0000000, .resp 0x00007D12] := by
  decide +kernel

/-- V21: the last index, and one past it. -/
theorem test_fcLd_last : (after (.fcRd 126) (after (.fcLd 126 0xFF) State.reset)).outs = [.resp 0, .resp 0xFF] := by
  decide +kernel

theorem test_fcLd_range :
    after (.fcLd 127 0xFF) State.reset = { State.reset with outs := [.resp 0x20000000] } := by decide +kernel

theorem test_fcRd_range :
    after (.fcRd 255) State.reset = { State.reset with outs := [.resp 0x20000000] } := by decide +kernel

/-- V6, V7: the corrected byte, from the cached frame or from the new one. -/
theorem test_fcVal_combines :
    (after (.fcVal 7 false) (cachedThen frameA frameB)).fcc
        = { (cachedThen frameA frameG).fcc with fcres := 0x0725, fcpos := 0x0301 }
      ∧ (after (.fcVal 7 false) (cachedThen frameB frameA)).fcc
        = { (cachedThen frameB frameG).fcc with fcres := 0x0715, fcpos := 0x0301 } := by decide +kernel

/-- V9: two trials validate, and the order decides. -/
theorem test_fcVal_order :
    let s := loaded { Params.default with comboOrder := [3, 2, 1, 0] } [0x90, 0x89, 0x11]
    (after (.fcVal 3 false)
        { s with fcc := { s.fcc with cache := [⟨true, 3, [(0, 0x01), (1, 0x89), (2, 0x94)]⟩] } }).outs
      = [.resp 0x00000325] := by decide +kernel

/-- V37. -/
theorem test_vtSetcbSlot : (after (.vtSetcbSlot 0xA0) State.reset).vtd.slot = ⟨false, 0, 0xA0, true, 0⟩ := by decide +kernel
theorem test_vtSetcbPeriod : (after (.vtSetcbPeriod 0xB1) State.reset).vtd.period = ⟨false, 0, 0xB1, true, 0⟩ := by
  decide +kernel
theorem test_vtSetcbOffset : (after (.vtSetcbOffset 0xBEEF) State.reset).vtd.offset = ⟨false, 0, 0xBEEF, true, 0⟩ := by
  decide +kernel

/-- V22: at equal distance the lowest index wins. -/
theorem test_vtArm_tie :
    (after (.vtArmSlot 50) (after (.vtArmPeriod 50) (after (.vtArmOffset 50) State.reset))).outs
      = [.cmpwr 50, .resp 0x00010032, .cmpwr 50, .resp 0x00010000, .cmpwr 50, .resp 0x00010000] := by decide +kernel

/-- V24: the second compare value wraps. -/
theorem test_vtArmSlot_wraps :
    (after (.vtArmSlot 0x20) (after (.vtArmSlot 0xFFF0) State.reset)).vtd.hwcmp = 0x0010 := by decide +kernel

/-- P2: the offset timer armed after the period timer lies behind `now`. -/
theorem test_vtArmOffset_behind :
    (after (.vtArmOffset 30) (after (.vtArmPeriod 100) State.reset)).outs
      = [.cmpwr 100, .resp 0x00010064, .cmpwr 100, .resp 0x00010000] := by decide +kernel

/-- V30: cancelling the only timer. -/
theorem test_vtCancelSlot :
    (after .vtCancelSlot (after (.vtArmSlot 10) State.reset)).outs
      = [.cmpwr 10, .resp 0x0001000A, .resp 0x0000FFFF] := by decide +kernel

/-- V35: cancelling from a callback. -/
theorem test_vtCancelPeriod :
    (after .vtCancelPeriod (firstOpen 11)).outs = [.resp 0x0000FFFF]
      ∧ (after .vtCancelPeriod (firstOpen 11)).vtd.period = ⟨false, 12, 0xA1, true, 0⟩ := by decide +kernel

/-- V26: cancelling a timer that is not armed, with nothing armed. -/
theorem test_vtCancelOffset : (after .vtCancelOffset State.reset).outs = [.resp 0x0000FFFF] := by decide +kernel

/-- P3: the late fire. -/
theorem test_vtCbret_late :
    (after .vtCbret (firstOpen 15)).vtd = (lateOpen 15).vtd
      ∧ (after .vtCbret (firstOpen 15)).outs = [.fire .period 0xA1, .resp 3] := by decide +kernel

/-- P3: the late callback's return is counted and the handler ends. -/
theorem test_vtCbret_counts :
    (after .vtCbret (lateOpen 16)).vtd.late = 1 ∧ (after .vtCbret (lateOpen 16)).outs = [.cmpwr 24, .resp 0] := by
  decide +kernel

/-- P3: the interrupt. -/
theorem test_irq :
    stepped (offer .irq 10 armedTwo) = { firstOpen 10 with outs := [.cmpwr 12, .fire .slot 0xA0] } := by decide +kernel

/-- V27: the interrupt straight after reset. -/
theorem test_irq_unset :
    (stepped (offer .irq 77 State.reset)).vtd = { State.reset.vtd with tentry := 77, flt := 1, phase := .faulted } := by
  decide +kernel

/-- V36: `RESET` inside a handler. -/
theorem test_reset : stepped (offer .reset 0 (firstOpen 0)) = State.reset := by decide +kernel

/-- V21: a word that is no command, through the whole step. -/
theorem test_illegal :
    stepped (offer (.cmd 0x2C000001) 0 State.reset) = { State.reset with outs := [.resp 0x10000000] } := by decide +kernel

/-! ### The hypotheses of the obligations are met -/

theorem witness_DecodedWordIsTheCommandsWord : decode 0x12FF0001 = .ok (.fcVal 255 true) := by rfl

theorem witness_DecodeFollowsTheOpcodeMap :
    (⟨"FC_VAL", 0x12000000, 0xFF00FFFE⟩ : OpcodeRow) ∈ opcodeMap ∧ 0x12FF0001#32 &&& 0xFF00FFFE = 0x12000000
      ∧ ∀ row ∈ opcodeMap, 0x2B000000#32 &&& row.mask ≠ row.value := by decide

theorem witness_StepRunsTheDecodedCommand :
    (offer (.cmd 0x2C000000) 15 (firstOpen 10)).inputs = ⟨.cmd 0x2C000000, 15⟩ :: [] ∧ decode 0x2C000000 = .ok .vtCbret :=
  ⟨rfl, rfl⟩

theorem witness_PresentedWordRunsNext : decode (BitVec.ofNat 32 0x107E00FF) = .ok (.fcLd 126 0xFF) := by rfl

/-- One word for each clause of R88; the range clause at the first index past the buffer. -/
theorem witness_CommandChecksInOrder :
    (offer (.cmd 0x28000001) 0 State.reset).inputs = [⟨.cmd 0x28000001, 0⟩]
    ∧ (∀ row ∈ opcodeMap, 0x28000001#32 &&& row.mask ≠ row.value)
    ∧ decode 0x24000005 = .ok (.vtArmSlot 5) ∧ (Instr.vtArmSlot 5).isVt = true ∧ faultedState.vtd.phase = .faulted
    ∧ decode 0x107F0000 = .ok (.fcLd 127 0) ∧ (Instr.fcLd 127 0).wellFormed 1 = false
    ∧ decode 0x2C000000 = .ok .vtCbret ∧ State.reset.vtd.phase = .idle
    ∧ decode 0x107E0000 = .ok (.fcLd 126 0) ∧ (Instr.fcLd 126 0).wellFormed 1 = true
    ∧ Instr.vtCbret.wellFormed 1 = true ∧ (firstOpen 15).vtd.phase = .cbFirst := by decide +kernel

theorem witness_EachCommandIsAnsweredOnce :
    (∃ t, step (offer (.cmd 0x2C000000) 15 (firstOpen 10)) = .next t) ∧ ∃ t, step (offer .irq 10 armedTwo) = .next t :=
  ⟨⟨_, rfl⟩, ⟨_, rfl⟩⟩

theorem witness_ResetPutsEveryElementToZero : (offer .reset 7 (lateOpen 16)).inputs = ⟨.reset, 7⟩ :: [] := rfl

theorem witness_ResetStateMeetsTheInvariants :
    Params.default.wf ∧ ({ hwParams with cacheDepth := 64, comboOrder := [3, 2, 1, 0] } : Params).wf := by decide +kernel

theorem witness_OnlyResetClearsTheValidBits :
    ∃ s t, step s = .next t ∧ ¬ s.offersReset ∧ s.vtd.nextv = true ∧ s.vtd.hwie = true
      ∧ (s.vtd.timer .slot).cbv = true ∧ (s.fcc.entry 0).valid = true := by
  refine ⟨{ offer .irq 10 armedTwo with fcc := (cachedThen frameA frameB).fcc }, _, rfl, ?_, rfl, rfl, rfl, rfl⟩
  rintro ⟨c, rest, h⟩
  cases h

theorem witness_StepKeepsTheTimerInvariants :
    (offer .irq 10 armedTwo).vtd.inv ∧ (lateOpen 16).vtd.inv ∧ ∃ t, step (offer .irq 10 armedTwo) = .next t := by
  refine ⟨by decide, by decide, _, rfl⟩

theorem witness_StepKeepsTheCacheInvariants :
    let s := offer (.cmd 0x12070000) 0 (cachedThen frameA frameB)
    s.cfg.wf ∧ s.fcc.storesCanonical ∧ s.fcc.cacheInv s.cfg ∧ ∃ t, step s = .next t := by
  refine ⟨by decide +kernel, by decide +kernel, by decide +kernel, _, rfl⟩

theorem witness_StepKeepsTheStoresCanonical :
    let s := offer (.cmd 0x107E0055) 0 (cachedThen frameA frameB)
    s.fcc.storesCanonical ∧ ∃ t, step s = .next t := by
  refine ⟨by decide +kernel, _, rfl⟩

theorem witness_StepKeepsTheResultRegisters :
    let s := offer (.cmd 0x12070000) 0 (cachedThen frameA frameB)
    s.fcc.resultInv ∧ ∃ t, step s = .next t := by
  refine ⟨by decide +kernel, _, rfl⟩

theorem witness_StepKeepsTheParameters : ∃ t, step (offer .reset 0 State.reset) = .next t := ⟨_, rfl⟩

/-- The range clauses of the register map at their ends, with the largest cache. -/
theorem witness_RdregReadsTheRegisterMap :
    (∃ f : Fcc, f.cwr = 63 ∧ f.cwr < 64)
    ∧ 63 < ({ Params.default with cacheDepth := 64 } : Params).cacheDepth
    ∧ (∀ rn ∈ [0x04#8, 0x0F], 0x04 ≤ rn.toNat ∧ rn.toNat ≤ 0x0F)
    ∧ (∀ rn ∈ [0x24#8, 0x3F], 0x24 ≤ rn.toNat ∧ rn.toNat ≤ 0x3F)
    ∧ 0x40 + ({ Params.default with cacheDepth := 64 } : Params).cacheDepth ≤ (0x80#8).toNat :=
  ⟨⟨{ Fcc.reset 64 with cwr := 63 }, rfl, by decide⟩, by decide⟩

theorem witness_FcLdWritesOneByte : (126#8).toNat ≤ 126 ∧ (loaded Params.default frameA).fcc.rxbuf.wf := by
  decide +kernel

theorem witness_FcRdReadsOneByte : (126#8).toNat ≤ 126 := by decide

theorem witness_FcValDropsOversize : 127 < (128#8).toNat := by decide

theorem witness_FcValPassesDirectly :
    (127#8).toNat ≤ 127 ∧ (loaded hwParams frameA).cfg.crcMode = .hw
    ∧ (7#8).toNat ≤ 127 ∧ (loaded Params.default frameG).cfg.crcMode = .sw
    ∧ crcOk (loaded Params.default frameG).cfg.frameCheck
        ((List.range (7#8).toNat).map (Memory.read (loaded Params.default frameG).fcc.rxbuf)) = true := by decide +kernel

theorem witness_FcValFailsInHardwareMode : (127#8).toNat ≤ 127 ∧ (loaded hwParams frameG).cfg.crcMode = .hw := by decide

/-- V6: trials 0 and 1 fail, trial 2 validates. -/
theorem witness_FcValCombines :
    let s := cachedThen frameA frameB
    frameB = (List.range (7#8).toNat).map (Memory.read s.fcc.rxbuf)
    ∧ s.cfg.wf ∧ s.fcc.rxbuf.wf ∧ (7#8).toNat ≤ 127 ∧ s.cfg.crcMode = .sw ∧ crcOk s.cfg.frameCheck frameB = false
    ∧ 0 < s.cfg.cacheDepth ∧ (s.fcc.entry 0).valid = true ∧ (s.fcc.entry 0).len = 7
    ∧ (s.fcc.entry 0).DiffersAt frameB 1 3 ∧ s.cfg.comboOrder = [0, 1] ++ 2 :: [3]
    ∧ (∀ k' ∈ [0#2, 1], ∀ t', (s.fcc.entry 0).IsTrial frameB 1 3 k' t' → crcOk s.cfg.frameCheck t' = false)
    ∧ (s.fcc.entry 0).IsTrial frameB 1 3 2 frameG ∧ crcOk s.cfg.frameCheck frameG = true
    ∧ ∀ e' < 0, ¬ s.fcc.Combinable s.cfg frameB e' := by
  refine ⟨by decide +kernel, by decide +kernel, by decide +kernel, by decide, rfl, by decide +kernel, by decide, rfl,
    rfl, by decide +kernel, by decide, fun k' hk t' ht => ?_, by decide +kernel, by decide +kernel, fun e' h => by omega⟩
  have hext : ∀ u : List Byte, u.length = 7 → (∀ j < 7, t'.getD j 0 = u.getD j 0) → t' = u := fun u hu hj => by
    have hl : t'.length = 7 := ht.1
    refine List.ext_getElem (hl.trans hu.symm) fun j h1 h2 => ?_
    have := hj j (by omega)
    rwa [List.getD_eq_getElem _ _ h1, List.getD_eq_getElem _ _ h2] at this
  have hkk : k' = 0 ∨ k' = 1 := by simpa using hk
  rcases hkk with rfl | rfl
  · rw [hext frameB rfl fun j hj => (ht.2 j hj).trans (by decide +revert +kernel)]; decide +kernel
  · rw [hext [0x01, 0xAA, 0x03, 0x55, 0x05, 0x9B, 0xED] rfl fun j hj => (ht.2 j hj).trans (by decide +revert +kernel)]
    decide +kernel

/-- V5: the cache is empty. -/
theorem witness_FcValCachesTheFailedFrame :
    let s := loaded Params.default frameA
    frameA = (List.range (7#8).toNat).map (Memory.read s.fcc.rxbuf)
    ∧ s.fcc.cwr < s.fcc.cache.length ∧ (s.fcc.entry s.fcc.cwr).data.wf ∧ (7#8).toNat ≤ 127 ∧ s.cfg.crcMode = .sw
    ∧ crcOk s.cfg.frameCheck frameA = false ∧ ∀ e, ¬ s.fcc.Combinable s.cfg frameA e := by
  refine ⟨by decide +kernel, by decide, by decide, by decide, rfl, by decide +kernel, ?_⟩
  rintro e ⟨he, hv, -⟩
  obtain rfl : e = 0 := by have : e < 1 := he; omega
  exact absurd hv (by decide)

theorem witness_FcValPassMeansTheFrameChecks :
    ∃ t, exec (.fcVal 7 false) (cachedThen frameA frameB) = .next t ∧ t.fcc.fcres.getLsbD 0 = true
      ∧ (cachedThen frameA frameB).cfg.crcMode = .sw ∧ (cachedThen frameA frameB).fcc.rxbuf.wf := by
  refine ⟨_, rfl, by decide +kernel, rfl, by decide +kernel⟩

/-- The verdict `FAIL_CACHED` (V5), and another (V6). -/
theorem witness_CacheChangesOnlyOnFailCached :
    (∃ t, exec (.fcVal 7 false) (loaded Params.default frameA) = .next t ∧ fcresVerdict t.fcc.fcres = 3)
    ∧ ∃ t, exec (.fcVal 7 false) (cachedThen frameA frameB) = .next t ∧ fcresVerdict t.fcc.fcres ≠ 3 := by
  refine ⟨⟨_, rfl, by decide +kernel⟩, ⟨_, rfl, by decide +kernel⟩⟩

/-- The verdict `PASS_COMBINED` (V6), and another (V8c). -/
theorem witness_CombinationCorrectsExactlyOneByte :
    (cachedThen frameA frameB).fcc.storesCanonical
    ∧ (cachedThen frameA frameB).fcc.cacheInv (cachedThen frameA frameB).cfg
    ∧ (∃ t, exec (.fcVal 7 false) (cachedThen frameA frameB) = .next t ∧ fcresVerdict t.fcc.fcres = 2)
    ∧ ∃ t, exec (.fcVal 7 false) (cachedThen frameA frameA) = .next t ∧ fcresVerdict t.fcc.fcres ≠ 2 := by
  refine ⟨by decide +kernel, by decide +kernel, ⟨_, rfl, by decide +kernel⟩, ⟨_, rfl, by decide +kernel⟩⟩

/-- V6, where trial 2 validates; V8c, where no position differs; V10, where two differ and no trial validates. -/
theorem witness_TwoCorruptedCopiesRecoverTheFrame :
    let s := cachedThen frameA frameB
    let u := cachedThen frameA frameA
    let x := cachedThen frameA frameX
    frameB = (List.range (7#8).toNat).map (Memory.read s.fcc.rxbuf)
    ∧ frameA = (List.range (7#8).toNat).map (Memory.read u.fcc.rxbuf)
    ∧ frameX = (List.range (7#8).toNat).map (Memory.read x.fcc.rxbuf)
    ∧ s.cfg.wf ∧ s.cfg.crcMode = .sw ∧ s.cfg.cacheDepth = 1 ∧ s.fcc.storesCanonical ∧ s.fcc.cacheInv s.cfg
    ∧ u.fcc.storesCanonical ∧ u.fcc.cacheInv u.cfg ∧ x.fcc.storesCanonical ∧ x.fcc.cacheInv x.cfg
    ∧ (7#8).toNat ≤ 127 ∧ crcOk s.cfg.frameCheck frameB = false ∧ crcOk u.cfg.frameCheck frameA = false
    ∧ crcOk x.cfg.frameCheck frameX = false
    ∧ (s.fcc.entry 0).valid = true ∧ (s.fcc.entry 0).len = 7
    ∧ (∃ p1 p2, (s.fcc.entry 0).DiffersAt frameB p1 p2
        ∧ ∃ k f, (s.fcc.entry 0).IsTrial frameB p1 p2 k f ∧ crcOk s.cfg.frameCheck f = true)
    ∧ (∀ p1 p2, ¬ (u.fcc.entry 0).DiffersAt frameA p1 p2)
    ∧ (x.fcc.entry 0).DiffersAt frameX 1 4
    ∧ ∀ k, crcOk x.cfg.frameCheck (trialFrame (x.fcc.entry 0) frameX 1 4 k) = false := by
  refine ⟨by decide +kernel, by decide +kernel, by decide +kernel, by decide +kernel, rfl, rfl, by decide +kernel,
    by decide +kernel, by decide +kernel, by decide +kernel, by decide +kernel, by decide +kernel, by decide,
    by decide +kernel, by decide +kernel, by decide +kernel, rfl, rfl,
    ⟨1, 3, by decide +kernel, 2, frameG, by decide +kernel, by decide +kernel⟩, ?_, by decide +kernel, by decide +kernel⟩
  rintro p1 p2 ⟨-, hp, hd⟩
  have hp7 : p2 < 7 := hp
  refine (hd p2 hp).mpr (.inr rfl) ?_
  have : ∀ j < 7, Memory.read ((cachedThen frameA frameA).fcc.entry 0).data j = frameA.getD j 0 := by decide +kernel
  exact this p2 hp7

theorem witness_DefaultCheckIsAZeroResidue : 2 ≤ ([0x00, 0x00] : List Byte).length := by decide

theorem witness_DefaultCheckValues : 2 ≤ 2 ∧ ([0x00] : List Byte).length < 2 := by decide

theorem witness_SetCallbackAssignsTheTag : State.reset.noFault ∧ (firstOpen 11).noFault := by decide

theorem witness_ArmingSetsTheCompareValueAndReschedules : State.reset.noFault ∧ (lateOpen 16).noFault := by decide

theorem witness_CancellingDisarmsAndReschedules : State.reset.noFault ∧ (lateOpen 16).noFault := by decide

/-- Two timers armed: each cancel leaves one of them, so every clause is met. -/
theorem witness_ReschedulingAgainSelectsTheSameTimer :
    (∃ i, (armedTwo.vtd.timer i).armed = true) ∧ armedTwo.noFault
    ∧ ∀ c ∈ [Instr.vtCancelSlot, .vtCancelPeriod, .vtCancelOffset],
        ∃ t, exec c armedTwo = .next t ∧ ∃ i, (t.vtd.timer i).armed = true := by
  refine ⟨⟨.slot, rfl⟩, by decide, fun c hc => ?_⟩
  simp only [List.mem_cons, List.not_mem_nil, or_false] at hc
  rcases hc with rfl | rfl | rfl
  · exact ⟨_, rfl, .period, by decide +kernel⟩
  · exact ⟨_, rfl, .slot, by decide +kernel⟩
  · exact ⟨_, rfl, .slot, by decide +kernel⟩

/-- P2, and the first distance that is not 0. -/
theorem witness_OffsetArmedBehindNowIsNotSelected :
    ∃ s : State, s.noFault ∧ s.vtd.slot.armed = false ∧ s.vtd.period.armed = true ∧ s.vtd.period.cmp = s.vtd.now
      ∧ s.vtd.prev + 30 ≠ s.vtd.now ∧ s.vtd.prev + 101 ≠ s.vtd.now :=
  ⟨after (.vtArmPeriod 100) State.reset, by decide +kernel⟩

/-- V31: elapsed equal to `hdist`. -/
theorem witness_FirstCallbackReturnEndsTheHandler :
    (firstOpen 12).vtd.phase = .cbFirst ∧ (firstOpen 12).cnt - (firstOpen 12).vtd.tentry ≤ (firstOpen 12).vtd.hdist := by
  decide

/-- V31: one tick more. -/
theorem witness_FirstCallbackReturnFiresTheOverdueTimer :
    let s := firstOpen 13
    s.vtd.phase = .cbFirst ∧ s.vtd.hdist < s.cnt - s.vtd.tentry ∧ (s.vtd.timer s.vtd.next).cbv = true := by decide

/-- P3's second return, whose new distance is 12: elapsed 12, and elapsed 13. -/
theorem witness_LateCallbackReturnIsCountedAndReschedules :
    (lateOpen 22).vtd.phase = .cbLate ∧ (lateOpen 22).cnt - (lateOpen 22).vtd.tentry ≤ 12
    ∧ 12 < (lateOpen 23).cnt - (lateOpen 23).vtd.tentry ∧ ((lateOpen 23).vtd.timer .period).cbv = true
    ∧ (after .vtCbret (lateOpen 22)).vtd.hdist = 12 ∧ (after .vtCbret (lateOpen 23)).vtd.hdist = 12
    ∧ (after .vtCbret (lateOpen 22)).vtd.phase = .idle ∧ (after .vtCbret (lateOpen 23)).vtd.phase = .cbLate := by
  decide +kernel

/-- V29 for the first clause; the same timer late again for the second. -/
theorem witness_LateFireWithoutCallbackFaults :
    (let s := noPeriodCallback (firstOpen 13)
     s.vtd.phase = .cbFirst ∧ s.vtd.hdist < s.cnt - s.vtd.tentry ∧ (s.vtd.timer s.vtd.next).cbv = false)
    ∧ (let s := noPeriodCallback (lateOpen 23)
       s.vtd.phase = .cbLate ∧ 12 < s.cnt - s.vtd.tentry ∧ (s.vtd.timer .period).cbv = false
        ∧ (after .vtCbret s).vtd.hdist = 12 ∧ (after .vtCbret s).vtd.phase = .faulted) := by decide +kernel

/-- V30, with the largest elapsed time. -/
theorem witness_NothingScheduledEndsTheHandler :
    ∃ s : State, s.vtd.phase = .cbFirst ∧ s.vtd.hdist = 0xFFFF ∧ s.cnt - s.vtd.tentry = 0xFFFF :=
  ⟨{ firstOpen 9 with vtd := { (firstOpen 9).vtd with hdist := 0xFFFF } }, by decide⟩

/-- V33: one tick after the entry sample, and at it. -/
theorem witness_PeriodZeroKeepsTheHandlerOpen :
    let s := periodZero 6
    s.vtd.phase = .cbLate ∧ s.vtd.slot.armed = false ∧ s.vtd.offset.armed = false ∧ s.vtd.period.armed = true
    ∧ s.vtd.period.dly = 0 ∧ s.vtd.period.cbv = true ∧ s.vtd.period.cmp = s.vtd.now ∧ s.cnt ≠ s.vtd.tentry
    ∧ (periodZero 5).cnt = (periodZero 5).vtd.tentry := by decide

theorem witness_IrqFiresTheRecordedTimer :
    let s := offer .irq 10 armedTwo
    s.inputs = ⟨.irq, 10⟩ :: [] ∧ s.vtd.phase = .idle ∧ s.vtd.nextv = true ∧ (s.vtd.timer s.vtd.next).cbv = true := by
  decide

/-- V28. -/
theorem witness_IrqWithoutCallbackFaults :
    let s := offer .irq 10 (after (.vtArmSlot 10) State.reset)
    s.inputs = ⟨.irq, 10⟩ :: [] ∧ s.vtd.phase = .idle ∧ s.vtd.nextv = true
      ∧ (s.vtd.timer s.vtd.next).cbv = false := by decide +kernel

/-- V27. -/
theorem witness_IrqBeforeAnyScheduleFaults :
    let s := offer .irq 77 State.reset
    s.inputs = ⟨.irq, 77⟩ :: [] ∧ s.vtd.phase = .idle ∧ s.vtd.nextv = false ∧ s.vtd.inv := by decide

/-- V36. -/
theorem witness_IrqIsNotTakenOutsideIdle :
    (offer .irq 11 (firstOpen 10)).inputs = ⟨.irq, 11⟩ :: [] ∧ (offer .irq 11 (firstOpen 10)).vtd.phase ≠ .idle := by
  decide

theorem witness_FaultedTimerUnitIsFrozen :
    ∃ t, (offer .irq 11 faultedState).vtd.phase = .faulted ∧ step (offer .irq 11 faultedState) = .next t
      ∧ ¬ (offer .irq 11 faultedState).offersReset ∧ (Instr.fcVal 0 false).isVt = false
      ∧ ∀ rn, Instr.fcVal 0 false ≠ .rdreg rn := by
  refine ⟨_, rfl, rfl, ?_, rfl, fun rn => by simp⟩
  rintro ⟨c, rest, h⟩
  cases h

theorem witness_OnlyResetClearsAFault :
    ∃ t, step (offer .irq 11 faultedState) = .next t ∧ ¬ (offer .irq 11 faultedState).offersReset
      ∧ faultedState.vtd.phase = .faulted ∧ faultedState.vtd.flt.getLsbD 1 = true := by
  refine ⟨_, rfl, ?_, rfl, rfl⟩
  rintro ⟨c, rest, h⟩
  cases h

/-- `RESET`; a counted return; an `IRQ`. -/
theorem witness_LateCounterCountsTheLateReturns :
    ((∃ t, step (offer .reset 0 (lateOpen 16)) = .next t) ∧ (offer .reset 0 (lateOpen 16)).offersReset)
    ∧ ((∃ t, step (offer (.cmd 0x2C000000) 16 (lateOpen 0)) = .next t)
        ∧ (offer (.cmd 0x2C000000) 16 (lateOpen 0)).offersCommand .vtCbret ∧ (lateOpen 0).vtd.phase = .cbLate)
    ∧ ((∃ t, step (offer .irq 10 armedTwo) = .next t) ∧ ¬ (offer .irq 10 armedTwo).offersReset
        ∧ ¬ ((offer .irq 10 armedTwo).offersCommand .vtCbret ∧ armedTwo.vtd.phase = .cbLate)) := by
  refine ⟨⟨⟨_, rfl⟩, 0, [], rfl⟩, ⟨⟨_, rfl⟩, ⟨0x2C000000, 16, [], rfl, rfl⟩, rfl⟩, ⟨_, rfl⟩, ?_, fun h => ?_⟩
  · rintro ⟨c, rest, h⟩
    cases h
  · cases h.2

/-- P3: the late fire of the PERIOD timer. -/
theorem witness_AnchorMovesOnlyWhenThePeriodFires :
    let s := offer (.cmd 0x2C000000) 15 (firstOpen 0)
    ∃ t, step s = .next t ∧ ¬ s.offersReset ∧ t.vtd.prev ≠ s.vtd.prev := by
  refine ⟨_, rfl, ?_, by decide +kernel⟩
  rintro ⟨c, rest, h⟩
  cases h

theorem witness_CommandsLeaveTheHandlerRegisters :
    ∃ t, Instr.vtArmSlot 10 ≠ .vtCbret ∧ exec (.vtArmSlot 10) (firstOpen 11) = .next t := ⟨_, by decide, rfl⟩

/-- A step that programs the compare register, and one that does not. -/
theorem witness_TheoreticalTimeFollowsTheCompareRegister :
    (∃ t, step (offer .irq 10 armedTwo) = .next t ∧ ¬ (offer .irq 10 armedTwo).offersReset
        ∧ t.outs = [.cmpwr 12, .fire .slot 0xA0])
    ∧ ∃ t, step (offer (.cmd 0x2C000000) 15 (firstOpen 0)) = .next t
        ∧ ¬ (offer (.cmd 0x2C000000) 15 (firstOpen 0)).offersReset ∧ t.outs = [.fire .period 0xA1, .resp 3] := by
  refine ⟨⟨_, rfl, ?_, by decide +kernel⟩, ⟨_, rfl, ?_, by decide +kernel⟩⟩
  · rintro ⟨c, rest, h⟩
    cases h
  · rintro ⟨c, rest, h⟩
    cases h

theorem witness_OneFireAtATimeWithItsTag :
    ∃ t, step (offer .irq 10 armedTwo) = .next t ∧ Output.fire .slot 0xA0 ∈ t.outs := ⟨_, rfl, by decide +kernel⟩

/-- Two machines that differ in the other unit, with an `FC_*` command, a `VT_*` command, an `IRQ` and `RDREG` at the ends of
the two number ranges; a command of each unit. -/
theorem witness_UnitsDoNotInterfere :
    let s (e : Event) : State := offer e 0 (cachedThen frameA frameB)
    let s' (e : Event) : State := { s e with vtd := faultedState.vtd }
    let u (e : Event) : State := { s e with fcc := State.reset.fcc }
    (∀ e, (s e).cfg = (s' e).cfg ∧ (s e).inputs = (s' e).inputs ∧ (s e).fcc = (s' e).fcc
      ∧ (s e).cfg = (u e).cfg ∧ (s e).inputs = (u e).inputs ∧ (s e).vtd = (u e).vtd)
    ∧ (∃ t t', step (s (.cmd 0x12070000)) = .next t ∧ step (s' (.cmd 0x12070000)) = .next t')
    ∧ (∃ t t', step (s .irq) = .next t ∧ step (u .irq) = .next t')
    ∧ (s (.cmd 0x12070000)).offersCommand (.fcVal 7 false)
    ∧ (s (.cmd 0x020F0000)).offersCommand (.rdreg 0x0F) ∧ (s (.cmd 0x02400000)).offersCommand (.rdreg 0x40)
    ∧ (s .irq).offersIrq ∧ (s (.cmd 0x24000005)).offersCommand (.vtArmSlot 5)
    ∧ (s (.cmd 0x02100000)).offersCommand (.rdreg 0x10) ∧ (s (.cmd 0x023F0000)).offersCommand (.rdreg 0x3F)
    ∧ (∃ t, exec (.vtArmSlot 5) State.reset = .next t ∧ (Instr.vtArmSlot 5).isVt = true)
    ∧ ∃ t, exec (.fcRd 3) State.reset = .next t ∧ (Instr.fcRd 3).isVt = false :=
  ⟨fun _ => ⟨rfl, rfl, rfl, rfl, rfl, rfl⟩, ⟨_, _, rfl, rfl⟩, ⟨_, _, rfl, rfl⟩, ⟨_, 0, [], rfl, rfl⟩, ⟨_, 0, [], rfl, rfl⟩,
    ⟨_, 0, [], rfl, rfl⟩, ⟨0, [], rfl⟩, ⟨_, 0, [], rfl, rfl⟩, ⟨_, 0, [], rfl, rfl⟩, ⟨_, 0, [], rfl, rfl⟩, ⟨_, rfl, rfl⟩,
    ⟨_, rfl, rfl⟩⟩

theorem witness_OtherCommandsDoNotSampleTheCounter : Instr.vtArmPeriod 100 ≠ .vtCbret := by decide

/-- A flag set and a flag cleared for each timer, and a `FIRE` of SLOT and of OFFSET. -/
theorem witness_ArmedFlagsFollowArmCancelAndFire :
    let set (w : Word32) : State := stepped (offer (.cmd w) 0 State.reset)
    let offsetNext : State := offer .irq 30 (after (.vtArmOffset 30) (after (.vtSetcbOffset 0xB2) State.reset))
    (set 0x2400000A).vtd.slot.armed = true ∧ (set 0x2500000A).vtd.period.armed = true
    ∧ (set 0x2600000A).vtd.offset.armed = true
    ∧ State.reset.vtd.slot.armed = false ∧ State.reset.vtd.period.armed = false ∧ State.reset.vtd.offset.armed = false
    ∧ armedTwo.vtd.slot.armed = true ∧ (stepped (offer .irq 10 armedTwo)).vtd.slot.armed = false
    ∧ armedTwo.vtd.period.armed = true ∧ (stepped (offer (.cmd 0x29000000) 0 armedTwo)).vtd.period.armed = false
    ∧ offsetNext.vtd.offset.armed = true ∧ (stepped offsetNext).vtd.offset.armed = false
    ∧ Output.fire .slot 0xA0 ∈ (stepped (offer .irq 10 armedTwo)).outs
    ∧ Output.fire .offset 0xB2 ∈ (stepped offsetNext).outs := by decide +kernel

end Sys2Proof.Tests
end

section
/-! Actions of one unit: a transition whose effect is a function of that unit alone, and that leaves the other unit alone
(00_scope.md R2). Every command and the `IRQ` is shown to be one, operation by operation. -/

namespace Sys2Proof.Machine

/-! ### Actions of the VTD unit -/

/-- While the counter input carries a value of `C`, what `g` leaves in the VTD unit and what it emits are functions of that
unit alone, and `g` changes nothing else. With `C` the set of all values, `g` does not sample the counter. -/
def ActsOnVtd (C : Set Reg16) (g : State → State) : Prop :=
  ∃ F : Vtd → Vtd × List Output, ∀ s, s.cnt ∈ C →
    g s = { s with vtd := (F s.vtd).1, outs := s.outs ++ (F s.vtd).2 }

namespace ActsOnVtd

variable {C : Set Reg16} {g h : State → State}

theorem update (f : Vtd → Vtd) : ActsOnVtd C (fun s => { s with vtd := f s.vtd }) :=
  ⟨fun v => (f v, []), fun s _ => by simp⟩

theorem emit (o : Output) : ActsOnVtd C (fun s => s.emit o) :=
  ⟨fun v => (v, [o]), fun _ _ => rfl⟩

theorem respond (st : Status) (p : BitVec 28) : ActsOnVtd C (fun s => s.respond st p) := emit _

theorem idle : ActsOnVtd C (fun s => s) := update id

theorem comp (hh : ActsOnVtd C h) (hg : ActsOnVtd C g) : ActsOnVtd C (fun s => h (g s)) := by
  obtain ⟨H, hH⟩ := hh
  obtain ⟨G, hG⟩ := hg
  refine ⟨fun v => ((H (G v).1).1, (G v).2 ++ (H (G v).1).2), fun s hs => ?_⟩
  have hcnt : (g s).cnt ∈ C := by rw [hG s hs]; exact hs
  calc h (g s) = { g s with vtd := (H (g s).vtd).1, outs := (g s).outs ++ (H (g s).vtd).2 } := hH _ hcnt
    _ = _ := by rw [hG s hs, List.append_assoc]

/-- An action may depend on what it reads in the unit. -/
theorem reading {k : Vtd → State → State} (hk : ∀ v, ActsOnVtd C (k v)) : ActsOnVtd C (fun s => k s.vtd s) := by
  choose F hF using hk
  exact ⟨fun v => F v v, fun s hs => hF s.vtd s hs⟩

theorem ite (p : Vtd → Prop) [DecidablePred p] (hg : ActsOnVtd C g) (hh : ActsOnVtd C h) :
    ActsOnVtd C (fun s => if p s.vtd then g s else h s) :=
  reading (k := fun v s => if p v then g s else h s) fun v => by
    by_cases hv : p v
    · simpa only [if_pos hv] using hg
    · simpa only [if_neg hv] using hh

/-- An action at one counter value may depend on the sample it takes. -/
theorem sampling {c : Reg16} {k : Reg16 → State → State} (hk : ActsOnVtd {c} (k c)) :
    ActsOnVtd {c} (fun s => k s.cnt s) := by
  obtain ⟨F, hF⟩ := hk
  refine ⟨F, fun s hs => ?_⟩
  obtain rfl : s.cnt = c := hs
  exact hF s rfl

theorem mono {D : Set Reg16} (hg : ActsOnVtd C g) (hD : D ⊆ C) : ActsOnVtd D g := by
  obtain ⟨F, hF⟩ := hg
  exact ⟨F, fun s hs => hF s (hD hs)⟩

theorem fcc_eq (hg : ActsOnVtd C g) {s : State} (hs : s.cnt ∈ C) : (g s).fcc = s.fcc := by
  obtain ⟨F, hF⟩ := hg
  rw [hF s hs]

/-- From two states with the same VTD unit an action leaves the same unit and emits the same. -/
theorem agree (hg : ActsOnVtd C g) {s s' : State} (hs : s.cnt ∈ C) (hs' : s'.cnt ∈ C) (hv : s.vtd = s'.vtd) :
    (g s).vtd = (g s').vtd ∧ ∃ o, (g s).outs = s.outs ++ o ∧ (g s').outs = s'.outs ++ o := by
  obtain ⟨F, hF⟩ := hg
  rw [hF s hs, hF s' hs', hv]
  exact ⟨rfl, _, rfl, rfl⟩

/-- An action for all counter values does the same whatever the counter input carries. -/
theorem cnt_irrelevant (hg : ActsOnVtd Set.univ g) (s : State) (c : Reg16) :
    g { s with cnt := c } = { g s with cnt := c } := by
  obtain ⟨F, hF⟩ := hg
  rw [hF s trivial, hF _ trivial]

end ActsOnVtd

/-! ### The operations of the VTD unit -/

section
variable {C : Set Reg16}

/-- What follows a reschedule may depend on the result it returns (41_vtd_commands.md R140). -/
theorem actsOnVtd_reschedule {k : Bool → Reg16 → State → State} (hk : ∀ found d, ActsOnVtd C (k found d)) :
    ActsOnVtd C (fun s => k (reschedule s).found (reschedule s).dist (reschedule s).state) := by
  have hres : ∀ v : Vtd, ∃ found d r, ActsOnVtd C r
      ∧ ∀ s : State, s.vtd = v → reschedule s = { state := r s, found := found, dist := d } := by
    intro v
    cases hn : nearestTimer v with
    | none => exact ⟨_, _, _, .idle, fun s hs => by rw [reschedule, hs, hn]⟩
    | some r =>
      obtain ⟨i, d⟩ := r
      exact ⟨true, d, _, .comp (.emit (.cmpwr (v.timer i).cmp)) (.update fun w => w.program i), fun s hs => by
        rw [reschedule, hs, hn]⟩
  choose found d r hr he using hres
  obtain ⟨F, hF⟩ := ActsOnVtd.reading (k := fun v s => k (found v) (d v) (r v s)) fun v => (hk _ _).comp (hr v)
  refine ⟨F, fun s hs => Eq.trans ?_ (hF s hs)⟩
  simp only [he s.vtd s rfl]

theorem actsOnVtd_setTimer (j : Timer) (f : Vtd → LogicalTimer) :
    ActsOnVtd C (fun s => s.setTimer j (f s.vtd)) :=
  .update fun v => v.setTimer j (f v)

theorem actsOnVtd_rescheduleAndRespond : ActsOnVtd C rescheduleAndRespond :=
  actsOnVtd_reschedule fun found d => .respond .ok (reschedulePayload found d)

theorem actsOnVtd_handlerReschedule : ActsOnVtd C handlerReschedule :=
  actsOnVtd_reschedule fun _ d => .update fun v => { v with hdist := d }

theorem actsOnVtd_setCallback (j : Timer) (tag : Reg16) : ActsOnVtd C (setCallback j tag) :=
  (ActsOnVtd.comp (.respond .ok 0) (actsOnVtd_setTimer j fun v => { v.timer j with cb := tag, cbv := true }) :)

theorem actsOnVtd_armTimer (j : Timer) (x : Reg16) : ActsOnVtd C (fun s => armTimer j (s.vtd.armBase j) x s) :=
  (actsOnVtd_rescheduleAndRespond.comp
    (actsOnVtd_setTimer j fun v => { v.timer j with cmp := add16 (v.armBase j) x, dly := x, armed := true }) :)

theorem actsOnVtd_cancelTimer (j : Timer) : ActsOnVtd C (cancelTimer j) :=
  (actsOnVtd_rescheduleAndRespond.comp
    (actsOnVtd_setTimer j fun v => { v.timer j with armed := false, dly := 0 }) :)

theorem actsOnVtd_fireBookkeeping (j : Timer) : ActsOnVtd C (fireBookkeeping j) :=
  .update fun v => v.fireBookkeeping j

theorem actsOnVtd_raiseFault (f : VtdFault) : ActsOnVtd C (raiseFault f) :=
  .update fun v => { v with flt := v.flt ||| f.bit, phase := .faulted }

theorem actsOnVtd_emitFire (j : Timer) (ph : Phase) : ActsOnVtd C (emitFire j ph) :=
  .ite (fun v => (v.timer j).cbv = true)
    (.reading (k := fun v s => { s with vtd := { s.vtd with cur := j, phase := ph } }.emit (.fire j (v.timer j).cb))
      fun v => (ActsOnVtd.comp (.emit (.fire j (v.timer j).cb)) (.update fun w => { w with cur := j, phase := ph }) :))
    (.comp (actsOnVtd_raiseFault .nocb) (.update fun v => { v with cur := j }))

/-- The answer to a late fire of timer `i`, by the phase the fire left (41_vtd_commands.md R160). -/
def answerLateFire (i : Timer) (s : State) : State :=
  if s.vtd.phase = .faulted then s.respond .faultNow 0 else s.respond .ok (lateFirePayload i)

theorem lateFire_eq (s : State) :
    lateFire s = answerLateFire s.vtd.next (emitFire s.vtd.next .cbLate (fireBookkeeping s.vtd.next s)) := rfl

theorem actsOnVtd_answerLateFire (i : Timer) : ActsOnVtd C (answerLateFire i) :=
  .ite (fun v => v.phase = .faulted) (.respond .faultNow 0) (.respond .ok (lateFirePayload i))

theorem actsOnVtd_lateFire : ActsOnVtd C lateFire := by
  have hlate : ∀ i, ActsOnVtd C (fun s => answerLateFire i (emitFire i .cbLate (fireBookkeeping i s))) := fun i =>
    (actsOnVtd_answerLateFire i).comp ((actsOnVtd_emitFire i .cbLate).comp (actsOnVtd_fireBookkeeping i))
  rw [funext lateFire_eq]
  exact .reading fun v => hlate v.next

theorem actsOnVtd_countLateReturn : ActsOnVtd C countLateReturn :=
  .ite (fun v => v.phase = .cbLate)
    (.comp actsOnVtd_handlerReschedule (.update fun v => { v with late := inc16 v.late })) .idle

/-- The end of the handler, as `catchUp_ends` says it (41_vtd_commands.md R160). -/
def endHandler (s : State) : State := { s with vtd := { s.vtd with phase := .idle } }.respond .ok 0

theorem actsOnVtd_endHandler : ActsOnVtd C endHandler :=
  (ActsOnVtd.comp (.respond .ok 0) (.update fun v => { v with phase := .idle }) :)

/-- The catch-up test samples the counter (00_scope.md R10). -/
theorem actsOnVtd_catchUp (c : Reg16) : ActsOnVtd {c} catchUp :=
  .sampling (k := fun c s => if s.vtd.hdist < dist16 c s.vtd.tentry then lateFire s else endHandler s)
    (.ite (fun v => v.hdist < dist16 c v.tentry) actsOnVtd_lateFire actsOnVtd_endHandler)

theorem actsOnVtd_callbackReturn (c : Reg16) : ActsOnVtd {c} callbackReturn :=
  ((actsOnVtd_catchUp c).comp actsOnVtd_countLateReturn :)

/-- The handler's entry samples the counter (00_scope.md R10). -/
theorem actsOnVtd_enterHandler (c : Reg16) : ActsOnVtd {c} enterHandler := by
  have hentry : ActsOnVtd {c} (fun s => { s with vtd := { s.vtd with tentry := s.cnt } }) :=
    .sampling (k := fun c s => { s with vtd := { s.vtd with tentry := c } }) (.update fun v => { v with tentry := c })
  have hfire : ∀ i, ActsOnVtd {c} (fun s =>
      emitFire i .cbFirst
        (handlerReschedule (fireBookkeeping i { s with vtd := { s.vtd with tentry := s.cnt } }))) := fun i =>
    (actsOnVtd_emitFire i .cbFirst).comp
      (actsOnVtd_handlerReschedule.comp ((actsOnVtd_fireBookkeeping i).comp hentry))
  exact .ite (fun v => v.nextv = true) (.reading fun v => hfire v.next) (.comp (actsOnVtd_raiseFault .nextUnset) hentry)

theorem actsOnVtd_takeIrq (c : Reg16) : ActsOnVtd {c} takeIrq :=
  .ite (fun v => v.phase = .idle) (actsOnVtd_enterHandler c) .idle

theorem actsOnVtd_answerIllegal : ActsOnVtd C answerIllegal := .respond .eIllegal 0

end

end Sys2Proof.Machine
end

section
/-! Every command is an action of one of the two units (00_scope.md R2), and of the VTD unit's commands only `VT_CBRET`
samples the counter (00_scope.md R10). -/

namespace Sys2Proof.Machine

/-! ### Actions of the FCC unit -/

/-- What `g` leaves in the FCC unit and what it emits are functions of the parameters and that unit alone, and `g` changes
nothing else. -/
def ActsOnFcc (g : State → State) : Prop :=
  ∃ F : Params → Fcc → Fcc × List Output, ∀ s,
    g s = { s with fcc := (F s.cfg s.fcc).1, outs := s.outs ++ (F s.cfg s.fcc).2 }

namespace ActsOnFcc

variable {g : State → State}

theorem vtd_eq (hg : ActsOnFcc g) (s : State) : (g s).vtd = s.vtd := by
  obtain ⟨F, hF⟩ := hg
  rw [hF s]

/-- From two states with the same parameters and FCC unit an action leaves the same unit and emits the same. -/
theorem agree (hg : ActsOnFcc g) {s s' : State} (hp : s.cfg = s'.cfg) (hf : s.fcc = s'.fcc) :
    (g s).fcc = (g s').fcc ∧ ∃ o, (g s).outs = s.outs ++ o ∧ (g s').outs = s'.outs ++ o := by
  obtain ⟨F, hF⟩ := hg
  rw [hF s, hF s', hp, hf]
  exact ⟨rfl, _, rfl, rfl⟩

theorem cnt_irrelevant (hg : ActsOnFcc g) (s : State) (c : Reg16) : g { s with cnt := c } = { g s with cnt := c } := by
  obtain ⟨F, hF⟩ := hg
  rw [hF s, hF]

end ActsOnFcc

/-! ### Reading a register -/

/-- The register numbers of the VTD unit and the holes between them and after them (10_state.md R45). -/
abbrev isVtdNumber (rn : BitVec 8) : Prop := 0x10 ≤ rn.toNat ∧ rn.toNat < 0x40

/-- A register outside the VTD unit's numbers is a function of the parameters and the FCC unit. -/
theorem readRegister_congr_fcc {s s' : State} {rn : BitVec 8} (h : ¬ isVtdNumber rn) (hp : s.cfg = s'.cfg)
    (hf : s.fcc = s'.fcc) : readRegister s rn = readRegister s' rn := by
  unfold readRegister
  rw [hp, hf]
  -- the arms of VTD registers cannot be taken; the others read the same on both sides
  split <;> first | rfl | omega

/-- A register of the VTD unit's numbers is a function of that unit. -/
theorem readRegister_congr_vtd {s s' : State} {rn : BitVec 8} (h : isVtdNumber rn) (hv : s.vtd = s'.vtd) :
    readRegister s rn = readRegister s' rn := by
  unfold readRegister
  rw [hv]
  -- the arms of FCC registers cannot be taken, and the last one is a hole on both sides
  split <;> first | rfl | omega | rw [if_neg (by omega), if_neg (by omega)]

/-- The response to `RDREG` of a register with the value `r` (41_vtd_commands.md R130). -/
def registerAnswer : Option Reg16 → Output
  | some v => .resp (respWord .ok (v.setWidth 28))
  | none => .resp (respWord .eRange 0)

theorem exec_rdreg_eq (rn : BitVec 8) (s : State) :
    exec (.rdreg rn) s = .next (s.emit (registerAnswer (readRegister s rn))) := by
  simp only [exec, execRdreg]
  cases readRegister s rn <;> rfl

/-! ### Every command is an action of one unit -/

/-- The command `i` always answers, by an action of the FCC unit. -/
def RunsOnFcc (i : Instr) : Prop :=
  ∃ g, ActsOnFcc g ∧ ∀ s, exec i s = .next (g s)

/-- The command `i` always answers, by an action of the VTD unit at the counter values of `C`. -/
def RunsOnVtd (C : Set Reg16) (i : Instr) : Prop :=
  ∃ g, ActsOnVtd C g ∧ ∀ s, exec i s = .next (g s)

theorem RunsOnVtd.mono {C D : Set Reg16} {i : Instr} (hi : RunsOnVtd C i) (hD : D ⊆ C) : RunsOnVtd D i := by
  obtain ⟨g, hg, he⟩ := hi
  exact ⟨g, hg.mono hD, he⟩

/-- A command behind the check of 30_encoding.md R88 (2). -/
theorem runsOnVtd_of_unlessFaulted {C : Set Reg16} {i : Instr} {r : State → State} (hr : ActsOnVtd C r)
    (he : ∀ s, exec i s = unlessFaulted s (r s)) : RunsOnVtd C i := by
  refine ⟨_, .ite (fun v => v.phase = .faulted) (.respond .eFaulted 0) hr, fun s => ?_⟩
  rw [he, unlessFaulted]
  split <;> rfl

theorem runsOnFcc_rdreg {rn : BitVec 8} (h : ¬ isVtdNumber rn) : RunsOnFcc (.rdreg rn) := by
  refine ⟨_, ⟨fun p f => (f, [registerAnswer (readRegister { State.reset with cfg := p, fcc := f } rn)]), fun s => ?_⟩,
    exec_rdreg_eq rn⟩
  rw [readRegister_congr_fcc (s := s) (s' := { State.reset with cfg := s.cfg, fcc := s.fcc }) h rfl rfl]
  rfl

theorem runsOnVtd_rdreg {rn : BitVec 8} (h : isVtdNumber rn) : RunsOnVtd Set.univ (.rdreg rn) := by
  refine ⟨_, ⟨fun v => (v, [registerAnswer (readRegister { State.reset with vtd := v } rn)]), fun s _ => ?_⟩,
    exec_rdreg_eq rn⟩
  rw [readRegister_congr_vtd (s := s) (s' := { State.reset with vtd := s.vtd }) h rfl]
  rfl

/-- A command answered by `OK` after a change of the FCC unit. -/
theorem runsOnFcc_of_ok {i : Instr} {f : Params → Fcc → Fcc} {p : Params → Fcc → BitVec 28}
    (he : ∀ s, exec i s = .next ({ s with fcc := f s.cfg s.fcc }.respond .ok (p s.cfg s.fcc))) : RunsOnFcc i :=
  ⟨_, ⟨fun q u => (f q u, [.resp (respWord .ok (p q u))]), fun _ => rfl⟩, he⟩

/-- A command answered by `E_RANGE` that leaves the machine alone. -/
theorem runsOnFcc_of_eRange {i : Instr} (he : ∀ s, exec i s = .next (s.respond .eRange 0)) : RunsOnFcc i :=
  ⟨_, ⟨fun _ u => (u, [.resp (respWord .eRange 0)]), fun _ => rfl⟩, he⟩

/-- The `FC_*` commands. -/
theorem runsOnFcc_of_fc {i : Instr} (hi : i.isVt = false) (hr : ∀ rn, i ≠ .rdreg rn) : RunsOnFcc i := by
  cases i with
  | rdreg rn => exact absurd rfl (hr rn)
  | fcLd idx d =>
    by_cases hb : isBufferIndex idx = true
    · exact runsOnFcc_of_ok (f := fun _ u => { u with rxbuf := Memory.write u.rxbuf idx.toNat d }) (p := fun _ _ => 0)
        fun s => if_pos hb
    · exact runsOnFcc_of_eRange fun s => if_neg hb
  | fcRd idx =>
    by_cases hb : isBufferIndex idx = true
    · exact runsOnFcc_of_ok (f := fun _ u => u) (p := fun _ u => (Memory.read u.rxbuf idx.toNat).setWidth 28)
        fun s => if_pos hb
    · exact runsOnFcc_of_eRange fun s => if_neg hb
  | fcVal len hw =>
    exact runsOnFcc_of_ok (f := fun q u => u.validate q len hw)
      (p := fun q u => (u.validate q len hw).fcres.setWidth 28) fun s => rfl
  | _ => simp [Instr.isVt] at hi

/-- The `VT_*` commands that do not sample the counter. -/
theorem runsOnVtd_of_ne_cbret {i : Instr} (hi : i.isVt = true) (hc : i ≠ .vtCbret) : RunsOnVtd Set.univ i := by
  cases i with
  | vtSetcbSlot tag => exact runsOnVtd_of_unlessFaulted (actsOnVtd_setCallback .slot tag) fun _ => rfl
  | vtSetcbPeriod tag => exact runsOnVtd_of_unlessFaulted (actsOnVtd_setCallback .period tag) fun _ => rfl
  | vtSetcbOffset tag => exact runsOnVtd_of_unlessFaulted (actsOnVtd_setCallback .offset tag) fun _ => rfl
  | vtArmSlot v => exact runsOnVtd_of_unlessFaulted (actsOnVtd_armTimer .slot v) fun _ => rfl
  | vtArmPeriod v => exact runsOnVtd_of_unlessFaulted (actsOnVtd_armTimer .period v) fun _ => rfl
  | vtArmOffset v => exact runsOnVtd_of_unlessFaulted (actsOnVtd_armTimer .offset v) fun _ => rfl
  | vtCancelSlot => exact runsOnVtd_of_unlessFaulted (actsOnVtd_cancelTimer .slot) fun _ => rfl
  | vtCancelPeriod => exact runsOnVtd_of_unlessFaulted (actsOnVtd_cancelTimer .period) fun _ => rfl
  | vtCancelOffset => exact runsOnVtd_of_unlessFaulted (actsOnVtd_cancelTimer .offset) fun _ => rfl
  | vtCbret => exact absurd rfl hc
  | _ => simp [Instr.isVt] at hi

theorem runsOnVtd_cbret (c : Reg16) : RunsOnVtd {c} .vtCbret :=
  runsOnVtd_of_unlessFaulted
    (.ite (fun v => v.phase = .idle) (.respond .ePhase 0) (actsOnVtd_callbackReturn c)) fun _ => rfl

/-- The `VT_*` commands, at one counter value. -/
theorem runsOnVtd_of_vt {i : Instr} (hi : i.isVt = true) (c : Reg16) : RunsOnVtd {c} i := by
  by_cases hc : i = .vtCbret
  · exact hc ▸ runsOnVtd_cbret c
  · exact (runsOnVtd_of_ne_cbret hi hc).mono (Set.subset_univ _)

/-- Every command but `VT_CBRET` is an action of one of the two units, and samples nothing. -/
theorem runsOnFcc_or_runsOnVtd {i : Instr} (hc : i ≠ .vtCbret) : RunsOnFcc i ∨ RunsOnVtd Set.univ i := by
  cases hi : i.isVt with
  | true => exact .inr (runsOnVtd_of_ne_cbret hi hc)
  | false =>
    by_cases hr : ∃ rn, i = .rdreg rn
    · obtain ⟨rn, rfl⟩ := hr
      by_cases h : isVtdNumber rn
      · exact .inr (runsOnVtd_rdreg h)
      · exact .inl (runsOnFcc_rdreg h)
    · exact .inl (runsOnFcc_of_fc hi (not_exists.mp hr))

theorem runsOnFcc_or_runsOnVtd_at (i : Instr) (c : Reg16) : RunsOnFcc i ∨ RunsOnVtd {c} i := by
  by_cases hc : i = .vtCbret
  · exact .inr (hc ▸ runsOnVtd_cbret c)
  · exact (runsOnFcc_or_runsOnVtd hc).imp_right fun h => h.mono (Set.subset_univ _)

/-! ### Every step is an action of one unit, or the reset of both -/

theorem step_of_exec {s : State} {w : Word32} {c : Reg16} {rest : List Input} {i : Instr} {g : State → State}
    (hd : decode w = .ok i) (he : ∀ s, exec i s = .next (g s)) (hs : s.inputs = ⟨.cmd w, c⟩ :: rest) :
    step s = .next (g (s.take c rest)) := by
  rw [step_cmd hs, takeCommand_ok hd, he]

/-- What taking the event `e` at the counter value `c` is: `RESET`, or an action of one unit. -/
theorem step_acts (e : Event) (c : Reg16) :
    ∃ g, (g = takeReset ∨ ActsOnFcc g ∨ ActsOnVtd {c} g)
      ∧ ∀ s rest, s.inputs = ⟨e, c⟩ :: rest → step s = .next (g (s.take c rest)) := by
  cases e with
  | reset => exact ⟨takeReset, .inl rfl, fun s rest h => step_reset h⟩
  | irq => exact ⟨takeIrq, .inr (.inr (actsOnVtd_takeIrq c)), fun s rest h => step_irq h⟩
  | cmd w =>
    cases hd : decode w with
    | error e =>
      exact ⟨answerIllegal, .inr (.inr actsOnVtd_answerIllegal), fun s rest h => by
        rw [step_cmd h, takeCommand_error hd]⟩
    | ok i =>
      rcases runsOnFcc_or_runsOnVtd_at i c with ⟨g, hg, he⟩ | ⟨g, hg, he⟩
      · exact ⟨g, .inr (.inl hg), fun s rest => step_of_exec hd he⟩
      · exact ⟨g, .inr (.inr hg), fun s rest => step_of_exec hd he⟩

end Sys2Proof.Machine
end

section
/-! The statements of 00_scope.md. -/

namespace Sys2Proof.Machine

/-! ### Commands and responses (R8, R9) -/

/-- Settles O5: taking the input, then the dispatch on what the word decodes to. -/
theorem stepRunsTheDecodedCommand : Obligations.StepRunsTheDecodedCommand := by
  intro s w c rest i hin hd
  rw [step_cmd hin, takeCommand_ok hd]
  rfl

/-- The outputs hold no response word. -/
def Unanswered (o : List Output) : Prop := ∀ x ∈ o, x.isResp = false

theorem unanswered_nil : Unanswered [] := List.forall_mem_nil _

theorem unanswered_cmpwr (v : Reg16) : Unanswered [.cmpwr v] := List.forall_mem_singleton.mpr rfl

theorem unanswered_fire (i : Timer) (tag : Reg16) : Unanswered [.fire i tag] := List.forall_mem_singleton.mpr rfl

theorem Unanswered.append {o o' : List Output} (h : Unanswered o) (h' : Unanswered o') : Unanswered (o ++ o') :=
  List.forall_mem_append.mpr ⟨h, h'⟩

theorem Vtd.ReschedulesTo.unanswered {v w : Vtd} {found : Bool} {d : Reg16} {o : List Output}
    (h : v.ReschedulesTo w found d o) : Unanswered o := by
  rcases h.emits with ⟨rfl, -⟩ | ⟨x, rfl, -⟩
  · exact unanswered_nil
  · exact unanswered_cmpwr x

theorem Vtd.CommandedTo.unanswered {v w : Vtd} {i : Instr} {o : List Output} (h : v.CommandedTo i w o) :
    Unanswered o := by
  obtain ⟨j, ⟨tag, -, -, rfl⟩ | ⟨x, -, found, d, hr⟩ | ⟨-, found, d, hr⟩⟩ := h
  · exact unanswered_nil
  · exact hr.unanswered
  · exact hr.unanswered

theorem Vtd.CountsTo.unanswered {v w : Vtd} {o : List Output} (h : v.CountsTo w o) : Unanswered o := by
  rcases h with ⟨-, -, rfl⟩ | ⟨-, x, found, d, hr, -⟩
  · exact unanswered_nil
  · exact hr.unanswered

theorem Vtd.CatchesUpTo.unanswered {v w : Vtd} {c : Reg16} {o : List Output} {st : Status}
    (h : v.CatchesUpTo w c o st) : Unanswered o := by
  rcases h with ⟨-, -, rfl, -⟩ | ⟨-, -, -, rfl, -⟩ | ⟨-, -, -, rfl, -⟩
  · exact unanswered_nil
  · exact unanswered_fire _ _
  · exact unanswered_nil

theorem Vtd.InterruptsTo.unanswered {v w : Vtd} {c : Reg16} {o : List Output} (h : v.InterruptsTo w c o) :
    Unanswered o := by
  rcases h with ⟨-, -, rfl⟩ | ⟨-, -, -, rfl⟩ | ⟨-, -, x, found, d, o', hr, ⟨-, -, rfl⟩ | ⟨-, -, rfl⟩⟩
  · exact unanswered_nil
  · exact unanswered_nil
  · exact hr.unanswered.append (unanswered_fire _ _)
  · exact hr.unanswered

/-- What a command emits before its response holds no other response. -/
theorem CommandDoes.unanswered {i : Instr} {f f' : Fcc} {v w : Vtd} {c : Reg16} {o : List Output} {st : Status}
    (h : CommandDoes i f v c f' w o st) : Unanswered o := by
  rcases h with ⟨-, rfl, -⟩ | ⟨-, -, -, -, hm, -⟩ | ⟨-, -, -, x, o1, o2, hcount, hcatch, rfl⟩
  · exact unanswered_nil
  · exact hm.unanswered
  · exact hcount.unanswered.append hcatch.unanswered

/-- The status field of a response word is a status of 30_encoding.md R83. -/
theorem respStatus_respWord_mem (st : Status) (p : BitVec 28) :
    respStatus (respWord st p) ∈ ([0x0, 0x1, 0x2, 0x3, 0xE, 0xF] : List (BitVec 4)) := by
  rw [respStatus, respWord_status]
  cases st <;> decide

/-- Settles O8, by the kinds of transition: a word, legal or not, ends in its response; nothing else emits one. -/
theorem eachCommandIsAnsweredOnce : Obligations.EachCommandIsAnsweredOnce := by
  intro s t h
  rcases step_cases h with ⟨hin, rfl⟩ | ⟨c, rest, hin, rfl⟩ | ⟨c, rest, w, o, hin, hi, rfl⟩
    | ⟨u, c, rest, e, hin, -, rfl⟩ | ⟨u, c, rest, i, f, w, o, st, p, hin, -, hm, rfl⟩
  case inl => exact ⟨[], by simp, by simp [hin], fun _ => unanswered_nil⟩
  case inr.inl => exact ⟨[], by simp, by simp [hin], fun _ => unanswered_nil⟩
  case inr.inr.inl => exact ⟨o, rfl, by simp [hin], fun _ => hi.unanswered⟩
  case inr.inr.inr.inl =>
    exact ⟨_, rfl, fun _ _ _ _ => ⟨[], _, rfl, unanswered_nil, respStatus_respWord_mem .eIllegal 0⟩,
      fun hno => absurd hin (hno u c rest)⟩
  case inr.inr.inr.inr =>
    exact ⟨_, List.append_assoc .., fun _ _ _ _ => ⟨o, _, rfl, hm.unanswered, respStatus_respWord_mem st p⟩,
      fun hno => absurd hin (hno u c rest)⟩

/-! ### The parameters (R6) -/

/-- Settles O16. -/
theorem stepKeepsTheParameters : Obligations.StepKeepsTheParameters :=
  fun _ _ h => (step_fcc_unit h).1

/-! ### The counter (R10) -/

/-- Settles O55: a command other than `VT_CBRET` is an action of one unit, for all counter values alike. -/
theorem otherCommandsDoNotSampleTheCounter : Obligations.OtherCommandsDoNotSampleTheCounter := by
  intro s i c hc
  rcases runsOnFcc_or_runsOnVtd hc with ⟨g, hg, he⟩ | ⟨g, hg, he⟩
  · exact ⟨g s, he s, by rw [he, hg.cnt_irrelevant]⟩
  · exact ⟨g s, he s, by rw [he, hg.cnt_irrelevant]⟩

/-! ### The two units (R2) -/

/-- Two steps, `s` to `t` and `s'` to `t'`, emit the same. -/
abbrev EmitSame (s t s' t' : State) : Prop := ∃ o, t.outs = s.outs ++ o ∧ t'.outs = s'.outs ++ o

section
variable {s s' t t' : State} (hp : s.cfg = s'.cfg) (hin : s.inputs = s'.inputs) (h : step s = .next t)
  (h' : step s' = .next t')
include hin h h'

include hp in
/-- A step leaves in the FCC unit what depends on the parameters, the input and that unit alone. -/
theorem step_fcc_congr (hf : s.fcc = s'.fcc) : t.fcc = t'.fcc := by
  cases hs : s.inputs with
  | nil => simp_all [step]
  | cons x rest =>
    obtain ⟨g, hg, hstep⟩ := step_acts x.event x.cnt
    obtain rfl := Host.Outcome.next.inj (h.symm.trans (hstep s rest hs))
    obtain rfl := Host.Outcome.next.inj (h'.symm.trans (hstep s' rest (hin ▸ hs)))
    rcases hg with rfl | hg | hg
    · simp [hp]
    · exact (hg.agree (s := s.take x.cnt rest) (s' := s'.take x.cnt rest) hp hf).1
    · rw [hg.fcc_eq (Set.mem_singleton _), hg.fcc_eq (Set.mem_singleton _)]
      exact hf

/-- A step leaves in the VTD unit what depends on the input and that unit alone. -/
theorem step_vtd_congr (hv : s.vtd = s'.vtd) : t.vtd = t'.vtd := by
  cases hs : s.inputs with
  | nil => simp_all [step]
  | cons x rest =>
    obtain ⟨g, hg, hstep⟩ := step_acts x.event x.cnt
    obtain rfl := Host.Outcome.next.inj (h.symm.trans (hstep s rest hs))
    obtain rfl := Host.Outcome.next.inj (h'.symm.trans (hstep s' rest (hin ▸ hs)))
    rcases hg with rfl | hg | hg
    · rfl
    · rw [hg.vtd_eq, hg.vtd_eq]
      exact hv
    · exact (hg.agree (s := s.take x.cnt rest) (s' := s'.take x.cnt rest) rfl rfl hv).1

include hp in
theorem emitSame_of_runsOnFcc {i : Instr} (hi : RunsOnFcc i) (ho : s.offersCommand i) (hf : s.fcc = s'.fcc) :
    EmitSame s t s' t' := by
  obtain ⟨g, hg, he⟩ := hi
  obtain ⟨w, c, rest, hs, hd⟩ := ho
  obtain rfl := Host.Outcome.next.inj (h.symm.trans (step_of_exec hd he hs))
  obtain rfl := Host.Outcome.next.inj (h'.symm.trans (step_of_exec hd he (hin ▸ hs)))
  exact (hg.agree (s := s.take c rest) (s' := s'.take c rest) hp hf).2

theorem emitSame_of_runsOnVtd {i : Instr} (hi : ∀ c, RunsOnVtd {c} i) (ho : s.offersCommand i) (hv : s.vtd = s'.vtd) :
    EmitSame s t s' t' := by
  obtain ⟨w, c, rest, hs, hd⟩ := ho
  obtain ⟨g, hg, he⟩ := hi c
  obtain rfl := Host.Outcome.next.inj (h.symm.trans (step_of_exec hd he hs))
  obtain rfl := Host.Outcome.next.inj (h'.symm.trans (step_of_exec hd he (hin ▸ hs)))
  exact (hg.agree (s := s.take c rest) (s' := s'.take c rest) rfl rfl hv).2

theorem emitSame_of_irq (ho : s.offersIrq) (hv : s.vtd = s'.vtd) : EmitSame s t s' t' := by
  obtain ⟨c, rest, hs⟩ := ho
  obtain rfl := Host.Outcome.next.inj (h.symm.trans (step_irq hs))
  obtain rfl := Host.Outcome.next.inj (h'.symm.trans (step_irq (hin ▸ hs)))
  exact ((actsOnVtd_takeIrq c).agree (s := s.take c rest) (s' := s'.take c rest) rfl rfl hv).2

end

/-- A `VT_*` command leaves the FCC unit alone. -/
theorem exec_vt_fcc {i : Instr} (hi : i.isVt = true) {s t : State} (h : exec i s = .next t) : t.fcc = s.fcc := by
  obtain ⟨g, hg, he⟩ := runsOnVtd_of_vt hi s.cnt
  obtain rfl := Host.Outcome.next.inj (h.symm.trans (he s))
  exact hg.fcc_eq rfl

/-- An `FC_*` command and `RDREG` leave the VTD unit alone. -/
theorem exec_fcc_vtd {i : Instr} (hi : i.isVt = false) {s t : State} (h : exec i s = .next t) : t.vtd = s.vtd := by
  obtain ⟨f, st, p, -, he⟩ := exec_fcc_cases hi s
  obtain rfl := Host.Outcome.next.inj (h.symm.trans he)
  rfl

/-- Settles O54: every input but `RESET` is an action of one unit, and `RESET` gives each unit its value after reset. -/
theorem unitsDoNotInterfere : Obligations.UnitsDoNotInterfere := by
  refine ⟨fun s s' t t' hp hin h h' => ⟨fun hf => ⟨?_, ?_, ?_⟩, fun hv => ⟨?_, ?_, ?_, ?_⟩⟩,
    fun s t i h => ⟨fun hi => exec_vt_fcc hi h, fun hi => exec_fcc_vtd hi h⟩⟩
  · exact step_fcc_congr hp hin h h' hf
  · exact fun i ho hi hr => emitSame_of_runsOnFcc hp hin h h' (runsOnFcc_of_fc hi hr) ho hf
  · exact fun rn ho hrn => emitSame_of_runsOnFcc hp hin h h' (runsOnFcc_rdreg (by unfold isVtdNumber; omega)) ho hf
  · exact step_vtd_congr hin h h' hv
  · exact fun ho => emitSame_of_irq hin h h' ho hv
  · exact fun i ho hi => emitSame_of_runsOnVtd hin h h' (runsOnVtd_of_vt hi) ho hv
  · exact fun rn ho hlo hhi =>
      emitSame_of_runsOnVtd hin h h' (fun _ => (runsOnVtd_rdreg ⟨hlo, hhi⟩).mono (Set.subset_univ _)) ho hv

end Sys2Proof.Machine
end

section
/-! The FCC unit's invariants (10_state.md R25 to R28): what `RESET`, `FC_LD` and `FC_VAL` keep. -/

namespace Sys2Proof.Machine

/-! ### After `RESET` (10_state.md R48) -/

@[simp] theorem Fcc.reset_entry (depth e : Nat) : (Fcc.reset depth).entry e = CacheEntry.reset := by
  simp only [Fcc.entry, Fcc.reset, List.getD_eq_getElem?_getD, List.getElem?_replicate]
  split <;> rfl

theorem Fcc.reset_storesCanonical (depth : Nat) : (Fcc.reset depth).storesCanonical := by
  refine ⟨Memory.wf_nil, List.forall_mem_nil _, fun c hc => ?_⟩
  obtain rfl : c = CacheEntry.reset := List.eq_of_mem_replicate hc
  exact ⟨Memory.wf_nil, List.forall_mem_nil _⟩

/-- The empty cache: no entry is valid, and the write pointer is at the first. -/
theorem Fcc.reset_cacheInv {p : Params} (hp : p.wf) : (Fcc.reset p.cacheDepth).cacheInv p := by
  have hinvalid : ∀ e, ((Fcc.reset p.cacheDepth).entry e).valid = false := fun e => by
    rw [Fcc.reset_entry]; rfl
  refine ⟨List.length_replicate, hp.1, fun c hc => ?_, .inr fun e _ => ?_, fun e _ hv => ?_,
    fun _ => ⟨rfl, fun e _ => hinvalid e⟩⟩
  · obtain rfl : c = CacheEntry.reset := List.eq_of_mem_replicate hc
    exact Nat.zero_le _
  · rw [hinvalid]; rfl
  · rw [hinvalid] at hv; cases hv

theorem Fcc.reset_resultInv (depth : Nat) : (Fcc.reset depth).resultInv := by
  simp only [Fcc.resultInv, Fcc.reset]
  decide

/-! ### The cache (10_state.md R28) -/

/-- The cache invariants speak of the entries and the write pointer alone. -/
theorem Fcc.cacheInv.congr {p : Params} {f g : Fcc} (h : f.cacheInv p) (hcache : g.cache = f.cache)
    (hcwr : g.cwr = f.cwr) : g.cacheInv p := by
  have hentry : g.entry = f.entry := funext fun e => by rw [Fcc.entry, hcache, Fcc.entry]
  unfold Fcc.cacheInv
  rw [hcache, hcwr, hentry]
  exact h

/-- The entry an insertion writes holds the frame inserted. -/
theorem Fcc.insert_entry_frame {f : Fcc} (hcwr : f.cwr < f.cache.length) (hwf : (f.entry f.cwr).data.wf) (depth : Nat)
    (len : Byte) :
    ((f.insert depth len (f.frame len.toNat)).entry f.cwr).frame = f.frame len.toNat := by
  rw [Fcc.insert_entry_same hcwr, CacheEntry.frame]
  simpa using Memory.prefixBytes_writeFrom hwf (f.frame len.toNat)

/-- An insertion sets the valid bit of the entry it writes and no other. -/
theorem Fcc.insert_entry_valid {f : Fcc} (hcwr : f.cwr < f.cache.length) (depth : Nat) (len : Byte) (n : List Byte)
    (e : Nat) : ((f.insert depth len n).entry e).valid = (decide (e = f.cwr) || (f.entry e).valid) := by
  by_cases he : e = f.cwr
  · subst he; simp [Fcc.insert_entry_same hcwr]
  · simp [Fcc.insert_entry_other f he, he]

/-- Inserting a failed frame of legal length keeps the cache invariants (40_fcc_commands.md R105): the entries fill up in
index order, and from the last one on all of them stay valid. -/
theorem Fcc.cacheInv.insert {p : Params} {f : Fcc} (hinv : f.cacheInv p) (hwf : (f.entry f.cwr).data.wf) {len : Byte}
    (hlen : len.toNat ≤ Config.maxLen) (hmode : p.crcMode = .sw)
    (hfail : crcOk p.frameCheck (f.frame len.toNat) = false) :
    (f.insert p.cacheDepth len (f.frame len.toNat)).cacheInv p := by
  obtain ⟨hdepth, hcwr, hlens, hvalid, hcrc, -⟩ := hinv
  have hcwr' : f.cwr < f.cache.length := hdepth ▸ hcwr
  have hnext : (f.insert p.cacheDepth len (f.frame len.toNat)).cwr = (f.cwr + 1) % p.cacheDepth := rfl
  refine ⟨?_, Nat.mod_lt _ (by omega), fun c hc => ?_, ?_, fun e he hv => ?_, fun hhw => ?_⟩
  · simpa [Fcc.insert] using hdepth
  · rcases List.mem_or_eq_of_mem_set hc with hc | rfl
    · exact hlens c hc
    · exact hlen
  · simp only [Fcc.insert_entry_valid hcwr', hnext]
    rcases hvalid with hall | hfirst
    · exact .inl fun e he => by simp [hall e he]
    · rcases Nat.lt_or_ge (f.cwr + 1) p.cacheDepth with hroom | hfull
      · refine .inr fun e he => ?_
        rw [hfirst e he, Nat.mod_eq_of_lt hroom, ← Bool.decide_or, decide_eq_decide]
        omega
      · refine .inl fun e he => ?_
        rw [hfirst e he, ← Bool.decide_or, decide_eq_true_iff]
        omega
  · by_cases hec : e = f.cwr
    · rw [hec, Fcc.insert_entry_frame hcwr' hwf]
      exact hfail
    · rw [Fcc.insert_entry_other f hec] at hv ⊢
      exact hcrc e he hv
  · rw [hmode] at hhw; cases hhw

/-- `FC_VAL` keeps the cache invariants: it leaves the cache alone or inserts a frame that failed the check. -/
theorem Fcc.cacheInv.validate {p : Params} {f : Fcc} (hinv : f.cacheInv p) (hstores : f.storesCanonical) (len : Byte)
    (hw : Bool) : (f.validate p len hw).cacheInv p := by
  rcases Fcc.validate_cases p f len hw with ⟨-, he⟩ | ⟨-, -, he⟩ | ⟨-, -, -, he⟩ | ⟨-, -, -, a, -, he⟩
    | ⟨hlen, hmode, hfail, -, he⟩
  case inr.inr.inr.inr =>
    obtain ⟨-, -, hcache⟩ := hstores
    have hcwr : f.cwr < f.cache.length := by
      obtain ⟨hdepth, hcwr, -⟩ := hinv
      exact hdepth ▸ hcwr
    have hwf : (f.entry f.cwr).data.wf := by
      rw [Fcc.entry_eq_getElem hcwr]
      exact (hcache _ (List.getElem_mem hcwr)).1
    rw [he]
    exact (hinv.insert hwf hlen hmode hfail).congr rfl rfl
  all_goals
    rw [he]
    exact hinv.congr rfl rfl

/-- Settles O13, by what a step does to the FCC unit; only `FC_VAL` inserts. -/
theorem stepKeepsTheCacheInvariants : Obligations.StepKeepsTheCacheInvariants := by
  intro s t hp hstores hinv h
  obtain ⟨hcfg, hf | ⟨-, hf⟩ | ⟨idx, d, -, -, hf⟩ | ⟨len, hw, -, hf⟩⟩ := step_fcc_unit h
  · rw [hcfg, hf]; exact hinv
  · rw [hcfg, hf]; exact Fcc.reset_cacheInv hp
  · rw [hcfg, hf]; exact hinv.congr rfl rfl
  · rw [hcfg, hf]; exact hinv.validate hstores len hw

end Sys2Proof.Machine
end

section
/-! The result registers (10_state.md R25). -/

namespace Sys2Proof.Machine

/-! ### The fields of `FCPOS` and `FCENT` -/

/-- The field `p1` of a packed `FCPOS`. -/
theorem fcposWord_p1 {p1 p2 : Nat} (h1 : p1 < 128) (h2 : p2 < 128) :
    ((fcposWord p1 p2).extractLsb' 0 8).toNat = p1 := by
  rw [BitVec.extractLsb'_toNat, fcposWord_toNat h1 h2, Nat.shiftRight_zero]
  omega

/-- The field `p2` of a packed `FCPOS`. -/
theorem fcposWord_p2 {p1 p2 : Nat} (h1 : p1 < 128) (h2 : p2 < 128) :
    ((fcposWord p1 p2).extractLsb' 8 8).toNat = p2 := by
  rw [BitVec.extractLsb'_toNat, fcposWord_toNat h1 h2, Nat.shiftRight_eq_div_pow]
  omega

/-- The two reserved bits of a packed `FCPOS`. -/
theorem fcposWord_reserved {p1 p2 : Nat} (h1 : p1 < 128) (h2 : p2 < 128) :
    (fcposWord p1 p2).getLsbD 7 = false ∧ (fcposWord p1 p2).getLsbD 15 = false := by
  simp only [BitVec.getLsbD, fcposWord_toNat h1 h2, Nat.testBit_eq_decide_div_mod_eq, decide_eq_false_iff_not]
  omega

/-- The ten reserved bits of a packed `FCENT`. -/
theorem fcentWord_reserved (e : Nat) : (fcentWord e).extractLsb' 6 10 = 0 := by
  apply BitVec.eq_of_toNat_eq
  have he : (BitVec.ofNat 6 e).toNat < 2 ^ 6 := BitVec.isLt _
  rw [BitVec.extractLsb'_toNat, fcentWord, BitVec.toNat_setWidth, Nat.shiftRight_eq_div_pow]
  show _ = 0
  omega

/-! ### The invariant -/

/-- A verdict without an accepted trial keeps the layout. -/
theorem Fcc.verdict_resultInv (f : Fcc) (len : Byte) {v : Verdict} (hv : v ≠ .passCombined) :
    (f.verdict len v).resultInv := by
  simp only [Fcc.resultInv, Fcc.verdict, fcresVerdict_fcresWord, fcresPass_fcresWord, fcresWord_reserved,
    fcresWord_combo]
  cases v with
  | passCombined => exact absurd rfl hv
  | _ => simp [Verdict.code, Verdict.pass]

/-- `PASS_COMBINED` keeps the layout: the two positions are rising and inside the frame. -/
theorem Fcc.verdictCombined_resultInv (f : Fcc) {len : Byte} {a : Accepted} (hlen : len.toNat ≤ 127)
    (h12 : a.p1 < a.p2) (h2 : a.p2 < len.toNat) : (f.verdictCombined len a).resultInv := by
  have hp1 : a.p1 < 128 := by omega
  have hp2 : a.p2 < 128 := by omega
  obtain ⟨hbit7, hbit15⟩ := fcposWord_reserved hp1 hp2
  have hpos : (fcposWord a.p1 a.p2).extractLsb' 0 8 < (fcposWord a.p1 a.p2).extractLsb' 8 8
      ∧ (fcposWord a.p1 a.p2).extractLsb' 8 8 < len := by
    rw [BitVec.lt_def, BitVec.lt_def, fcposWord_p1 hp1 hp2, fcposWord_p2 hp1 hp2]
    exact ⟨h12, h2⟩
  simp only [Fcc.resultInv, Fcc.verdictCombined, fcresVerdict_fcresWord, fcresPass_fcresWord, fcresWord_reserved,
    fcresWord_len, fcentWord_reserved, hbit7, hbit15]
  exact ⟨trivial, by decide, by decide, by decide, fun h => absurd rfl h, fun _ => ⟨hpos.1, hpos.2, hlen⟩, trivial,
    trivial, trivial⟩

/-- `FC_VAL` leaves registers that meet the invariant, whatever they held before. -/
theorem Fcc.validate_resultInv (p : Params) (f : Fcc) (len : Byte) (hw : Bool) : (f.validate p len hw).resultInv := by
  rcases Fcc.validate_cases p f len hw with ⟨-, he⟩ | ⟨-, -, he⟩ | ⟨-, -, -, he⟩ | ⟨hlen, -, -, a, ha, he⟩
    | ⟨-, -, -, -, he⟩
  case inr.inr.inr.inl =>
    obtain ⟨-, htry, -⟩ := searchCache_eq_some.mp ha
    obtain ⟨-, -, -, ⟨h12, h2, -⟩, -⟩ := tryEntry_eq_some.mp htry
    rw [Fcc.frame_length] at h2
    rw [he]
    exact Fcc.verdictCombined_resultInv _ hlen h12 h2
  all_goals
    rw [he]
    exact Fcc.verdict_resultInv _ _ (by decide)

/-- Settles O15, by what a step does to the FCC unit. -/
theorem stepKeepsTheResultRegisters : Obligations.StepKeepsTheResultRegisters := by
  intro s t hinv h
  obtain ⟨-, hf | ⟨-, hf⟩ | ⟨idx, d, -, -, hf⟩ | ⟨len, hw, -, hf⟩⟩ := step_fcc_unit h
  · rw [hf]; exact hinv
  · rw [hf]; exact Fcc.reset_resultInv _
  · rw [hf]; exact hinv
  · rw [hf]; exact Fcc.validate_resultInv ..

end Sys2Proof.Machine
end

section
/-! The register map and its two status words (10_state.md R45, R46), and the state after `RESET` (10_state.md R48). -/

namespace Sys2Proof.Machine

/-! ### `RDREG` (R45) -/

/-- `RDREG` of a populated number answers the register's value, zero-extended. -/
theorem exec_rdreg_of_some {s : State} {rn : BitVec 8} {v : Reg16} (h : readRegister s rn = some v) :
    exec (.rdreg rn) s = .next { s with outs := s.outs ++ [.resp (v.setWidth 32)] } := by
  rw [exec_rdreg_eq, h, registerAnswer, respWord_ok_setWidth v (by decide)]
  rfl

/-- `RDREG` of a number that is not populated answers `E_RANGE`. -/
theorem exec_rdreg_of_hole {s : State} {rn : BitVec 8} (h : isRegisterNumber s.cfg.cacheDepth rn = false) :
    exec (.rdreg rn) s = .next { s with outs := s.outs ++ [.resp 0x20000000] } := by
  have hnone : readRegister s rn = none := by rw [← Option.not_isSome_iff_eq_none, readRegister_isSome, h]; decide
  rw [exec_rdreg_eq, hnone]
  rfl

/-- Register `CWR` holds a write pointer below 64 unchanged (10_state.md R27). -/
theorem cwrWord_eq {cwr : Nat} (h : cwr < 64) : cwrWord cwr = BitVec.ofNat 16 cwr := by
  apply BitVec.eq_of_toNat_eq
  simp only [cwrWord, BitVec.toNat_setWidth, BitVec.toNat_ofNat]
  omega

/-- The numbers from 0x40 on are the cache entries' `CINFO`. -/
theorem readRegister_cinfo {s : State} {e : Nat} (he : e < s.cfg.cacheDepth) (h64 : e < 64) :
    readRegister s (BitVec.ofNat 8 (0x40 + e)) = some (cinfoWord (s.fcc.entry e)) := by
  have hrn : (BitVec.ofNat 8 (0x40 + e)).toNat = 0x40 + e := by rw [BitVec.toNat_ofNat]; omega
  unfold readRegister
  rw [hrn]
  -- the arms of the fixed numbers cannot be taken
  split
  case h_22 => rw [if_pos (by omega), Nat.add_sub_cancel_left]
  all_goals omega

/-- The numbers of R45 that no register has. -/
theorem isRegisterNumber_of_hole {depth : Nat} {rn : BitVec 8}
    (h : (0x04 ≤ rn.toNat ∧ rn.toNat ≤ 0x0F) ∨ rn = 0x13 ∨ rn = 0x17 ∨ rn = 0x1B
      ∨ (0x24 ≤ rn.toNat ∧ rn.toNat ≤ 0x3F) ∨ 0x40 + depth ≤ rn.toNat) :
    isRegisterNumber depth rn = false := by
  have hn : (0x04 ≤ rn.toNat ∧ rn.toNat ≤ 0x0F) ∨ rn.toNat = 0x13 ∨ rn.toNat = 0x17 ∨ rn.toNat = 0x1B
      ∨ (0x24 ≤ rn.toNat ∧ rn.toNat ≤ 0x3F) ∨ 0x40 + depth ≤ rn.toNat :=
    h.imp_right (.imp (congrArg _) (.imp (congrArg _) (.imp_left (congrArg _))))
  simp only [isRegisterNumber, List.contains_eq_mem, Bool.or_eq_false_iff, decide_eq_false_iff_not, List.mem_cons,
    List.not_mem_nil, or_false]
  omega

/-- Settles O17, register by register: the table gives each number its value. -/
theorem rdregReadsTheRegisterMap : Obligations.RdregReadsTheRegisterMap := by
  intro s answers reads
  have hreads : ∀ {rn : BitVec 8} {v : Reg16}, readRegister s rn = some v → reads rn v := exec_rdreg_of_some
  refine ⟨⟨hreads rfl, hreads rfl, hreads rfl⟩, fun h => hreads (congrArg some (cwrWord_eq h)),
    ⟨hreads rfl, hreads rfl, hreads rfl⟩, ⟨hreads rfl, hreads rfl, hreads rfl⟩, ⟨hreads rfl, hreads rfl, hreads rfl⟩,
    ⟨hreads rfl, hreads rfl, hreads rfl, hreads rfl⟩, ⟨hreads rfl, hreads rfl, hreads rfl⟩,
    fun e he h64 => hreads (readRegister_cinfo he h64),
    fun rn h => exec_rdreg_of_hole (isRegisterNumber_of_hole h)⟩

/-! ### `VTSTAT` (R46) -/

/-- `VTSTAT` bit by bit, bit 0 first, the two-bit fields by the bits of their codes. -/
theorem vtstatWord_getLsbD (v : Vtd) {k : Nat} (hk : k < 16) :
    (vtstatWord v).getLsbD k =
      [v.slot.armed, v.period.armed, v.offset.armed, false, v.slot.cbv, v.period.cbv, v.offset.cbv, false,
        v.next.code.getLsbD 0, v.next.code.getLsbD 1, v.nextv, v.hwie, v.phase.code.getLsbD 0, v.phase.code.getLsbD 1,
        v.cur.code.getLsbD 0, v.cur.code.getLsbD 1].getD k false := by
  unfold vtstatWord
  iterate 12 rw [BitVec.getLsbD_append]
  interval_cases k
  all_goals simp

/-- A field of two bits, from its bits. -/
theorem extractLsb'_two_eq {r : Reg16} {k : Nat} {x : BitVec 2} (h0 : r.getLsbD k = x.getLsbD 0)
    (h1 : r.getLsbD (k + 1) = x.getLsbD 1) : r.extractLsb' k 2 = x := by
  apply BitVec.eq_of_getLsbD_eq
  intro i hi
  rw [BitVec.getLsbD_extractLsb', decide_eq_true hi, Bool.true_and]
  obtain rfl | rfl : i = 0 ∨ i = 1 := by omega
  · exact h0
  · exact h1

/-- Settles O18: the register is `vtstatWord`, and its bits are the flags. -/
theorem vtstatPacksTheFlags : Obligations.VtstatPacksTheFlags := by
  intro s
  have hbit := fun k : Fin 16 => vtstatWord_getLsbD s.vtd k.isLt
  have hnext : (vtstatWord s.vtd).extractLsb' 8 2 = s.vtd.next.code := extractLsb'_two_eq (hbit 8) (hbit 9)
  have hphase : (vtstatWord s.vtd).extractLsb' 12 2 = s.vtd.phase.code := extractLsb'_two_eq (hbit 12) (hbit 13)
  have hcur : (vtstatWord s.vtd).extractLsb' 14 2 = s.vtd.cur.code := extractLsb'_two_eq (hbit 14) (hbit 15)
  refine ⟨vtstatWord s.vtd, exec_rdreg_of_some rfl, ⟨hbit 0, hbit 1, hbit 2⟩, hbit 3, ⟨hbit 4, hbit 5, hbit 6⟩, hbit 7,
    ?_, ⟨hbit 10, hbit 11⟩, ?_, ?_⟩
  · rw [hnext]; cases s.vtd.next <;> rfl
  · rw [hphase]; cases s.vtd.phase <;> rfl
  · rw [hcur]; cases s.vtd.cur <;> rfl

/-! ### `RESET` (R48) -/

@[simp] theorem Vtd.reset_timer (i : Timer) : Vtd.reset.timer i = LogicalTimer.reset := by cases i <;> rfl

theorem Vtd.reset_inv : Vtd.reset.inv := by decide

/-- Settles O9: every element of the two reset units, as 10_state.md R20 and R30 list them. -/
theorem resetPutsEveryElementToZero : Obligations.ResetPutsEveryElementToZero := by
  intro s c rest hin
  refine ⟨_, step_reset hin, rfl, rfl, rfl, fun _ => rfl, rfl, rfl, rfl, List.length_replicate, fun e => ?_, rfl,
    fun i => ?_, rfl, rfl, rfl, rfl, rfl, rfl, rfl, rfl, rfl, rfl, rfl, rfl⟩
  · simp only [takeReset_fcc, State.take_cfg, Fcc.reset_entry]
    exact ⟨rfl, rfl, fun _ => rfl⟩
  · simp only [takeReset_vtd, Vtd.reset_timer]
    exact ⟨rfl, rfl, rfl, rfl, rfl⟩

/-- The defaults are in the ranges of 00_scope.md R6. -/
theorem Params.default_wf : Params.default.wf := by decide

/-- The state after `RESET` meets every invariant, unit by unit. -/
theorem State.resetWith_inv {p : Params} (hp : p.wf) : (State.resetWith p).inv :=
  ⟨hp, Fcc.reset_storesCanonical _, Fcc.reset_cacheInv hp, Fcc.reset_resultInv _, Vtd.reset_inv⟩

/-- Settles O10. -/
theorem resetStateMeetsTheInvariants : Obligations.ResetStateMeetsTheInvariants :=
  ⟨fun _ => State.resetWith_inv, State.resetWith_inv Params.default_wf⟩

end Sys2Proof.Machine
end

section
/-! What one step does to the VTD unit, for the rules of 10_state.md about its registers. -/

namespace Sys2Proof.Machine

/-! ### The oldest input is one thing (00_scope.md R8) -/

section
variable {s : State} {i j : Instr}

theorem State.offersCommand.unique (h : s.offersCommand i) (h' : s.offersCommand j) : i = j := by
  obtain ⟨u, c, rest, hin, hd⟩ := h
  obtain ⟨u', c', rest', hin', hd'⟩ := h'
  rw [hin] at hin'
  cases hin'
  exact Except.ok.inj (hd.symm.trans hd')

theorem State.offersReset.not_command (h : s.offersReset) : ¬ s.offersCommand i := by
  rintro ⟨u, c, rest, hin, -⟩
  obtain ⟨c', rest', hin'⟩ := h
  rw [hin] at hin'
  cases hin'

theorem State.offersIrq.not_command (h : s.offersIrq) : ¬ s.offersCommand i := by
  rintro ⟨u, c, rest, hin, -⟩
  obtain ⟨c', rest', hin'⟩ := h
  rw [hin] at hin'
  cases hin'

theorem State.offersIrq.not_reset (h : s.offersIrq) : ¬ s.offersReset := by
  rintro ⟨c, rest, hin⟩
  obtain ⟨c', rest', hin'⟩ := h
  rw [hin] at hin'
  cases hin'

end

/-! ### What a step emits -/

/-- The outputs hold no `FIRE`. -/
def NoFire (o : List Output) : Prop := ∀ i tag, Output.fire i tag ∉ o

/-- The outputs hold no `CMPWR`. -/
def NoCmpwr (o : List Output) : Prop := ∀ x, Output.cmpwr x ∉ o

theorem noFire_nil : NoFire [] := fun _ _ => List.not_mem_nil

theorem noCmpwr_nil : NoCmpwr [] := fun _ => List.not_mem_nil

theorem noFire_resp (r : Word32) : NoFire [.resp r] := fun _ _ => by simp

theorem noCmpwr_resp (r : Word32) : NoCmpwr [.resp r] := fun _ => by simp

theorem NoFire.append {o o' : List Output} (h : NoFire o) (h' : NoFire o') : NoFire (o ++ o') := fun i tag hm =>
  (List.mem_append.mp hm).elim (h i tag) (h' i tag)

theorem NoCmpwr.append {o o' : List Output} (h : NoCmpwr o) (h' : NoCmpwr o') : NoCmpwr (o ++ o') := fun x hm =>
  (List.mem_append.mp hm).elim (h x) (h' x)

theorem Vtd.ReschedulesTo.noFire {v w : Vtd} {found : Bool} {d : Reg16} {o : List Output}
    (h : v.ReschedulesTo w found d o) : NoFire o := by
  rcases h.emits with ⟨rfl, -⟩ | ⟨x, rfl, -⟩
  · exact noFire_nil
  · exact fun _ _ => by simp

theorem Vtd.CommandedTo.noFire {v w : Vtd} {i : Instr} {o : List Output} (h : v.CommandedTo i w o) : NoFire o := by
  obtain ⟨j, ⟨tag, -, -, rfl⟩ | ⟨x, -, found, d, hr⟩ | ⟨-, found, d, hr⟩⟩ := h
  · exact noFire_nil
  · exact hr.noFire
  · exact hr.noFire

theorem Vtd.CountsTo.noFire {v w : Vtd} {o : List Output} (h : v.CountsTo w o) : NoFire o := by
  rcases h with ⟨-, -, rfl⟩ | ⟨-, x, found, d, hr, -⟩
  · exact noFire_nil
  · exact hr.noFire

theorem Vtd.CatchesUpTo.noCmpwr {v w : Vtd} {c : Reg16} {o : List Output} {st : Status}
    (h : v.CatchesUpTo w c o st) : NoCmpwr o := by
  rcases h with ⟨-, -, rfl, -⟩ | ⟨-, -, -, rfl, -⟩ | ⟨-, -, -, rfl, -⟩
  · exact noCmpwr_nil
  · exact fun _ => by simp
  · exact noCmpwr_nil

/-! ### The kinds of step -/

/-- What a `VT_CBRET` with sample `c` does to a unit with a callback outstanding (41_vtd_commands.md R160). -/
abbrev Vtd.ReturnsTo (v w : Vtd) (c : Reg16) (o : List Output) : Prop :=
  ∃ x o1 o2 st r, v.CountsTo x o1 ∧ x.CatchesUpTo w c o2 st ∧ o = o1 ++ o2 ++ [.resp r]

/-- Everything a step can do to the VTD unit: `RESET`; nothing, and at most an answer; an `IRQ`; a `VT_*` command other than
`VT_CBRET`; the return of a callback. -/
theorem step_vtd_cases {s t : State} (h : step s = .next t) :
    ∃ o, t.outs = s.outs ++ o
      ∧ ((s.offersReset ∧ t.vtd = Vtd.reset ∧ o = [])
        ∨ (¬ s.offersReset ∧ t.vtd = s.vtd ∧ (o = [] ∨ ∃ r, o = [.resp r])
            ∧ (s.offersCommand .vtCbret → s.vtd.phase = .idle ∨ s.vtd.phase = .faulted))
        ∨ (s.offersIrq ∧ ∃ c, s.vtd.InterruptsTo t.vtd c o)
        ∨ (∃ i o' r, s.offersCommand i ∧ i ≠ .vtCbret ∧ s.vtd.CommandedTo i t.vtd o' ∧ o = o' ++ [.resp r])
        ∨ (s.offersCommand .vtCbret ∧ ∃ c, s.vtd.ReturnsTo t.vtd c o)) := by
  rcases step_cases h with ⟨hin, rfl⟩ | ⟨c, rest, hin, rfl⟩ | ⟨c, rest, w, o, hin, hi, rfl⟩
    | ⟨u, c, rest, e, hin, hd, rfl⟩ | ⟨u, c, rest, i, f, w, o, st, p, hin, hd, hm, rfl⟩
  case inl =>
    refine ⟨[], by simp, .inr (.inl ⟨?_, rfl, .inl rfl, ?_⟩)⟩
    · rintro ⟨c, rest, hin'⟩; simp [hin] at hin'
    · rintro ⟨u, c, rest, hin', -⟩; simp [hin] at hin'
  case inr.inl => exact ⟨[], by simp, .inl ⟨⟨c, rest, hin⟩, rfl, rfl⟩⟩
  case inr.inr.inl => exact ⟨o, rfl, .inr (.inr (.inl ⟨⟨c, rest, hin⟩, c, hi⟩))⟩
  case inr.inr.inr.inl =>
    refine ⟨_, rfl, .inr (.inl ⟨?_, rfl, .inr ⟨_, rfl⟩, ?_⟩)⟩
    · rintro ⟨c', rest', hin'⟩; simp [hin] at hin'
    · rintro ⟨u', c', rest', hin', hd'⟩
      rw [hin] at hin'
      cases hin'
      simp [hd] at hd'
  case inr.inr.inr.inr =>
    have ho : s.offersCommand i := ⟨u, c, rest, hin, hd⟩
    refine ⟨_, List.append_assoc .., ?_⟩
    rcases hm with ⟨rfl, rfl, hidle, -⟩ | ⟨-, hc, -, -, hm, -⟩ | ⟨rfl, -, -, x, o1, o2, hcount, hcatch, rfl⟩
    · exact .inr (.inl ⟨fun hr => hr.not_command ho, rfl, .inr ⟨_, rfl⟩, fun hr => hidle (ho.unique hr)⟩)
    · exact .inr (.inr (.inr (.inl ⟨i, o, _, ho, hc, hm, rfl⟩)))
    · exact .inr (.inr (.inr (.inr ⟨ho, c, x, o1, o2, st, _, hcount, hcatch, rfl⟩)))

end Sys2Proof.Machine
end

section
/-! The VTD unit's registers, rule by rule (10_state.md R32 to R40). -/

namespace Sys2Proof.Machine

variable {v w : Vtd} {i : Instr} {c d : Reg16} {o : List Output} {st : Status} {found : Bool}

/-! ### The late counter (R40) -/

theorem Vtd.ReschedulesTo.late (h : v.ReschedulesTo w found d o) : w.late = v.late := by rw [h.frame]

theorem Vtd.CommandedTo.late (h : v.CommandedTo i w o) : w.late = v.late := by
  obtain ⟨j, ⟨tag, -, rfl, -⟩ | ⟨x, -, found, d, hr⟩ | ⟨-, found, d, hr⟩⟩ := h
  · exact Vtd.setTimer_late ..
  · rw [hr.late, Vtd.setTimer_late]
  · rw [hr.late, Vtd.setTimer_late]

theorem Vtd.InterruptsTo.late (h : v.InterruptsTo w c o) : w.late = v.late := by
  rcases h with ⟨-, rfl, -⟩ | ⟨-, -, rfl, -⟩ | ⟨-, -, x, found, d, o', hr, ⟨-, rfl, -⟩ | ⟨-, rfl, -⟩⟩
  · rfl
  · rfl
  · exact hr.late.trans (Vtd.fireBookkeeping_late ..)
  · exact hr.late.trans (Vtd.fireBookkeeping_late ..)

theorem Vtd.CatchesUpTo.late (h : v.CatchesUpTo w c o st) : w.late = v.late := by
  rcases h with ⟨-, rfl, -⟩ | ⟨-, -, rfl, -⟩ | ⟨-, -, rfl, -⟩
  · rfl
  · exact Vtd.fireBookkeeping_late ..
  · exact Vtd.fireBookkeeping_late ..

/-- The return of a callback counts it when it is a late one. -/
theorem Vtd.ReturnsTo.late (h : v.ReturnsTo w c o) :
    w.late = if v.phase = .cbLate then v.late + 1 else v.late := by
  obtain ⟨x, o1, o2, st, r, hcount, hcatch, -⟩ := h
  obtain ⟨-, -, -, -, -, hlate, -⟩ := hcount.frame
  rw [hcatch.late, hlate]

/-- Settles O49, by the kinds of step: only a returning late callback and `RESET` write the counter. -/
theorem lateCounterCountsTheLateReturns : Obligations.LateCounterCountsTheLateReturns := by
  refine ⟨fun s t h => ?_, fun s => exec_rdreg_of_some rfl⟩
  obtain ⟨o, -, ⟨hr, hv, -⟩ | ⟨hr, hv, -, hidle⟩ | ⟨hi, c, hv⟩ | ⟨i, o', r, ho, hc, hv, -⟩ | ⟨ho, c, hv⟩⟩ :=
    step_vtd_cases h
  · exact ⟨fun _ => by rw [hv]; rfl, fun ho => absurd ho hr.not_command, fun hn => absurd hr hn⟩
  · refine ⟨fun hr' => absurd hr' hr, fun ho hp => ?_, fun _ _ => by rw [hv]⟩
    rcases hidle ho with hp' | hp' <;> simp [hp] at hp'
  · exact ⟨fun hr => absurd hr hi.not_reset, fun ho => absurd ho hi.not_command, fun _ _ => hv.late⟩
  · exact ⟨fun hr => absurd ho hr.not_command, fun ho' => absurd (ho.unique ho') hc, fun _ _ => hv.late⟩
  · exact ⟨fun hr => absurd ho hr.not_command, fun _ hp => hv.late.trans (if_pos hp),
      fun _ hn => hv.late.trans (if_neg fun hp => hn ⟨ho, hp⟩)⟩

/-! ### The compare register and the theoretical time (R37 to R39) -/

/-- The registers that `Reschedule()` writes (41_vtd_commands.md R140): `now`, `hwcmp`, `hwie`, `next`, `nextv`. -/
abbrev Vtd.compareRegs (v : Vtd) : Reg16 × Reg16 × Bool × Timer × Bool := (v.now, v.hwcmp, v.hwie, v.next, v.nextv)

/-- Either the compare register is not programmed and its image stays, or it is programmed with one value, which the image
and the theoretical time take. -/
def Vtd.ProgramsTo (v w : Vtd) (o : List Output) : Prop :=
  (NoCmpwr o ∧ w.compareRegs = v.compareRegs)
  ∨ ∃ x j, (∀ y, Output.cmpwr y ∈ o ↔ y = x) ∧ w.compareRegs = (x, x, true, j, true)

/-- Changes of other registers, before and after, make no difference. -/
theorem Vtd.ProgramsTo.congr {v' w' : Vtd} (h : v.ProgramsTo w o) (hv : v.compareRegs = v'.compareRegs)
    (hw : w'.compareRegs = w.compareRegs) : v'.ProgramsTo w' o := by
  unfold Vtd.ProgramsTo at h ⊢
  rwa [← hv, hw]

/-- Outputs other than `CMPWR` make no difference. -/
theorem Vtd.ProgramsTo.append {o' : List Output} (h : v.ProgramsTo w o) (ho : NoCmpwr o') :
    v.ProgramsTo w (o ++ o') := by
  rcases h with ⟨hno, he⟩ | ⟨x, j, hx, he⟩
  · exact .inl ⟨hno.append ho, he⟩
  · refine .inr ⟨x, j, fun y => ?_, he⟩
    rw [List.mem_append, or_iff_left (ho y), hx]

theorem Vtd.ReschedulesTo.programsTo (h : v.ReschedulesTo w found d o) : v.ProgramsTo w o := by
  rcases h.emits with ⟨rfl, rfl⟩ | ⟨x, rfl, hnow, hcmp, hie, hnv, -⟩
  · exact .inl ⟨noCmpwr_nil, rfl⟩
  · exact .inr ⟨x, w.next, fun y => by simp, by rw [Vtd.compareRegs, hnow, hcmp, hie, hnv]⟩

@[simp] theorem Vtd.setTimer_compareRegs (v : Vtd) (j : Timer) (l : LogicalTimer) :
    (v.setTimer j l).compareRegs = v.compareRegs := by
  simp [Vtd.compareRegs]

@[simp] theorem Vtd.fireBookkeeping_compareRegs (v : Vtd) (j : Timer) :
    (v.fireBookkeeping j).compareRegs = v.compareRegs := by
  simp [Vtd.compareRegs]

theorem Vtd.CommandedTo.programsTo (h : v.CommandedTo i w o) : v.ProgramsTo w o := by
  obtain ⟨j, ⟨tag, -, rfl, rfl⟩ | ⟨x, -, found, d, hr⟩ | ⟨-, found, d, hr⟩⟩ := h
  · exact .inl ⟨noCmpwr_nil, Vtd.setTimer_compareRegs ..⟩
  · exact hr.programsTo.congr (Vtd.setTimer_compareRegs ..) rfl
  · exact hr.programsTo.congr (Vtd.setTimer_compareRegs ..) rfl

theorem Vtd.InterruptsTo.programsTo (h : v.InterruptsTo w c o) : v.ProgramsTo w o := by
  rcases h with ⟨-, rfl, rfl⟩ | ⟨-, -, rfl, rfl⟩ | ⟨-, -, x, found, d, o', hr, ⟨-, rfl, rfl⟩ | ⟨-, rfl, rfl⟩⟩
  · exact .inl ⟨noCmpwr_nil, rfl⟩
  · exact .inl ⟨noCmpwr_nil, rfl⟩
  · exact (hr.programsTo.congr (Vtd.fireBookkeeping_compareRegs ..) rfl).append fun _ => by simp
  · exact hr.programsTo.congr (Vtd.fireBookkeeping_compareRegs ..) rfl

theorem Vtd.CountsTo.programsTo (h : v.CountsTo w o) : v.ProgramsTo w o := by
  rcases h with ⟨-, rfl, rfl⟩ | ⟨-, x, found, d, hr, rfl⟩
  · exact .inl ⟨noCmpwr_nil, rfl⟩
  · exact hr.programsTo.congr rfl rfl

theorem Vtd.CatchesUpTo.compareRegs (h : v.CatchesUpTo w c o st) : w.compareRegs = v.compareRegs := by
  rcases h with ⟨-, rfl, -⟩ | ⟨-, -, rfl, -⟩ | ⟨-, -, rfl, -⟩
  · rfl
  · exact Vtd.fireBookkeeping_compareRegs ..
  · exact Vtd.fireBookkeeping_compareRegs ..

theorem Vtd.ReturnsTo.programsTo (h : v.ReturnsTo w c o) : v.ProgramsTo w o := by
  obtain ⟨x, o1, o2, st, r, hcount, hcatch, rfl⟩ := h
  rw [List.append_assoc]
  exact (hcount.programsTo.congr rfl hcatch.compareRegs).append (hcatch.noCmpwr.append (noCmpwr_resp r))

/-- Every step but `RESET` programs the compare register with one value, or leaves the registers that follow it alone. -/
theorem step_programsTo {s t : State} (h : step s = .next t) (hr : ¬ s.offersReset) :
    ∃ o, t.outs = s.outs ++ o ∧ s.vtd.ProgramsTo t.vtd o := by
  obtain ⟨o, houts, ⟨hr', -⟩ | ⟨-, hv, ho, -⟩ | ⟨-, c, hv⟩ | ⟨i, o', r, -, -, hv, rfl⟩ | ⟨-, c, hv⟩⟩ := step_vtd_cases h
  · exact absurd hr' hr
  · refine ⟨o, houts, .inl ⟨?_, by rw [hv]⟩⟩
    rcases ho with rfl | ⟨r, rfl⟩
    · exact noCmpwr_nil
    · exact noCmpwr_resp r
  · exact ⟨o, houts, hv.programsTo⟩
  · exact ⟨_, houts, hv.programsTo.append (noCmpwr_resp r)⟩
  · exact ⟨o, houts, hv.programsTo⟩

/-- Settles O52. -/
theorem theoreticalTimeFollowsTheCompareRegister : Obligations.TheoreticalTimeFollowsTheCompareRegister := by
  intro s t h hr
  obtain ⟨o, houts, ⟨hno, he⟩ | ⟨x, j, hx, he⟩⟩ := step_programsTo h hr
  · simp only [Vtd.compareRegs, Prod.mk.injEq] at he
    exact ⟨o, houts, fun v hv => absurd hv (hno v), fun _ => he⟩
  · simp only [Vtd.compareRegs, Prod.mk.injEq] at he
    obtain ⟨hnow, hcmp, hie, -, hnv⟩ := he
    refine ⟨o, houts, fun v hv => ?_, fun hno => absurd ((hx x).mpr rfl) (hno x)⟩
    obtain rfl := (hx v).mp hv
    exact ⟨hnow, hcmp, hie, hnv⟩

end Sys2Proof.Machine
end

section
/-! The timers' own registers: the anchor and the armed flags (10_state.md R32, R36). -/

namespace Sys2Proof.Machine

variable {v w : Vtd} {i : Instr} {c d : Reg16} {o : List Output} {st : Status} {found : Bool}

/-! ### What a handler does to the timers -/

/-- The registers of the three timers and the anchor are the same. -/
def Vtd.SameTimers (v w : Vtd) : Prop :=
  w.slot = v.slot ∧ w.period = v.period ∧ w.offset = v.offset ∧ w.prev = v.prev

theorem Vtd.SameTimers.timer (h : v.SameTimers w) (j : Timer) : w.timer j = v.timer j := by
  obtain ⟨hs, hp, ho, -⟩ := h
  cases j
  · exact hs
  · exact hp
  · exact ho

theorem Vtd.SameTimers.prev (h : v.SameTimers w) : w.prev = v.prev := by
  obtain ⟨-, -, -, hprev⟩ := h
  exact hprev

theorem Vtd.SameTimers.trans {x : Vtd} (h : v.SameTimers w) (h' : w.SameTimers x) : v.SameTimers x := by
  obtain ⟨hs, hp, ho, hprev⟩ := h
  obtain ⟨hs', hp', ho', hprev'⟩ := h'
  exact ⟨hs'.trans hs, hp'.trans hp, ho'.trans ho, hprev'.trans hprev⟩

/-- The bookkeeping of a fire reads and writes these registers alone (41_vtd_commands.md R141). -/
theorem Vtd.SameTimers.fireBookkeeping (h : v.SameTimers w) (j : Timer) :
    (v.fireBookkeeping j).SameTimers (w.fireBookkeeping j) := by
  obtain ⟨hs, hp, ho, hprev⟩ := h
  cases j <;> simp [Vtd.SameTimers, Vtd.fireBookkeeping, hs, hp, ho, hprev]

theorem Vtd.ReschedulesTo.sameTimers (h : v.ReschedulesTo w found d o) : v.SameTimers w := by
  rw [h.frame]
  exact ⟨rfl, rfl, rfl, rfl⟩

/-- One fire at the most: nothing is fired and the timers stay; or the timer that `cur` then holds has its bookkeeping, the
handler does not end, and no other timer is in a `FIRE`. -/
def Vtd.FiresTo (v w : Vtd) (o : List Output) : Prop :=
  (v.SameTimers w ∧ NoFire o)
  ∨ ((v.fireBookkeeping w.cur).SameTimers w ∧ w.phase ≠ .idle ∧ ∀ j tag, Output.fire j tag ∈ o → j = w.cur)

/-- A change of other registers before, and outputs other than `FIRE` on both sides, make no difference. -/
theorem Vtd.FiresTo.extend {v' : Vtd} {o1 o2 : List Output} (h : v.FiresTo w o) (hv : v'.SameTimers v)
    (h1 : NoFire o1) (h2 : NoFire o2) : v'.FiresTo w (o1 ++ o ++ o2) := by
  rcases h with ⟨hs, ho⟩ | ⟨hs, hp, hcur⟩
  · exact .inl ⟨hv.trans hs, (h1.append ho).append h2⟩
  · refine .inr ⟨(hv.fireBookkeeping _).trans hs, hp, fun j tag hm => hcur j tag ?_⟩
    rw [List.mem_append, or_iff_left (h2 j tag), List.mem_append, or_iff_right (h1 j tag)] at hm
    exact hm

theorem Vtd.InterruptsTo.firesTo (h : v.InterruptsTo w c o) : v.FiresTo w o := by
  have hentry : v.SameTimers { v with tentry := c } := ⟨rfl, rfl, rfl, rfl⟩
  rcases h with ⟨-, rfl, rfl⟩ | ⟨-, -, rfl, rfl⟩ | ⟨-, -, x, found, d, o', hr, ⟨-, rfl, rfl⟩ | ⟨-, rfl, rfl⟩⟩
  · exact .inl ⟨⟨rfl, rfl, rfl, rfl⟩, noFire_nil⟩
  · exact .inl ⟨⟨rfl, rfl, rfl, rfl⟩, noFire_nil⟩
  · refine .inr ⟨(hentry.fireBookkeeping _).trans hr.sameTimers, by simp, fun j tag hm => ?_⟩
    rw [List.mem_append, or_iff_right (hr.noFire j tag), List.mem_singleton] at hm
    exact (Output.fire.inj hm).1
  · exact .inr ⟨(hentry.fireBookkeeping _).trans hr.sameTimers, by simp, fun j tag hm => absurd hm (hr.noFire j tag)⟩

theorem Vtd.CountsTo.sameTimers (h : v.CountsTo w o) : v.SameTimers w := by
  obtain ⟨hprev, -, -, -, -, -, htimer⟩ := h.frame
  exact ⟨htimer .slot, htimer .period, htimer .offset, hprev⟩

theorem Vtd.CatchesUpTo.firesTo (h : v.CatchesUpTo w c o st) : v.FiresTo w o := by
  rcases h with ⟨-, rfl, rfl, -⟩ | ⟨-, -, rfl, rfl, -⟩ | ⟨-, -, rfl, rfl, -⟩
  · exact .inl ⟨⟨rfl, rfl, rfl, rfl⟩, noFire_nil⟩
  · refine .inr ⟨⟨rfl, rfl, rfl, rfl⟩, by simp, fun j tag hm => ?_⟩
    rw [List.mem_singleton] at hm
    exact (Output.fire.inj hm).1
  · exact .inr ⟨⟨rfl, rfl, rfl, rfl⟩, by simp, fun j tag hm => absurd hm (noFire_nil j tag)⟩

theorem Vtd.ReturnsTo.firesTo (h : v.ReturnsTo w c o) : v.FiresTo w o := by
  obtain ⟨x, o1, o2, st, r, hcount, hcatch, rfl⟩ := h
  exact hcatch.firesTo.extend hcount.sameTimers hcount.noFire (noFire_resp r)

/-- What a step does to the timers: `RESET`; nothing; at most one fire, by an `IRQ` or `VT_CBRET`; a `VT_*` command. -/
theorem step_timer_cases {s t : State} (h : step s = .next t) :
    ∃ o, t.outs = s.outs ++ o
      ∧ ((s.offersReset ∧ t.vtd = Vtd.reset ∧ NoFire o)
        ∨ (t.vtd = s.vtd ∧ NoFire o)
        ∨ ((s.offersIrq ∨ s.offersCommand .vtCbret) ∧ s.vtd.FiresTo t.vtd o)
        ∨ (NoFire o ∧ ∃ i o', s.offersCommand i ∧ s.vtd.CommandedTo i t.vtd o')) := by
  obtain ⟨o, houts, ⟨hr, hv, rfl⟩ | ⟨-, hv, ho, -⟩ | ⟨hi, c, hv⟩ | ⟨i, o', r, ho, -, hv, rfl⟩ | ⟨ho, c, hv⟩⟩ :=
    step_vtd_cases h
  · exact ⟨[], houts, .inl ⟨hr, hv, noFire_nil⟩⟩
  · refine ⟨o, houts, .inr (.inl ⟨hv, ?_⟩)⟩
    rcases ho with rfl | ⟨r, rfl⟩
    · exact noFire_nil
    · exact noFire_resp r
  · exact ⟨o, houts, .inr (.inr (.inl ⟨.inl hi, hv.firesTo⟩))⟩
  · exact ⟨_, houts, .inr (.inr (.inr ⟨hv.noFire.append (noFire_resp r), i, o', ho, hv⟩))⟩
  · exact ⟨o, houts, .inr (.inr (.inl ⟨.inr ho, hv.firesTo⟩))⟩

/-! ### The period-start anchor (R36) -/

/-- A fire of the PERIOD timer moves the anchor to its compare value; no other fire moves it (41_vtd_commands.md R141). -/
theorem Vtd.fireBookkeeping_prev (v : Vtd) (j : Timer) :
    (v.fireBookkeeping j).prev = if j = .period then v.period.cmp else v.prev := by
  cases j <;> rfl

theorem Vtd.CommandedTo.prev (h : v.CommandedTo i w o) : w.prev = v.prev := by
  obtain ⟨j, ⟨tag, -, rfl, -⟩ | ⟨x, -, found, d, hr⟩ | ⟨-, found, d, hr⟩⟩ := h
  · exact Vtd.setTimer_prev ..
  · rw [hr.sameTimers.prev, Vtd.setTimer_prev]
  · rw [hr.sameTimers.prev, Vtd.setTimer_prev]

/-- Settles O50: only a fire can move the anchor, and of the fires only the PERIOD timer's. -/
theorem anchorMovesOnlyWhenThePeriodFires : Obligations.AnchorMovesOnlyWhenThePeriodFires := by
  intro s t h hr hne
  obtain ⟨o, -, ⟨hr', -⟩ | ⟨hv, -⟩ | ⟨hby, ⟨hs, -⟩ | ⟨hs, hphase, -⟩⟩ | ⟨-, i, o', -, hv⟩⟩ := step_timer_cases h
  · exact absurd hr' hr
  · exact absurd (congrArg Vtd.prev hv) hne
  · exact absurd hs.prev hne
  · have hprev := hs.prev
    rw [Vtd.fireBookkeeping_prev] at hprev
    split at hprev
    · next hcur => exact ⟨hprev, hcur, hphase, hby⟩
    · exact absurd hprev hne
  · exact absurd hv.prev hne

/-! ### The armed flags (R32) -/

/-- A fire clears the flag of its own timer, but for the PERIOD timer's, and no other (41_vtd_commands.md R141). -/
theorem Vtd.fireBookkeeping_armed_iff (v : Vtd) (j k : Timer) :
    ((v.fireBookkeeping j).timer k).armed = true ↔ (v.timer k).armed = true ∧ (k = j → k = .period) := by
  cases j <;> cases k <;> simp [Vtd.fireBookkeeping]

/-- A `VT_*` command sets a flag as the arm command of its timer, and clears it as the cancel command. -/
theorem Vtd.CommandedTo.armed (h : v.CommandedTo i w o) (k : Timer) :
    (w.timer k).armed = (v.timer k).armed
    ∨ ((∃ x, i = k.armCommand x) ∧ (w.timer k).armed = true)
    ∨ (i = k.cancelCommand ∧ (w.timer k).armed = false) := by
  obtain ⟨j, h⟩ := h
  by_cases hk : k = j
  · subst hk
    rcases h with ⟨tag, -, rfl, -⟩ | ⟨x, hi, found, d, hr⟩ | ⟨hi, found, d, hr⟩
    · exact .inl (by rw [Vtd.setTimer_timer_same])
    · exact .inr (.inl ⟨⟨x, hi⟩, by rw [hr.timer, Vtd.setTimer_timer_same]⟩)
    · exact .inr (.inr ⟨hi, by rw [hr.timer, Vtd.setTimer_timer_same]⟩)
  · left
    rcases h with ⟨tag, -, rfl, -⟩ | ⟨x, -, found, d, hr⟩ | ⟨-, found, d, hr⟩
    · rw [Vtd.setTimer_timer_other v hk]
    · rw [hr.timer, Vtd.setTimer_timer_other v hk]
    · rw [hr.timer, Vtd.setTimer_timer_other v hk]

/-- The rule of the armed flag of timer `k`, in a step from `s` to `t` that emits `o`. -/
def ArmedFlagFollows (s t : State) (o : List Output) (k : Timer) : Prop :=
  ((s.vtd.timer k).armed = false → (t.vtd.timer k).armed = true → ∃ x, s.offersCommand (k.armCommand x))
  ∧ ((s.vtd.timer k).armed = true → (t.vtd.timer k).armed = false →
      s.offersReset ∨ s.offersCommand k.cancelCommand
      ∨ (k ≠ .period ∧ (s.offersIrq ∨ s.offersCommand .vtCbret) ∧ t.vtd.cur = k))
  ∧ (k ≠ .period → ∀ tag, Output.fire k tag ∈ o → (t.vtd.timer k).armed = false)

/-- A flag that stays follows the rule. -/
theorem armedFlagFollows_of_eq {s t : State} {k : Timer} (he : (t.vtd.timer k).armed = (s.vtd.timer k).armed)
    (ho : NoFire o) : ArmedFlagFollows s t o k := by
  refine ⟨fun hs ht => ?_, fun hs ht => ?_, fun _ tag hm => absurd hm (ho k tag)⟩
  · rw [he, hs] at ht; cases ht
  · rw [he, hs] at ht; cases ht

/-- Every step obeys the rule of the armed flags. -/
theorem step_armedFlagFollows {s t : State} (h : step s = .next t) :
    ∃ o, t.outs = s.outs ++ o ∧ ∀ k, ArmedFlagFollows s t o k := by
  obtain ⟨o, houts, ⟨hr, hv, ho⟩ | ⟨hv, ho⟩ | ⟨hby, ⟨hs, ho⟩ | ⟨hs, -, hcur⟩⟩ | ⟨ho, i, o', hi, hv⟩⟩ :=
    step_timer_cases h
  · refine ⟨o, houts, fun k => ⟨fun _ ht => ?_, fun _ _ => .inl hr, fun _ tag hm => absurd hm (ho k tag)⟩⟩
    rw [hv, Vtd.reset_timer] at ht
    cases ht
  · exact ⟨o, houts, fun k => armedFlagFollows_of_eq (by rw [hv]) ho⟩
  · exact ⟨o, houts, fun k => armedFlagFollows_of_eq (by rw [hs.timer]) ho⟩
  · refine ⟨o, houts, fun k => ?_⟩
    have hiff := Vtd.fireBookkeeping_armed_iff s.vtd t.vtd.cur k
    rw [← hs.timer k] at hiff
    refine ⟨fun hsk ht => ?_, fun hsk ht => ?_, fun hk tag hm => ?_⟩
    · rw [(hiff.mp ht).1] at hsk; cases hsk
    · have hnot : ¬ (k = t.vtd.cur → k = .period) := fun hc => by
        rw [hiff.mpr ⟨hsk, hc⟩] at ht; cases ht
      obtain ⟨hk, hp⟩ := Classical.not_imp.mp hnot
      exact .inr (.inr ⟨hp, hby, hk.symm⟩)
    · rw [← Bool.not_eq_true, hiff]
      exact fun ⟨_, hc⟩ => hk (hc (hcur k tag hm))
  · refine ⟨o, houts, fun k => ?_⟩
    rcases hv.armed k with he | ⟨⟨x, rfl⟩, ht⟩ | ⟨rfl, ht⟩
    · exact armedFlagFollows_of_eq he ho
    · refine ⟨fun _ _ => ⟨x, hi⟩, fun _ ht' => ?_, fun _ tag hm => absurd hm (ho k tag)⟩
      rw [ht] at ht'; cases ht'
    · refine ⟨fun _ ht' => ?_, fun _ _ => .inr (.inl hi), fun _ tag hm => absurd hm (ho k tag)⟩
      rw [ht] at ht'; cases ht'

/-- Settles O56, the rule of the armed flag timer by timer. -/
theorem armedFlagsFollowArmCancelAndFire : Obligations.ArmedFlagsFollowArmCancelAndFire := by
  intro s t h fires
  obtain ⟨o, houts, hflag⟩ := step_armedFlagFollows h
  obtain ⟨hslotSet, hslotClear, hslotFire⟩ := hflag .slot
  obtain ⟨hperiodSet, hperiodClear, -⟩ := hflag .period
  obtain ⟨hoffsetSet, hoffsetClear, hoffsetFire⟩ := hflag .offset
  refine ⟨hslotSet, hperiodSet, hoffsetSet, fun hs ht => (hslotClear hs ht).imp_right (.imp_right And.right),
    fun hs ht => (hperiodClear hs ht).imp_right fun hc => ?_,
    fun hs ht => (hoffsetClear hs ht).imp_right (.imp_right And.right), o, houts, hslotFire (by decide),
    hoffsetFire (by decide)⟩
  exact hc.resolve_right fun hf => hf.1 rfl

end Sys2Proof.Machine
end

section
/-! The byte stores (20_memory.md R60): what `RESET`, `FC_LD` and `FC_VAL` keep. -/

namespace Sys2Proof.Machine

/-- Every entry's store is canonical; an index past the cache reads as an entry after `RESET`. -/
theorem Fcc.storesCanonical.entry {f : Fcc} (h : f.storesCanonical) (e : Nat) :
    (f.entry e).data.wf ∧ (f.entry e).data.inRange := by
  obtain ⟨-, -, hcache⟩ := h
  rcases Nat.lt_or_ge e f.cache.length with he | he
  · rw [Fcc.entry_eq_getElem he]
    exact hcache _ (List.getElem_mem he)
  · have hreset : f.entry e = CacheEntry.reset := List.getD_eq_default _ _ he
    rw [hreset]
    exact ⟨Memory.wf_nil, List.forall_mem_nil _⟩

/-- A write to a buffer index keeps the stores canonical (40_fcc_commands.md R107). -/
theorem Fcc.storesCanonical.writeRxbuf {f : Fcc} (h : f.storesCanonical) {a : Nat} (ha : a < Config.maxLen) (d : Byte) :
    Fcc.storesCanonical { f with rxbuf := Memory.write f.rxbuf a d } := by
  obtain ⟨hwf, hrange, hcache⟩ := h
  exact ⟨Memory.write_wf hwf a d, Memory.write_inRange hrange ha d, hcache⟩

/-- A correction writes the receive buffer at the accepted trial's two positions (40_fcc_commands.md R106). -/
theorem Fcc.storesCanonical.correct {f : Fcc} (h : f.storesCanonical) (n : List Byte) {a : Accepted}
    (h1 : a.p1 < Config.maxLen) (h2 : a.p2 < Config.maxLen) : (f.correct n a).storesCanonical :=
  (h.writeRxbuf h1 _).writeRxbuf h2 _

/-- An insertion writes a frame of legal length over the entry at `cwr` (40_fcc_commands.md R105). -/
theorem Fcc.storesCanonical.insert {f : Fcc} (h : f.storesCanonical) (depth : Nat) (len : Byte) {n : List Byte}
    (hn : n.length ≤ Config.maxLen) : (f.insert depth len n).storesCanonical := by
  obtain ⟨hwf, hrange⟩ := h.entry f.cwr
  obtain ⟨hrxwf, hrxrange, hcache⟩ := h
  refine ⟨hrxwf, hrxrange, fun c hc => ?_⟩
  rcases List.mem_or_eq_of_mem_set hc with hc | rfl
  · exact hcache c hc
  · exact ⟨Memory.writeFrom_wf hwf 0 n, Memory.writeFrom_inRange hrange (by omega)⟩

/-- `FC_VAL` keeps the stores canonical: it corrects the receive buffer or inserts the frame only when the frame's length is
legal (40_fcc_commands.md R106), so every index it writes is one of the store's. -/
theorem Fcc.storesCanonical.validate {f : Fcc} (h : f.storesCanonical) (p : Params) (len : Byte) (hw : Bool) :
    (f.validate p len hw).storesCanonical := by
  rcases Fcc.validate_cases p f len hw with ⟨-, he⟩ | ⟨-, -, he⟩ | ⟨-, -, -, he⟩ | ⟨hlen, -, -, a, ha, he⟩
    | ⟨hlen, -, -, -, he⟩
  case inr.inr.inr.inl =>
    obtain ⟨-, htry, -⟩ := searchCache_eq_some.mp ha
    obtain ⟨-, -, -, ⟨h12, h2, -⟩, -⟩ := tryEntry_eq_some.mp htry
    rw [Fcc.frame_length] at h2
    have hp2 : a.p2 < Config.maxLen := h2.trans_le hlen
    rw [he]
    exact h.correct _ (h12.trans hp2) hp2
  case inr.inr.inr.inr =>
    rw [he]
    exact h.insert p.cacheDepth len (by rwa [Fcc.frame_length])
  all_goals
    rw [he]
    exact h

/-- Settles O14, by what a step does to the FCC unit; the range check of `FC_LD` keeps the index in range. -/
theorem stepKeepsTheStoresCanonical : Obligations.StepKeepsTheStoresCanonical := by
  intro s t hinv h
  obtain ⟨-, hf | ⟨-, hf⟩ | ⟨idx, d, -, hidx, hf⟩ | ⟨len, hw, -, hf⟩⟩ := step_fcc_unit h
  · rw [hf]; exact hinv
  · rw [hf]; exact Fcc.reset_storesCanonical _
  · rw [hf]; exact hinv.writeRxbuf hidx d
  · rw [hf]; exact hinv.validate s.cfg len hw

end Sys2Proof.Machine
end

section
/-! The handler's registers (20_memory.md R68, 10_state.md R42): only the handler's own transitions write them. -/

namespace Sys2Proof.Machine

/-- The registers that only an `IRQ`, `VT_CBRET` and `RESET` write: those of the handler, `late`, `prev` and `flt`. -/
def Vtd.handlerRegs (v : Vtd) : Reg16 × Reg16 × Phase × Timer × Reg16 × Reg16 × Reg16 :=
  (v.tentry, v.hdist, v.phase, v.cur, v.late, v.prev, v.flt)

@[simp] theorem Vtd.setTimer_handlerRegs (v : Vtd) (j : Timer) (l : LogicalTimer) :
    (v.setTimer j l).handlerRegs = v.handlerRegs := by
  cases j <;> rfl

theorem Vtd.ReschedulesTo.handlerRegs {v w : Vtd} {found : Bool} {d : Reg16} {o : List Output}
    (h : v.ReschedulesTo w found d o) : w.handlerRegs = v.handlerRegs := by
  rw [h.frame]; rfl

/-- A `VT_*` command other than `VT_CBRET` writes one timer's registers and those of `Reschedule()`, none of these. -/
theorem Vtd.CommandedTo.handlerRegs {v w : Vtd} {i : Instr} {o : List Output} (h : v.CommandedTo i w o) :
    w.handlerRegs = v.handlerRegs := by
  obtain ⟨j, ⟨tag, -, rfl, -⟩ | ⟨x, -, found, d, hr⟩ | ⟨-, found, d, hr⟩⟩ := h
  · exact Vtd.setTimer_handlerRegs ..
  · rw [hr.handlerRegs, Vtd.setTimer_handlerRegs]
  · rw [hr.handlerRegs, Vtd.setTimer_handlerRegs]

/-- Of the three things a command can do to the VTD unit, only the return of a callback writes these registers. -/
theorem exec_handlerRegs {i : Instr} (hc : i ≠ .vtCbret) {s t : State} (h : exec i s = .next t) :
    t.vtd.handlerRegs = s.vtd.handlerRegs := by
  obtain ⟨f, w, o, st, p, hdoes, he⟩ := exec_cases i s
  obtain rfl := Host.Outcome.next.inj (h.symm.trans he)
  rcases hdoes with ⟨rfl, -⟩ | ⟨-, -, -, -, hm, -⟩ | ⟨hcbret, -⟩
  · rfl
  · exact hm.handlerRegs
  · exact absurd hcbret hc

/-- Settles O51, register by register. -/
theorem commandsLeaveTheHandlerRegisters : Obligations.CommandsLeaveTheHandlerRegisters := by
  intro s t i hc h
  simpa only [Vtd.handlerRegs, Prod.mk.injEq] using exec_handlerRegs hc h

end Sys2Proof.Machine
end

section
/-! The five formats of a command word (30_encoding.md R82). For each: the decoder reads the format's own words, what it
reads is the word's command, and the mask of the opcode map (R85) admits only words of the format. -/

namespace Sys2Proof

/-! ### Words by their fields (R81) -/

/-- A word is put together from given fields exactly when those are its fields. -/
theorem assemble_eq_iff {w : Word32} {op a : BitVec 8} {b : BitVec 16} :
    assemble op a b = w ↔ op = opField w ∧ a = aField w ∧ b = bField w := by
  rw [← assemble_inj, assemble_fields]

/-- A mask is met exactly when it is met field by field. -/
theorem and_assemble_eq_iff {w : Word32} {op a opm am : BitVec 8} {b bm : BitVec 16} :
    w &&& assemble opm am bm = assemble op a b
      ↔ opField w &&& opm = op ∧ aField w &&& am = a ∧ bField w &&& bm = b := by
  rw [← assemble_inj, ← assemble_and, assemble_fields]

/-- A field whose upper part is 0 is its lower part after zeros. -/
theorem zero_append_lower {m n : Nat} {b : BitVec (m + n)} (h : b.extractLsb' n m = 0#m) :
    0#m ++ b.extractLsb' 0 n = b := by
  rw [← h, BitVec.extractLsb'_append_extractLsb']

/-- A field that meets the mask of its upper part has that part 0. -/
theorem upper_eq_zero_of_mask {m n : Nat} {b : BitVec (m + n)} (h : b &&& (BitVec.allOnes m ++ 0#n) = 0#(m + n)) :
    b.extractLsb' n m = 0#m := by
  have hu := congrArg (BitVec.extractLsb' n m) h
  rwa [BitVec.extractLsb'_and, BitVec.extractLsb'_append_eq_left, BitVec.and_allOnes, BitVec.extractLsb'_zero] at hu

/-- The lowest bit of a field as the field of width 1 it is. -/
theorem ofBool_getLsbD_zero {n : Nat} (b : BitVec n) : BitVec.ofBool (b.getLsbD 0) = b.extractLsb' 0 1 := by
  apply BitVec.eq_of_getLsbD_eq
  simp

/-! ### The formats

`mk` makes the command of opcode `op` from its operands. The hypotheses `he`, that `encode` puts the operands where the
format has them, `hm`, the command's mnemonic, and `hv`, the row's match, hold of each command by computation. -/

section
variable {w value : Word32} {op : BitVec 8} {i : Instr} {name : String}

/-- What a format answers when it accepts the word. -/
theorem eq_ok_of_format {p : Prop} [Decidable p] {c : Instr}
    (h : (if p then Except.ok c else Except.error DecodeError.reservedBitSet) = .ok i) : p ∧ c = i := by
  split_ifs at h with hp
  exact ⟨hp, Except.ok.inj h⟩

/-! #### Format N -/

theorem formatN_assemble (op : BitVec 8) (c : Instr) : formatN (assemble op 0 0) c = .ok c := by
  simp [formatN]

theorem encode_of_formatN {c : Instr} (hop : op = opField w) (h : formatN w c = .ok i)
    (he : encode c = assemble op 0 0 := by rfl) : encode i = w := by
  obtain ⟨⟨ha, hb⟩, rfl⟩ := eq_ok_of_format h
  exact he.trans (assemble_eq_iff.mpr ⟨hop, ha.symm, hb.symm⟩)

theorem command_of_maskN {c : Instr} (h : w &&& 0xFFFFFFFF = value)
    (he : encode c = assemble op 0 0 := by rfl) (hm : c.mnemonic = name := by rfl)
    (hv : value = assemble op 0 0 := by decide) :
    ∃ i, encode i = w ∧ i.mnemonic = name := by
  have hw : w = assemble op 0 0 := by rw [← hv, ← h]; exact BitVec.and_allOnes.symm
  exact ⟨c, by rw [he, hw], hm⟩

/-! #### Format T -/

theorem formatT_assemble (op : BitVec 8) (v : BitVec 16) (mk : BitVec 16 → Instr) :
    formatT (assemble op 0 v) mk = .ok (mk v) := by
  simp [formatT]

theorem encode_of_formatT {mk : BitVec 16 → Instr} (hop : op = opField w) (h : formatT w mk = .ok i)
    (he : ∀ v, encode (mk v) = assemble op 0 v := by intros; rfl) : encode i = w := by
  obtain ⟨ha, rfl⟩ := eq_ok_of_format h
  exact (he _).trans (assemble_eq_iff.mpr ⟨hop, ha.symm, rfl⟩)

theorem command_of_maskT {mk : BitVec 16 → Instr} (h : w &&& 0xFFFF0000 = value)
    (he : ∀ v, encode (mk v) = assemble op 0 v := by intros; rfl)
    (hm : ∀ v, (mk v).mnemonic = name := by intros; rfl) (hv : value = assemble op 0 0 := by decide) :
    ∃ i, encode i = w ∧ i.mnemonic = name := by
  rw [hv, show (0xFFFF0000 : Word32) = assemble (BitVec.allOnes 8) (BitVec.allOnes 8) 0 by decide, and_assemble_eq_iff,
    BitVec.and_allOnes, BitVec.and_allOnes] at h
  obtain ⟨hop, ha, -⟩ := h
  exact ⟨mk (bField w), (he _).trans (assemble_eq_iff.mpr ⟨hop.symm, ha.symm, rfl⟩), hm _⟩

/-! #### Format R -/

theorem formatR_assemble (op a : BitVec 8) (mk : BitVec 8 → Instr) : formatR (assemble op a 0) mk = .ok (mk a) := by
  simp [formatR]

theorem encode_of_formatR {mk : BitVec 8 → Instr} (hop : op = opField w) (h : formatR w mk = .ok i)
    (he : ∀ a, encode (mk a) = assemble op a 0 := by intros; rfl) : encode i = w := by
  obtain ⟨hb, rfl⟩ := eq_ok_of_format h
  exact (he _).trans (assemble_eq_iff.mpr ⟨hop, rfl, hb.symm⟩)

theorem command_of_maskR {mk : BitVec 8 → Instr} (h : w &&& 0xFF00FFFF = value)
    (he : ∀ a, encode (mk a) = assemble op a 0 := by intros; rfl)
    (hm : ∀ a, (mk a).mnemonic = name := by intros; rfl) (hv : value = assemble op 0 0 := by decide) :
    ∃ i, encode i = w ∧ i.mnemonic = name := by
  rw [hv, show (0xFF00FFFF : Word32) = assemble (BitVec.allOnes 8) 0 (BitVec.allOnes 16) by decide, and_assemble_eq_iff,
    BitVec.and_allOnes, BitVec.and_allOnes] at h
  obtain ⟨hop, -, hb⟩ := h
  exact ⟨mk (aField w), (he _).trans (assemble_eq_iff.mpr ⟨hop.symm, rfl, hb.symm⟩), hm _⟩

/-! #### Format X with a data byte -/

theorem formatX_assemble (op a d : BitVec 8) (mk : BitVec 8 → BitVec 8 → Instr) :
    formatX (assemble op a (0#8 ++ d)) mk = .ok (mk a d) := by
  have hu : (0#8 ++ d : BitVec 16).extractLsb' 8 8 = 0 := BitVec.extractLsb'_append_eq_left
  have hl : (0#8 ++ d : BitVec 16).extractLsb' 0 8 = d := BitVec.extractLsb'_append_eq_right
  rw [formatX, aField_assemble, bField_assemble, if_pos hu, hl]

theorem encode_of_formatX {mk : BitVec 8 → BitVec 8 → Instr} (hop : op = opField w) (h : formatX w mk = .ok i)
    (he : ∀ a d, encode (mk a d) = assemble op a (0#8 ++ d) := by intros; rfl) : encode i = w := by
  obtain ⟨hb, rfl⟩ := eq_ok_of_format h
  exact (he _ _).trans (assemble_eq_iff.mpr ⟨hop, rfl, zero_append_lower hb⟩)

theorem command_of_maskX {mk : BitVec 8 → BitVec 8 → Instr} (h : w &&& 0xFF00FF00 = value)
    (he : ∀ a d, encode (mk a d) = assemble op a (0#8 ++ d) := by intros; rfl)
    (hm : ∀ a d, (mk a d).mnemonic = name := by intros; rfl) (hv : value = assemble op 0 0 := by decide) :
    ∃ i, encode i = w ∧ i.mnemonic = name := by
  rw [hv, show (0xFF00FF00 : Word32) = assemble (BitVec.allOnes 8) 0 (BitVec.allOnes 8 ++ 0#8) by decide,
    and_assemble_eq_iff, BitVec.and_allOnes] at h
  obtain ⟨hop, -, hb⟩ := h
  exact ⟨mk (aField w) _,
    (he _ _).trans (assemble_eq_iff.mpr ⟨hop.symm, rfl, zero_append_lower (upper_eq_zero_of_mask hb)⟩), hm _ _⟩

/-! #### Format F -/

theorem formatF_assemble (op len : BitVec 8) (hw : Bool) (mk : BitVec 8 → Bool → Instr) :
    formatF (assemble op len (0#15 ++ BitVec.ofBool hw)) mk = .ok (mk len hw) := by
  have hu : (0#15 ++ BitVec.ofBool hw : BitVec 16).extractLsb' 1 15 = 0 := BitVec.extractLsb'_append_eq_left
  have hbit : (0#15 ++ BitVec.ofBool hw : BitVec 16).getLsbD 0 = hw := by cases hw <;> rfl
  rw [formatF, aField_assemble, bField_assemble, if_pos hu, hbit]

/-- The unused bits and the hardware bit make up `b`. -/
theorem zero_append_ofBool {b : BitVec 16} (h : b.extractLsb' 1 15 = 0) : 0#15 ++ BitVec.ofBool (b.getLsbD 0) = b := by
  rw [ofBool_getLsbD_zero]
  exact zero_append_lower (m := 15) (n := 1) h

theorem encode_of_formatF {mk : BitVec 8 → Bool → Instr} (hop : op = opField w) (h : formatF w mk = .ok i)
    (he : ∀ len hw, encode (mk len hw) = assemble op len (0#15 ++ BitVec.ofBool hw) := by intros; rfl) :
    encode i = w := by
  obtain ⟨hb, rfl⟩ := eq_ok_of_format h
  exact (he _ _).trans (assemble_eq_iff.mpr ⟨hop, rfl, zero_append_ofBool hb⟩)

theorem command_of_maskF {mk : BitVec 8 → Bool → Instr} (h : w &&& 0xFF00FFFE = value)
    (he : ∀ len hw, encode (mk len hw) = assemble op len (0#15 ++ BitVec.ofBool hw) := by intros; rfl)
    (hm : ∀ len hw, (mk len hw).mnemonic = name := by intros; rfl) (hv : value = assemble op 0 0 := by decide) :
    ∃ i, encode i = w ∧ i.mnemonic = name := by
  rw [hv, show (0xFF00FFFE : Word32) = assemble (BitVec.allOnes 8) 0 (BitVec.allOnes 15 ++ 0#1) by decide,
    and_assemble_eq_iff, BitVec.and_allOnes] at h
  obtain ⟨hop, -, hb⟩ := h
  exact ⟨mk (aField w) _,
    (he _ _).trans (assemble_eq_iff.mpr ⟨hop.symm, rfl, zero_append_ofBool (upper_eq_zero_of_mask hb)⟩), hm _ _⟩

end

end Sys2Proof
end

section
/-! The statements of 30_encoding.md about the encoding (R81 to R87). -/

namespace Sys2Proof

/-! ### Decoding and encoding are inverse -/

/-- The word of a command decodes to it: the opcode selects the command's format, which reads the operands back. -/
theorem decode_encode (i : Instr) : decode (encode i) = .ok i := by
  cases i with
  | rdreg | fcRd => rw [encode, decode, opField_assemble]; exact formatR_assemble ..
  | fcLd => rw [encode, decode, opField_assemble]; exact formatX_assemble ..
  | fcVal => rw [encode, decode, opField_assemble]; exact formatF_assemble ..
  | vtSetcbSlot | vtSetcbPeriod | vtSetcbOffset | vtArmSlot | vtArmPeriod | vtArmOffset =>
    rw [encode, decode, opField_assemble]; exact formatT_assemble ..
  | vtCancelSlot | vtCancelPeriod | vtCancelOffset | vtCbret =>
    rw [encode, decode, opField_assemble]; exact formatN_assemble ..

/-- Settles O1. -/
theorem decodeEncodeRoundTrip : Obligations.DecodeEncodeRoundTrip := decode_encode

/-- A word decodes to a command only if it is the command's word. -/
theorem encode_of_decode {w : Word32} {i : Instr} (h : decode w = .ok i) : encode i = w := by
  have hop : ∀ {op : BitVec 8}, (opField w).toNat = op.toNat → op = opField w := fun h => (BitVec.eq_of_toNat_eq h).symm
  unfold decode at h
  split at h
  case h_1 ho => exact encode_of_formatR (hop (op := 0x02) ho) h
  case h_2 ho => exact encode_of_formatX (hop (op := 0x10) ho) h
  case h_3 ho => exact encode_of_formatR (hop (op := 0x11) ho) h
  case h_4 ho => exact encode_of_formatF (hop (op := 0x12) ho) h
  case h_5 ho => exact encode_of_formatT (hop (op := 0x20) ho) h
  case h_6 ho => exact encode_of_formatT (hop (op := 0x21) ho) h
  case h_7 ho => exact encode_of_formatT (hop (op := 0x22) ho) h
  case h_8 ho => exact encode_of_formatT (hop (op := 0x24) ho) h
  case h_9 ho => exact encode_of_formatT (hop (op := 0x25) ho) h
  case h_10 ho => exact encode_of_formatT (hop (op := 0x26) ho) h
  case h_11 ho => exact encode_of_formatN (hop (op := 0x28) ho) h
  case h_12 ho => exact encode_of_formatN (hop (op := 0x29) ho) h
  case h_13 ho => exact encode_of_formatN (hop (op := 0x2A) ho) h
  case h_14 ho => exact encode_of_formatN (hop (op := 0x2C) ho) h
  case h_15 => cases h

/-- Settles O2. -/
theorem decodedWordIsTheCommandsWord : Obligations.DecodedWordIsTheCommandsWord := fun _ _ h => encode_of_decode h

/-! ### The opcode map -/

/-- Row by row: a word that meets a row's mask and match is the word of a command of the row's mnemonic. -/
theorem command_of_match (w : Word32) :
    ∀ row ∈ opcodeMap, w &&& row.mask = row.value → ∃ i, encode i = w ∧ i.mnemonic = row.mnemonic := by
  simp only [opcodeMap, List.forall_mem_cons]
  exact ⟨(command_of_maskR (mk := .rdreg) (op := 0x02) ·),
    (command_of_maskX (mk := .fcLd) (op := 0x10) ·),
    (command_of_maskR (mk := .fcRd) (op := 0x11) ·),
    (command_of_maskF (mk := .fcVal) (op := 0x12) ·),
    (command_of_maskT (mk := .vtSetcbSlot) (op := 0x20) ·),
    (command_of_maskT (mk := .vtSetcbPeriod) (op := 0x21) ·),
    (command_of_maskT (mk := .vtSetcbOffset) (op := 0x22) ·),
    (command_of_maskT (mk := .vtArmSlot) (op := 0x24) ·),
    (command_of_maskT (mk := .vtArmPeriod) (op := 0x25) ·),
    (command_of_maskT (mk := .vtArmOffset) (op := 0x26) ·),
    (command_of_maskN (c := .vtCancelSlot) (op := 0x28) ·),
    (command_of_maskN (c := .vtCancelPeriod) (op := 0x29) ·),
    (command_of_maskN (c := .vtCancelOffset) (op := 0x2A) ·),
    (command_of_maskN (c := .vtCbret) (op := 0x2C) ·), List.forall_mem_nil _⟩

/-- Every command's word matches the row of its mnemonic. -/
theorem matchesRow : (i : Instr) → Laws.MatchesRow.Statement i
  | .rdreg rn => Laws.MatchesRow.rdreg rn
  | .fcLd idx d => Laws.MatchesRow.fcLd idx d
  | .fcRd idx => Laws.MatchesRow.fcRd idx
  | .fcVal len hw => Laws.MatchesRow.fcVal len hw
  | .vtSetcbSlot tag => Laws.MatchesRow.vtSetcbSlot tag
  | .vtSetcbPeriod tag => Laws.MatchesRow.vtSetcbPeriod tag
  | .vtSetcbOffset tag => Laws.MatchesRow.vtSetcbOffset tag
  | .vtArmSlot v => Laws.MatchesRow.vtArmSlot v
  | .vtArmPeriod v => Laws.MatchesRow.vtArmPeriod v
  | .vtArmOffset v => Laws.MatchesRow.vtArmOffset v
  | .vtCancelSlot => Laws.MatchesRow.vtCancelSlot
  | .vtCancelPeriod => Laws.MatchesRow.vtCancelPeriod
  | .vtCancelOffset => Laws.MatchesRow.vtCancelOffset
  | .vtCbret => Laws.MatchesRow.vtCbret

/-- The mnemonics of the opcode map are distinct. -/
theorem opcodeMap_mnemonic_inj {row row' : OpcodeRow} (h : row ∈ opcodeMap) (h' : row' ∈ opcodeMap)
    (hm : row.mnemonic = row'.mnemonic) : row = row' :=
  List.inj_on_of_nodup_map (f := OpcodeRow.mnemonic) (by decide) h h' hm

/-- A word matches a row exactly when it decodes to a command of the row's mnemonic. -/
theorem match_iff_decode {w : Word32} {row : OpcodeRow} (hrow : row ∈ opcodeMap) :
    w &&& row.mask = row.value ↔ ∃ i, decode w = .ok i ∧ i.mnemonic = row.mnemonic := by
  constructor
  · intro h
    obtain ⟨i, rfl, hm⟩ := command_of_match w row hrow h
    exact ⟨i, decode_encode i, hm⟩
  · rintro ⟨i, hd, hm⟩
    obtain ⟨row', hrow', hm', hmatch⟩ := matchesRow i
    rwa [encode_of_decode hd, opcodeMap_mnemonic_inj hrow' hrow (hm'.trans hm)] at hmatch

/-- A word matches no row exactly when the decoder rejects it. -/
theorem no_match_iff_error {w : Word32} :
    (∀ row ∈ opcodeMap, w &&& row.mask ≠ row.value) ↔ ∃ e, decode w = .error e := by
  constructor
  · intro hno
    cases hd : decode w with
    | error e => exact ⟨e, rfl⟩
    | ok i =>
      obtain ⟨row, hrow, -, hmatch⟩ := matchesRow i
      exact absurd (encode_of_decode hd ▸ hmatch) (hno row hrow)
  · rintro ⟨e, he⟩ row hrow hmatch
    obtain ⟨i, hd, -⟩ := (match_iff_decode hrow).mp hmatch
    simp [he] at hd

/-- Settles O3. -/
theorem decodeFollowsTheOpcodeMap : Obligations.DecodeFollowsTheOpcodeMap :=
  ⟨fun _ _ hrow => match_iff_decode hrow, fun _ => no_match_iff_error⟩

/-! ### Words of the examples -/

/-- Settles O4: the legal words are the words of their commands; the other two have a reserved bit set and an unknown
opcode. -/
theorem wordsOfTheExamplesDecode : Obligations.WordsOfTheExamplesDecode :=
  ⟨decode_encode (.rdreg 0x20), decode_encode (.fcLd 3 0x55), decode_encode (.fcRd 126),
    decode_encode (.fcVal 255 true), decode_encode (.vtSetcbOffset 0xBEEF), decode_encode (.vtArmSlot 0xFFF0),
    decode_encode .vtCancelPeriod, decode_encode .vtCbret, rfl, rfl⟩

end Sys2Proof
end

section
/-! The checks on a command word (30_encoding.md R88). -/

namespace Sys2Proof.Machine

/-! ### The checks -/

/-- A command with an operand out of range only answers `E_RANGE` (30_encoding.md R88 (3)). -/
theorem exec_of_not_wellFormed {i : Instr} {s : State} (h : i.wellFormed s.cfg.cacheDepth = false) :
    exec i s = .next { s with outs := s.outs ++ [.resp (respWord .eRange 0)] } := by
  cases i with
  | rdreg rn => exact exec_rdreg_of_hole h
  | fcLd idx d => exact if_neg (Bool.not_eq_true _ ▸ h)
  | fcRd idx => exact if_neg (Bool.not_eq_true _ ▸ h)
  | _ => cases h

/-! ### A command that passes them -/

/-- A command of the FCC unit, or `RDREG`, in range answers `OK` in every phase. -/
theorem exec_fcc_ok {i : Instr} (hi : i.isVt = false) {s : State} (hwf : i.wellFormed s.cfg.cacheDepth = true) :
    ∃ f p, exec i s = .next { s with fcc := f, outs := s.outs ++ [.resp (respWord .ok p)] } := by
  cases i with
  | rdreg rn =>
    obtain ⟨v, hv⟩ := Option.isSome_iff_exists.mp ((readRegister_isSome s rn).trans hwf)
    exact ⟨s.fcc, _, by rw [exec_rdreg_eq, hv]; rfl⟩
  | fcLd idx d => exact ⟨_, _, if_pos hwf⟩
  | fcRd idx => exact ⟨s.fcc, _, if_pos hwf⟩
  | fcVal len hw => exact ⟨_, _, execFcVal_eq len hw s⟩
  | _ => cases hi

/-- A callback's return answers `OK`, or `FAULT_NOW` when it ends in a fault. -/
theorem Vtd.CatchesUpTo.status {v w : Vtd} {c : Reg16} {o : List Output} {st : Status} (h : v.CatchesUpTo w c o st) :
    st = .ok ∨ st = .faultNow := by
  rcases h with ⟨-, -, -, rfl⟩ | ⟨-, -, -, -, rfl⟩ | ⟨-, -, -, -, rfl⟩
  · exact .inl rfl
  · exact .inl rfl
  · exact .inr rfl

/-- A command that passes the checks ends in its response: `OK`, or `FAULT_NOW` from `VT_CBRET`. -/
theorem exec_of_checked {i : Instr} {s : State} (hf : ¬ (i.isVt = true ∧ s.vtd.phase = .faulted))
    (hwf : i.wellFormed s.cfg.cacheDepth = true) (hc : i = .vtCbret → s.vtd.phase = .cbFirst ∨ s.vtd.phase = .cbLate) :
    ∃ t o st p, exec i s = .next t ∧ t.outs = s.outs ++ o ++ [.resp (respWord st p)]
      ∧ (st = .ok ∨ (i = .vtCbret ∧ st = .faultNow)) := by
  cases hi : i.isVt with
  | false =>
    obtain ⟨f, p, he⟩ := exec_fcc_ok hi hwf
    exact ⟨_, [], .ok, p, he, by simp, .inl rfl⟩
  | true =>
    by_cases hcb : i = .vtCbret
    · subst hcb
      obtain ⟨v, w, o, o', st, p, -, hcatch, he⟩ := callbackReturn_cases s
      exact ⟨_, o ++ o', st, p, exec_cbret_open (hc rfl), by rw [he, List.append_assoc s.outs],
        hcatch.status.imp_right fun hst => ⟨rfl, hst⟩⟩
    · obtain ⟨w, o, p, -, he⟩ := exec_command_cases hi hcb fun h => hf ⟨hi, h⟩
      exact ⟨_, o, .ok, p, he, rfl, .inl rfl⟩

/-- Settles O7, check by check: the illegal word, `FAULTED`, the range, the phase; then the command itself. -/
theorem commandChecksInOrder : Obligations.CommandChecksInOrder := by
  intro s w c rest hin s0 answers
  have hstep : step s = takeCommand w s0 := step_cmd hin
  refine ⟨fun hno => ?illegal, fun i hd => ?legal⟩
  case illegal =>
    obtain ⟨e, he⟩ := no_match_iff_error.mp hno
    exact hstep.trans (takeCommand_error he s0)
  case legal =>
    have hexec : step s = exec i s0 := hstep.trans (takeCommand_ok hd s0)
    refine ⟨fun ⟨hvt, hfault⟩ => hexec.trans (exec_vt_faulted hvt hfault),
      fun hrange => hexec.trans (exec_of_not_wellFormed hrange), ?phase, fun hf hwf hc => ⟨hexec, ?executes⟩⟩
    case phase =>
      rintro ⟨rfl, hidle⟩
      exact hexec.trans (exec_cbret_idle hidle)
    case executes =>
      obtain ⟨t, o, st, p, ht, houts, hst⟩ := exec_of_checked (s := s0) hf hwf hc
      refine ⟨t, o, respWord st p, hexec.trans ht, houts, ?_⟩
      rw [respStatus, respWord_status]
      exact hst.imp (congrArg Status.code) (And.imp_right (congrArg Status.code))

end Sys2Proof.Machine
end

section
/-! The byte commands of the FCC unit, and `FC_VAL` verdict by verdict (40_fcc_commands.md R102, R106, R107). -/

namespace Sys2Proof.Machine

/-! ### `FC_LD` and `FC_RD` -/

theorem isBufferIndex_of_le {idx : BitVec 8} (h : idx.toNat ≤ 126) : isBufferIndex idx = true :=
  decide_eq_true (Nat.lt_succ_of_le h)

/-- Settles O19, by the laws of a store after a write. -/
theorem fcLdWritesOneByte : Obligations.FcLdWritesOneByte := by
  intro s idx d hidx hwf
  exact ⟨Memory.write s.fcc.rxbuf idx.toNat d, if_pos (isBufferIndex_of_le hidx),
    Memory.read_write_same hwf idx.toNat d, fun j hj => Memory.read_write_other _ d hj⟩

/-- Settles O20: the range check passes, and the response is the byte. -/
theorem fcRdReadsOneByte : Obligations.FcRdReadsOneByte := by
  intro s idx hidx
  rw [← respWord_ok_setWidth _ (by decide)]
  exact if_pos (isBufferIndex_of_le hidx)

/-! ### The branches of `FC_VAL` (40_fcc_commands.md R106) -/

/-- The frame body passes: by the hardware bit in `HW` mode, by `CrcOk` in `SW` mode. -/
abbrev Fcc.Passes (f : Fcc) (p : Params) (len : Byte) (hw : Bool) : Prop :=
  (p.crcMode = .hw ∧ hw = true) ∨ (p.crcMode = .sw ∧ crcOk p.frameCheck (f.frame len.toNat) = true)

section
variable {p : Params} {f : Fcc} {len : Byte} {hw : Bool}

theorem Fcc.validate_of_oversize (h : 127 < len.toNat) : f.validate p len hw = f.verdict len .dropOversize := if_pos h

theorem Fcc.validate_of_passes (hlen : len.toNat ≤ 127) (h : f.Passes p len hw) :
    f.validate p len hw = f.verdict len .passDirect := by
  rw [Fcc.validate, if_neg (Nat.not_lt.mpr hlen)]
  rcases h with ⟨hmode, hpass⟩ | ⟨hmode, hpass⟩ <;> simp only [hmode, hpass, if_true]

theorem Fcc.validate_of_hw_fail (hlen : len.toNat ≤ 127) (hmode : p.crcMode = .hw) :
    f.validate p len false = f.verdict len .failNocache := by
  rw [Fcc.validate, if_neg (Nat.not_lt.mpr hlen)]
  simp only [hmode, Bool.false_eq_true, if_false]

theorem Fcc.validate_of_sw_fail (hlen : len.toNat ≤ 127) (hmode : p.crcMode = .sw)
    (hfail : crcOk p.frameCheck (f.frame len.toNat) = false) :
    f.validate p len hw = f.recover p len (f.frame len.toNat) := by
  rw [Fcc.validate, if_neg (Nat.not_lt.mpr hlen)]
  simp only [hmode, hfail, Bool.false_eq_true, if_false]

theorem Fcc.recover_of_some {n : List Byte} {a : Accepted} (h : searchCache p f n = some a) :
    f.recover p len n = (f.correct n a).verdictCombined len a := by
  rw [Fcc.recover, h]

theorem Fcc.recover_of_none {n : List Byte} (h : searchCache p f n = none) :
    f.recover p len n = (f.insert p.cacheDepth len n).verdict len .failCached := by
  rw [Fcc.recover, h]

end

/-! ### The result registers as sums (10_state.md R25, 40_fcc_commands.md R106) -/

/-- `FCRES` as the sum of its fields in their places. -/
theorem fcresWord_eq_add (len : Byte) (combo : BitVec 2) (v : Verdict) :
    fcresWord len combo v
      = (len.setWidth 16 <<< 8) + (combo.setWidth 16 <<< 4) + (v.code ++ BitVec.ofBool v.pass).setWidth 16 := by
  apply BitVec.eq_of_toNat_eq
  have hlow := toNat_append_eq v.code (BitVec.ofBool v.pass)
  have hl := len.isLt
  have hc := combo.isLt
  have hv := v.code.isLt
  have hp := (BitVec.ofBool v.pass).isLt
  simp only [fcresWord_toNat, BitVec.toNat_add, BitVec.toNat_shiftLeft, BitVec.toNat_setWidth, hlow, Nat.shiftLeft_eq]
  omega

/-- A verdict that accepted no trial leaves the field `combo` 0. -/
theorem fcresWord_zero_combo (len : Byte) (v : Verdict) :
    fcresWord len 0 v = (len.setWidth 16 <<< 8) + (v.code ++ BitVec.ofBool v.pass).setWidth 16 := by
  rw [fcresWord_eq_add, show (0 : BitVec 2).setWidth 16 <<< 4 = 0#16 from rfl, BitVec.add_zero]

theorem fcposWord_eq_ofNat {p1 p2 : Nat} (h1 : p1 < 128) (h2 : p2 < 128) :
    fcposWord p1 p2 = BitVec.ofNat 16 (p2 * 256 + p1) := by
  apply BitVec.eq_of_toNat_eq
  rw [fcposWord_toNat h1 h2, BitVec.toNat_ofNat, Nat.mod_eq_of_lt (by omega)]

/-- Every entry of a cache in the range of 00_scope.md R6 has an index of 6 bits. -/
theorem fcentWord_eq_ofNat {e : Nat} (h : e < 64) : fcentWord e = BitVec.ofNat 16 e :=
  cwrWord_eq h

/-! ### `FC_VAL` as a command -/

/-- `FC_VAL` leaves the validated unit and answers its `FCRES` (30_encoding.md R86). -/
theorem exec_fcVal_of_validate {s : State} {len : BitVec 8} {hw : Bool} {f : Fcc}
    (h : s.fcc.validate s.cfg len hw = f) :
    exec (.fcVal len hw) s = .next { s with fcc := f, outs := s.outs ++ [.resp (f.fcres.setWidth 32)] } := by
  rw [← h, ← respWord_ok_setWidth _ (by decide)]
  exact execFcVal_eq len hw s

theorem exec_fcVal_fcc {s t : State} {len : BitVec 8} {hw : Bool} (h : exec (.fcVal len hw) s = .next t) :
    t.fcc = s.fcc.validate s.cfg len hw := by
  rw [exec_fcVal_of_validate rfl] at h
  rw [← Host.Outcome.next.inj h]

/-- A verdict without an accepted trial or an insertion changes only the result registers. -/
theorem exec_fcVal_of_verdict {s : State} {len : BitVec 8} {hw : Bool} {v : Verdict}
    (h : s.fcc.validate s.cfg len hw = s.fcc.verdict len v) :
    let r : Reg16 := (len.setWidth 16 <<< 8) + (v.code ++ BitVec.ofBool v.pass).setWidth 16
    exec (.fcVal len hw) s =
      .next { s with
        fcc := { s.fcc with fcres := r, fcpos := 0, fcent := 0 }
        outs := s.outs ++ [.resp (r.setWidth 32)] } := by
  intro r
  have hr : fcresWord len 0 v = r := fcresWord_zero_combo len v
  rw [exec_fcVal_of_validate h, ← hr]
  rfl

/-- Settles O21: the length check comes first. -/
theorem fcValDropsOversize : Obligations.FcValDropsOversize :=
  fun _ _ _ hlen => exec_fcVal_of_verdict (Fcc.validate_of_oversize hlen)

/-- Settles O22, for both modes. -/
theorem fcValPassesDirectly : Obligations.FcValPassesDirectly :=
  fun _ _ _ hlen hpass => exec_fcVal_of_verdict (Fcc.validate_of_passes hlen hpass)

/-- Settles O23: in `HW` mode nothing is cached. -/
theorem fcValFailsInHardwareMode : Obligations.FcValFailsInHardwareMode :=
  fun _ _ hlen hmode => exec_fcVal_of_verdict (Fcc.validate_of_hw_fail hlen hmode)

end Sys2Proof.Machine
end

section
/-! The failed frame in `SW` mode: what an accepted trial is and does, and what an insertion does (40_fcc_commands.md R103 to
R105, R108, R109). -/

namespace Sys2Proof.Machine

/-! ### The accepted trial -/

/-- The trial the search accepts comes from a candidate with exactly two differences, and its frame checks. -/
theorem searchCache_accepts {p : Params} {f : Fcc} {n : List Byte} {a : Accepted} (h : searchCache p f n = some a) :
    a.entry < p.cacheDepth ∧ (f.entry a.entry).valid = true ∧ (f.entry a.entry).len.toNat = n.length
    ∧ (f.entry a.entry).DiffersAt n a.p1 a.p2
    ∧ crcOk p.frameCheck (trialFrame (f.entry a.entry) n a.p1 a.p2 a.trial) = true := by
  obtain ⟨hentry, htry, -⟩ := searchCache_eq_some.mp h
  obtain ⟨-, hvalid, hlen, hdiff, hfirst⟩ := tryEntry_eq_some.mp htry
  have hok := List.find?_some (p := fun k => crcOk p.frameCheck (trialFrame (f.entry a.entry) n a.p1 a.p2 k)) hfirst
  exact ⟨hentry, hvalid, hlen, hdiff, hok⟩

/-- The first validating trial: those before it in `COMBO_ORDER` do not validate (40_fcc_commands.md R104). -/
theorem firstTrial_of_split {p : Params} {c : CacheEntry} {n t : List Byte} {p1 p2 : Nat} {k : BitVec 2}
    {ks ks' : List (BitVec 2)} (hp : p1 < p2) (horder : p.comboOrder = ks ++ k :: ks')
    (hbefore : ∀ k' ∈ ks, ∀ t', c.IsTrial n p1 p2 k' t' → crcOk p.frameCheck t' = false)
    (ht : c.IsTrial n p1 p2 k t) (hok : crcOk p.frameCheck t = true) : firstTrial p c n p1 p2 = some k := by
  refine List.find?_eq_some_iff_append.mpr ⟨ht.eq hp ▸ hok, ks, ks', horder, fun k' hk' => ?_⟩
  rw [hbefore k' hk' _ (trialFrame_isTrial c hp k')]
  rfl

/-- The receive buffer after a correction, byte by byte: the selected positions hold the cached bytes. -/
theorem Fcc.correct_read {f : Fcc} (hwf : f.rxbuf.wf) {a : Accepted} {len : Nat}
    (hd : (f.entry a.entry).DiffersAt (f.frame len) a.p1 a.p2) (j : Nat) :
    Memory.read (f.correct (f.frame len) a).rxbuf j =
      if (j = a.p1 ∧ a.trial.getLsbD 0 = true) ∨ (j = a.p2 ∧ a.trial.getLsbD 1 = true)
        then Memory.read (f.entry a.entry).data j else Memory.read f.rxbuf j := by
  have hframe := Fcc.correct_frame hwf hd
  obtain ⟨h12, h2, -⟩ := hd
  rcases Nat.lt_or_ge j len with hj | hj
  · rw [← Fcc.frame_getD _ hj, hframe, trialFrame_getD _ h12 _ (by rwa [Fcc.frame_length]), Fcc.frame_getD _ hj]
  · rw [Fcc.frame_length] at h2
    have hj1 : j ≠ a.p1 := by omega
    have hj2 : j ≠ a.p2 := by omega
    rw [if_neg (by simp [hj1, hj2]), Fcc.correct, Memory.read_write_other _ _ hj2, Memory.read_write_other _ _ hj1]

/-- Trial 0 is the new frame itself (40_fcc_commands.md R104). -/
theorem trialFrame_zero (c : CacheEntry) (n : List Byte) (p1 p2 : Nat) : trialFrame c n p1 p2 0 = n := rfl

/-- Trial 3 is the cached frame itself (40_fcc_commands.md R104). -/
theorem trialFrame_three {c : CacheEntry} {n : List Byte} {p1 p2 : Nat} (hlen : c.len.toNat = n.length)
    (hd : c.DiffersAt n p1 p2) : trialFrame c n p1 p2 3 = c.frame := by
  obtain ⟨h12, -, hdiff⟩ := hd
  refine bytes_ext (by simp [hlen]) fun j hj => ?_
  rw [trialFrame_length] at hj
  rw [trialFrame_getD c h12 3 hj, CacheEntry.frame, Memory.prefixBytes_getD _ (hlen ▸ hj)]
  split
  · rfl
  · next hsel =>
    have hsame : ¬ Memory.read c.data j ≠ n.getD j 0 := fun hne =>
      hsel (((hdiff j hj).mp hne).imp (⟨·, rfl⟩) (⟨·, rfl⟩))
    exact (not_not.mp hsame).symm

/-- When both frames fail the check only the two mixed trials can validate (40_fcc_commands.md R106 (f)). -/
theorem trial_eq_one_or_two {k : FrameCheck} {c : CacheEntry} {n : List Byte} {p1 p2 : Nat}
    (hlen : c.len.toNat = n.length) (hd : c.DiffersAt n p1 p2) (hn : crcOk k n = false) (hc : crcOk k c.frame = false)
    {i : BitVec 2} (hok : crcOk k (trialFrame c n p1 p2 i) = true) : i = 1 ∨ i = 2 := by
  have h0 : i ≠ 0 := by
    rintro rfl
    rw [trialFrame_zero, hn] at hok
    cases hok
  have h3 : i ≠ 3 := by
    rintro rfl
    rw [trialFrame_three hlen hd, hc] at hok
    cases hok
  bv_omega

/-- A correction that selects the one position `q` of the two changes the byte there and no other. -/
theorem Fcc.correct_changes_one_byte {f : Fcc} (hwf : f.rxbuf.wf) {a : Accepted} {len q : Nat}
    (hd : (f.entry a.entry).DiffersAt (f.frame len) a.p1 a.p2) (hq : q = a.p1 ∨ q = a.p2)
    (hsel : ∀ j, (j = a.p1 ∧ a.trial.getLsbD 0 = true) ∨ (j = a.p2 ∧ a.trial.getLsbD 1 = true) ↔ j = q) :
    q < len
    ∧ Memory.read (f.correct (f.frame len) a).rxbuf q ≠ Memory.read f.rxbuf q
    ∧ ∀ j, j ≠ q → Memory.read (f.correct (f.frame len) a).rxbuf j = Memory.read f.rxbuf j := by
  have hread := Fcc.correct_read hwf hd
  simp only [hsel] at hread
  obtain ⟨h12, h2, hdiff⟩ := hd
  rw [Fcc.frame_length] at h2 hdiff
  have hlt : q < len := by omega
  refine ⟨hlt, ?_, fun j hj => by rw [hread, if_neg hj]⟩
  rw [hread, if_pos rfl, ← Fcc.frame_getD f hlt]
  exact (hdiff q hlt).mpr hq

/-! ### The commands on a failed frame -/

/-- Settles O24: the hypotheses say what the search finds, and the correction writes the trial. -/
theorem fcValCombines : Obligations.FcValCombines := by
  intro s len hw e p1 p2 k ks ks' n t hn hcfg hwf hlen hmode hfail he hvalid helen hd horder hbefore ht hok hfirst r
  obtain rfl : n = s.fcc.frame len.toNat := hn
  obtain ⟨-, hdepth, -⟩ := hcfg
  have ⟨hp, hp2, _⟩ := hd
  rw [Fcc.frame_length] at hp2
  let a : Accepted := { entry := e, trial := k, p1 := p1, p2 := p2 }
  have hsearch : searchCache s.cfg s.fcc (s.fcc.frame len.toNat) = some a :=
    searchCache_eq_some.mpr ⟨he, tryEntry_eq_some.mpr ⟨rfl, hvalid, by rw [helen, Fcc.frame_length], hd,
      firstTrial_of_split hp horder hbefore ht hok⟩, hfirst⟩
  have hval := (Fcc.validate_of_sw_fail (hw := hw) hlen hmode hfail).trans (Fcc.recover_of_some hsearch)
  refine ⟨(s.fcc.correct (s.fcc.frame len.toNat) a).rxbuf, ?_, ?_, fun j h1 h2 => ?_⟩
  · have hr : fcresWord len k .passCombined = r := fcresWord_eq_add len k .passCombined
    rw [exec_fcVal_of_validate hval, ← hr, ← fcposWord_eq_ofNat (by omega) (by omega),
      ← fcentWord_eq_ofNat (he.trans_le hdepth)]
    rfl
  · exact (Fcc.correct_frame hwf hd).trans (ht.eq hp).symm
  · rw [Fcc.correct_read hwf hd, if_neg (by simp [a, h1, h2])]

/-- Settles O25: the search finds nothing, and the entry at `cwr` takes the frame. -/
theorem fcValCachesTheFailedFrame : Obligations.FcValCachesTheFailedFrame := by
  intro s len hw n hn hcwr hwf hlen hmode hfail hnone r
  obtain rfl : n = s.fcc.frame len.toNat := hn
  have hval := (Fcc.validate_of_sw_fail (hw := hw) hlen hmode hfail).trans
    (Fcc.recover_of_none (searchCache_eq_none.mpr hnone))
  refine ⟨{ valid := true, len := len, data := Memory.writeFrom (s.fcc.entry s.fcc.cwr).data 0 (s.fcc.frame len.toNat) },
    ?_, rfl, rfl, fun j hj => ?_, fun j hj => ?_⟩
  · have hr : fcresWord len 0 .failCached = r := fcresWord_zero_combo len .failCached
    rw [exec_fcVal_of_validate hval, ← hr]
    rfl
  · have hsame := Memory.read_writeFrom_same hwf 0 (s.fcc.frame len.toNat) (j := j) (by rwa [Fcc.frame_length])
    rwa [Nat.zero_add, Fcc.frame_getD _ hj] at hsame
  · exact Memory.read_writeFrom_other _ 0 _ (.inr (by rwa [Fcc.frame_length, Nat.zero_add]))

/-! ### What the verdict says (40_fcc_commands.md R108) -/

/-- A passing verdict in `SW` mode is about the frame the buffer then holds. -/
theorem Fcc.validate_pass_checks {p : Params} {f : Fcc} {len : Byte} {hw : Bool} (hmode : p.crcMode = .sw)
    (hwf : f.rxbuf.wf) (hpass : fcresPass (f.validate p len hw).fcres = true) :
    len.toNat ≤ 127 ∧ crcOk p.frameCheck ((f.validate p len hw).frame len.toNat) = true := by
  rcases Fcc.validate_cases p f len hw with ⟨-, he⟩ | ⟨hlen, hp, he⟩ | ⟨-, hhw, -⟩ | ⟨hlen, -, -, a, ha, he⟩
    | ⟨-, -, -, -, he⟩
  · simp [he, Fcc.verdict, Verdict.pass] at hpass
  · rw [he]
    rcases hp with ⟨hhw, -⟩ | ⟨-, hok⟩
    · rw [hmode] at hhw; cases hhw
    · exact ⟨hlen, hok⟩
  · rw [hmode] at hhw; cases hhw
  · obtain ⟨-, -, -, hd, hok⟩ := searchCache_accepts ha
    rw [he]
    exact ⟨hlen, (congrArg (crcOk p.frameCheck) (Fcc.correct_frame hwf hd)).trans hok⟩
  · simp [he, Fcc.verdict, Verdict.pass] at hpass

/-- Settles O26. -/
theorem fcValPassMeansTheFrameChecks : Obligations.FcValPassMeansTheFrameChecks := by
  intro s t len hw hmode hwf h hpass
  rw [exec_fcVal_fcc h] at hpass ⊢
  exact Fcc.validate_pass_checks hmode hwf hpass

/-- Settles O27: only the insertion writes the cache. -/
theorem cacheChangesOnlyOnFailCached : Obligations.CacheChangesOnlyOnFailCached := by
  intro s t len hw h
  rw [exec_fcVal_fcc h]
  rcases Fcc.validate_cases s.cfg s.fcc len hw with ⟨-, he⟩ | ⟨-, -, he⟩ | ⟨-, -, -, he⟩ | ⟨-, -, -, a, -, he⟩
    | ⟨-, -, -, -, he⟩
  case inr.inr.inr.inr =>
    rw [he]
    exact ⟨fun hne => absurd (fcresVerdict_fcresWord len 0 .failCached) hne,
      fun _ _ hecwr => Fcc.insert_entry_other s.fcc hecwr s.cfg.cacheDepth len _⟩
  all_goals
    rw [he]
    exact ⟨fun _ => ⟨rfl, rfl⟩, fun _ _ _ => rfl⟩

/-- Settles O28: a cached frame fails the check like the new one, so one of the two mixed trials was accepted. -/
theorem combinationCorrectsExactlyOneByte : Obligations.CombinationCorrectsExactlyOneByte := by
  rintro s t len hw ⟨hwf, -⟩ ⟨-, -, -, -, hcached, -⟩ h
  rw [exec_fcVal_fcc h]
  rcases Fcc.validate_cases s.cfg s.fcc len hw with ⟨-, he⟩ | ⟨-, -, he⟩ | ⟨-, -, -, he⟩ | ⟨hlen, -, hfail, a, ha, he⟩
    | ⟨-, -, -, -, he⟩
  case inr.inr.inr.inl =>
    obtain ⟨hentry, hvalid, helen, hd, hok⟩ := searchCache_accepts ha
    have ⟨h12, h2, _⟩ := hd
    rw [Fcc.frame_length] at h2
    have hp2 : a.p2 < 128 := by omega
    have hp1 : a.p1 < 128 := h12.trans hp2
    rw [he]
    refine ⟨fun hne => absurd (fcresVerdict_fcresWord len a.trial .passCombined) hne, fun _ => ?_⟩
    rcases trial_eq_one_or_two helen hd hfail (hcached _ hentry hvalid) hok with htrial | htrial
    · exact ⟨a.p1, .inl ⟨(fcresWord_combo ..).trans htrial, (fcposWord_p1 hp1 hp2).symm⟩,
        Fcc.correct_changes_one_byte hwf hd (.inl rfl) fun j => by simp [htrial]⟩
    · exact ⟨a.p2, .inr ⟨(fcresWord_combo ..).trans htrial, (fcposWord_p2 hp1 hp2).symm⟩,
        Fcc.correct_changes_one_byte hwf hd (.inr rfl) fun j => by simp [htrial]⟩
  all_goals
    rw [he]
    refine ⟨fun _ => rfl, fun hcomb => ?_⟩
    rw [Fcc.verdict, fcresVerdict_fcresWord] at hcomb
    exact absurd hcomb (by decide)

/-! ### Two failed copies (40_fcc_commands.md R109) -/

/-- With all four trials in the order, an entry of the cache is combinable when some combination validates. -/
theorem combinable_iff_validates {p : Params} {f : Fcc} {n : List Byte} {e : Nat} (hp : p.wf) (he : e < p.cacheDepth)
    (hvalid : (f.entry e).valid = true) (hlen : (f.entry e).len.toNat = n.length) :
    f.Combinable p n e ↔
      ∃ p1 p2, (f.entry e).DiffersAt n p1 p2
        ∧ ∃ k t, (f.entry e).IsTrial n p1 p2 k t ∧ crcOk p.frameCheck t = true := by
  obtain ⟨-, -, horder⟩ := hp
  have hmem : ∀ k : BitVec 2, k ∈ p.comboOrder := fun k =>
    horder.mem_iff.mpr ((by decide : ∀ k : BitVec 2, k ∈ [(0 : BitVec 2), 1, 2, 3]) k)
  constructor
  · rintro ⟨-, -, -, p1, p2, k, t, hd, -, ht, hok⟩
    exact ⟨p1, p2, hd, k, t, ht, hok⟩
  · rintro ⟨p1, p2, hd, k, t, ht, hok⟩
    exact ⟨he, hvalid, hlen, p1, p2, k, t, hd, hmem k, ht, hok⟩

/-- Settles O29: the one entry is combinable or it is not, and then the frame takes its place. -/
theorem twoCorruptedCopiesRecoverTheFrame : Obligations.TwoCorruptedCopiesRecoverTheFrame := by
  intro s len hw n hn hcfg hmode hdepth hstores hinv hlen hfail hvalid helen validates
  obtain rfl : n = s.fcc.frame len.toNat := hn
  have hcomb := combinable_iff_validates (p := s.cfg) (n := s.fcc.frame len.toNat) (e := 0) hcfg (by omega) hvalid
    (by rw [helen, Fcc.frame_length])
  have hval : s.fcc.validate s.cfg len hw = s.fcc.recover s.cfg len (s.fcc.frame len.toNat) :=
    Fcc.validate_of_sw_fail hlen hmode hfail
  refine ⟨_, exec_fcVal_of_validate hval, fun hsome => ?recovered, fun hnone => ?cached⟩
  case recovered =>
    obtain ⟨a, ha⟩ : ∃ a, searchCache s.cfg s.fcc (s.fcc.frame len.toNat) = some a :=
      Option.ne_none_iff_exists'.mp fun h => searchCache_eq_none.mp h 0 (hcomb.mpr hsome)
    have hpass : fcresPass (s.fcc.validate s.cfg len hw).fcres = true := by
      rw [hval, Fcc.recover_of_some ha]
      exact fcresPass_fcresWord len a.trial .passCombined
    have hchecks := Fcc.validate_pass_checks hmode hstores.1 hpass
    rw [hval] at hpass hchecks
    exact ⟨hpass, hchecks.2⟩
  case cached =>
    have hno : ∀ e, ¬ s.fcc.Combinable s.cfg (s.fcc.frame len.toNat) e := by
      intro e hc
      obtain rfl : e = 0 := Nat.lt_one_iff.mp (hdepth ▸ hc.1)
      obtain ⟨p1, p2, hd, hv⟩ := hcomb.mp hc
      exact hnone p1 p2 hd hv
    obtain ⟨hlength, hcwr, -⟩ := hinv
    have hcwr0 : s.fcc.cwr = 0 := by omega
    have hroom : s.fcc.cwr < s.fcc.cache.length := by omega
    rw [Fcc.recover_of_none (searchCache_eq_none.mpr hno)]
    have hentry := Fcc.insert_entry_same hroom s.cfg.cacheDepth len (s.fcc.frame len.toNat)
    have hframe := Fcc.insert_entry_frame hroom (hstores.entry s.fcc.cwr).1 s.cfg.cacheDepth len
    rw [hcwr0] at hentry hframe
    have hentrylen := congrArg CacheEntry.len hentry
    rw [CacheEntry.frame, hentrylen] at hframe
    exact ⟨fcresPass_fcresWord len 0 .failCached, rfl, congrArg CacheEntry.valid hentry, hentrylen, hframe⟩

end Sys2Proof.Machine
end

section
/-! The DEFAULT frame check (40_fcc_commands.md R101, log 5): the register is linear in its content, so the check bytes at the
end of a frame cancel exactly the check of what stands before them. -/

namespace Sys2Proof.Machine

/-! ### The shift -/

/-- One turn as a shift and a feedback selected by the bit shifted out. -/
theorem crcShift_eq_xor (c : Reg16) : crcShift c = c >>> 1 ^^^ (if c.getLsbD 0 then 0x8408 else 0) := by
  rw [crcShift]
  split
  · rfl
  · exact (BitVec.xor_zero ..).symm

/-- One turn is linear over exclusive or. -/
theorem crcShift_xor (c d : Reg16) : crcShift (c ^^^ d) = crcShift c ^^^ crcShift d := by
  have hfeedback : ∀ a b : Bool, (if (a ^^ b) then (0x8408 : Reg16) else 0)
      = (if a then 0x8408 else 0) ^^^ (if b then 0x8408 else 0) := by decide
  rw [crcShift_eq_xor, crcShift_eq_xor c, crcShift_eq_xor d, BitVec.ushiftRight_xor_distrib, BitVec.getLsbD_xor,
    hfeedback]
  ac_rfl

theorem crcShifts_xor (n : Nat) (c d : Reg16) : crcShifts n (c ^^^ d) = crcShifts n c ^^^ crcShifts n d := by
  induction n generalizing c d with
  | zero => rfl
  | succ n ih => rw [crcShifts, crcShift_xor, ih]; rfl

theorem crcShifts_add (m n : Nat) (c : Reg16) : crcShifts (m + n) c = crcShifts n (crcShifts m c) := by
  induction m generalizing c with
  | zero => rw [Nat.zero_add]; rfl
  | succ m ih => rw [Nat.succ_add]; exact ih (crcShift c)

/-- No other content is shifted to 0: the feedback sets the top bit, which the shift leaves clear. -/
theorem crcShift_eq_zero {c : Reg16} : crcShift c = 0 ↔ c = 0 := by
  refine ⟨fun h => ?_, fun h => by rw [h]; rfl⟩
  cases hbit : c.getLsbD 0 with
  | true =>
    have htop := congrArg (BitVec.getLsbD · 15) h
    simp [crcShift, hbit] at htop
  | false =>
    rw [crcShift, hbit, if_neg Bool.false_ne_true] at h
    rw [BitVec.getLsbD, Nat.testBit_zero, decide_eq_false_iff_not] at hbit
    bv_omega

theorem crcShifts_eq_zero {n : Nat} {c : Reg16} : crcShifts n c = 0 ↔ c = 0 := by
  induction n generalizing c with
  | zero => exact Iff.rfl
  | succ n ih => exact ih.trans crcShift_eq_zero

/-- A turn undoes a doubling that loses no bit. -/
theorem crcShift_double {c : Reg16} (h : c.toNat * 2 < 2 ^ 16) : crcShift (c <<< 1) = c := by
  have heven : (c <<< 1).getLsbD 0 = false := by simp
  rw [crcShift, heven, if_neg Bool.false_ne_true]
  bv_omega

theorem crcShifts_shiftLeft {n : Nat} {c : Reg16} (h : c.toNat * 2 ^ n < 2 ^ 16) : crcShifts n (c <<< n) = c := by
  induction n with
  | zero => exact BitVec.shiftLeft_zero ..
  | succ n ih =>
    have hn : c.toNat * 2 ^ n * 2 < 2 ^ 16 := by rwa [Nat.pow_succ, ← Nat.mul_assoc] at h
    have hnat : (c <<< n).toNat = c.toNat * 2 ^ n := by
      rw [BitVec.toNat_shiftLeft, Nat.shiftLeft_eq, Nat.mod_eq_of_lt (by omega)]
    rw [crcShifts, BitVec.shiftLeft_add, crcShift_double (hnat ▸ hn)]
    exact ih (by omega)

/-! ### The check bytes -/

/-- The two check bytes enter the register as one word, low-order byte first. -/
theorem crcByte_crcByte (c : Reg16) (lo hi : Byte) : crcByte (crcByte c lo) hi = crcShifts 16 (c ^^^ (hi ++ lo)) := by
  have hword : hi ++ lo = lo.setWidth 16 ^^^ hi.setWidth 16 <<< 8 := by
    refine BitVec.eq_of_getLsbD_eq fun i hlt => BitVec.getLsbD_append.trans ?_
    rcases Nat.lt_or_ge i 8 with h | h
    · simp [h, hlt]
    · simp [h, Nat.not_lt.mpr h, hlt]
  have hhi : crcShifts 8 (hi.setWidth 16 <<< 8) = hi.setWidth 16 := crcShifts_shiftLeft (by
    rw [BitVec.toNat_setWidth]
    omega)
  calc crcByte (crcByte c lo) hi
      = crcShifts 8 (crcShifts 8 (c ^^^ lo.setWidth 16) ^^^ crcShifts 8 (hi.setWidth 16 <<< 8)) := by rw [hhi]; rfl
    _ = crcShifts 16 (c ^^^ lo.setWidth 16 ^^^ hi.setWidth 16 <<< 8) := by rw [← crcShifts_xor, ← crcShifts_add]
    _ = crcShifts 16 (c ^^^ (hi ++ lo)) := by rw [hword, BitVec.xor_assoc]

theorem crc16_append_check (g : List Byte) (lo hi : Byte) :
    crc16 (g ++ [lo, hi]) = crcShifts 16 (crc16 g ^^^ (hi ++ lo)) := by
  rw [crc16, List.foldl_append]
  exact crcByte_crcByte ..

theorem crcOkDefault_append_check (g : List Byte) (lo hi : Byte) :
    crcOkDefault (g ++ [lo, hi]) = (crc16 g == hi ++ lo) := by
  simp [crcOkDefault]

/-- A frame of two bytes or more ends in its check bytes. -/
theorem exists_check_bytes {f : List Byte} (h : 2 ≤ f.length) : ∃ g lo hi, f = g ++ [lo, hi] := by
  obtain ⟨lo, hi, hdrop⟩ := List.length_eq_two.mp (show (f.drop (f.length - 2)).length = 2 by
    rw [List.length_drop]; omega)
  exact ⟨f.take (f.length - 2), lo, hi, by rw [← hdrop, List.take_append_drop]⟩

/-- Settles O30: the residue is the check of the body with the check bytes in it, shifted out, which loses nothing. -/
theorem defaultCheckIsAZeroResidue : Obligations.DefaultCheckIsAZeroResidue := by
  intro f hf
  obtain ⟨g, lo, hi, rfl⟩ := exists_check_bytes hf
  rw [crcOkDefault_append_check, crc16_append_check, beq_iff_eq, crcShifts_eq_zero]
  exact BitVec.xor_eq_zero_iff.symm

/-! ### The listed values -/

theorem crc16_replicate_zero (n : Nat) : crc16 (List.replicate n 0) = 0 := by
  induction n with
  | zero => rfl
  | succ n ih => exact ih

/-- Settles O31: an all-zero frame has a zero residue. -/
theorem defaultCheckValues : Obligations.DefaultCheckValues := by
  refine ⟨by decide +kernel, rfl, fun n hn => ?_, fun f hf => if_pos hf⟩
  exact (defaultCheckIsAZeroResidue _ (by rwa [List.length_replicate])).mpr (crc16_replicate_zero n)

end Sys2Proof.Machine
end

section
/-! The VTD unit's invariants (41_vtd_commands.md R165): what each kind of transition keeps. -/

namespace Sys2Proof.Machine

variable {v w : Vtd} {i : Instr} {j : Timer} {t : LogicalTimer} {c d : Reg16} {o : List Output} {st : Status}
  {found : Bool} {e e' : Prop}

/-! ### The invariant in two parts -/

/-- The clauses of `Vtd.inv` that do not speak of `next`. -/
structure Vtd.Sound (v : Vtd) : Prop where
  image : v.now = v.hwcmp
  enable : v.nextv = v.hwie
  fault_iff : v.flt = 0 ↔ v.phase ≠ .faulted
  one_fault : v.flt = 0 ∨ v.flt = 1 ∨ v.flt = 2
  callback : v.phase = .cbFirst ∨ v.phase = .cbLate → v.nextv = true ∧ (v.timer v.cur).cbv = true
  period_off : v.period.armed = false → v.period.dly = 0

/-- `next` was written when a timer is armed, and `now` is its compare value, but for the PERIOD timer in the case `e`. -/
def Vtd.Tracks (v : Vtd) (e : Prop) : Prop :=
  (∀ j, (v.timer j).armed = true → v.nextv = true)
  ∧ (v.nextv = true → (v.timer v.next).cmp = v.now ∨ (v.next = .period ∧ e))

/-- When the PERIOD timer's compare value may have left `now` (R165 (d)): it fired late, it fired and faulted, or it was off
when it fired. -/
def Vtd.Excused (v : Vtd) : Prop := v.phase = .cbLate ∨ v.phase = .faulted ∨ v.period.armed = false

theorem Vtd.Tracks.imp (h : v.Tracks e) (he : e → e') : v.Tracks e' :=
  ⟨h.1, fun hn => (h.2 hn).imp_right (.imp_right he)⟩

theorem Vtd.inv_iff : v.inv ↔ v.Sound ∧ v.Tracks v.Excused := by
  have harmed : (∀ j, (v.timer j).armed = true → v.nextv = true)
      ↔ (v.slot.armed = true ∨ v.period.armed = true ∨ v.offset.armed = true → v.nextv = true) := by
    rw [Timer.forall_iff, or_imp, or_imp]
    rfl
  constructor
  · rintro ⟨himage, henable, hfault, hone, hwritten, hcallback, hoff, hnext⟩
    exact ⟨⟨himage, henable, hfault, hone, hcallback, hoff⟩, harmed.mpr hwritten, hnext⟩
  · rintro ⟨⟨himage, henable, hfault, hone, hcallback, hoff⟩, hwritten, hnext⟩
    exact ⟨himage, henable, hfault, hone, harmed.mp hwritten, hcallback, hoff, hnext⟩

/-- With no excuse but that the PERIOD timer is off, the invariant holds in any phase. -/
theorem Vtd.inv_of_tracks_off (hs : v.Sound) (ht : v.Tracks (v.period.armed = false)) : v.inv :=
  Vtd.inv_iff.mpr ⟨hs, ht.imp fun hoff => .inr (.inr hoff)⟩

/-- Outside a late callback and `FAULTED` the only excuse is that the timer is off. -/
theorem Vtd.Excused.period_off (h : v.Excused) (hlate : v.phase ≠ .cbLate) (hf : v.phase ≠ .faulted) :
    v.period.armed = false :=
  (h.resolve_left hlate).resolve_left hf

/-! ### The registers outside the schedule -/

theorem Vtd.Sound.flt_eq_zero (hv : v.Sound) (hf : v.phase ≠ .faulted) : v.flt = 0 := hv.fault_iff.mpr hf

/-- The counter of late returns, the entry sample and the handler's distance are free. -/
theorem Vtd.Sound.setFree (hv : v.Sound) (late tentry hdist : Reg16) :
    Vtd.Sound { v with late := late, tentry := tentry, hdist := hdist } where
  image := hv.image
  enable := hv.enable
  fault_iff := hv.fault_iff
  one_fault := hv.one_fault
  callback := hv.callback
  period_off := hv.period_off

theorem Vtd.Sound.endHandler (hv : v.Sound) (hf : v.phase ≠ .faulted) : Vtd.Sound { v with phase := .idle } where
  image := hv.image
  enable := hv.enable
  fault_iff := by simp [hv.flt_eq_zero hf]
  one_fault := hv.one_fault
  callback := by simp
  period_off := hv.period_off

/-- A fire of a timer with a callback, after which the handler is open. -/
theorem Vtd.Sound.fire (hv : v.Sound) (hf : v.phase ≠ .faulted) {ph : Phase} (hph : ph = .cbFirst ∨ ph = .cbLate)
    (hn : v.nextv = true) (hb : (v.timer j).cbv = true) : Vtd.Sound { v with cur := j, phase := ph } where
  image := hv.image
  enable := hv.enable
  fault_iff := by rcases hph with rfl | rfl <;> simp [hv.flt_eq_zero hf]
  one_fault := hv.one_fault
  callback _ := ⟨hn, hb⟩
  period_off := hv.period_off

/-- The first fault sets its one bit. -/
theorem Vtd.Sound.raiseFault (hv : v.Sound) (hf : v.phase ≠ .faulted) (k : Timer) (f : VtdFault) :
    Vtd.Sound { v with cur := k, flt := v.flt ||| f.bit, phase := .faulted } where
  image := hv.image
  enable := hv.enable
  fault_iff := by cases f <;> simp [hv.flt_eq_zero hf, VtdFault.bit]
  one_fault := by cases f <;> simp [hv.flt_eq_zero hf, VtdFault.bit]
  callback := by simp
  period_off := hv.period_off

/-! ### `Reschedule()` -/

theorem Vtd.ReschedulesTo.sound (h : v.ReschedulesTo w found d o) (hv : v.Sound) : w.Sound := by
  rcases h.cases with ⟨-, rfl, -⟩ | ⟨k, -, rfl, -⟩
  · exact hv
  · exact
      { image := rfl
        enable := rfl
        fault_iff := hv.fault_iff
        one_fault := hv.one_fault
        callback := fun hp => ⟨rfl, by simpa using (hv.callback hp).2⟩
        period_off := hv.period_off }

/-- A reschedule that finds a timer makes `now` its compare value; one that finds none leaves the unit as it is, with the
PERIOD timer off. -/
theorem Vtd.ReschedulesTo.tracks (h : v.ReschedulesTo w found d o)
    (hv : (∀ j, (v.timer j).armed = false) → v.Tracks True) : w.Tracks (w.period.armed = false) := by
  rcases h.cases with ⟨hno, rfl, -⟩ | ⟨k, -, rfl, -⟩
  · exact (hv hno).imp fun _ => hno .period
  · exact ⟨fun _ _ => rfl, fun _ => .inl (by simp)⟩

theorem Vtd.ReschedulesTo.nextv (h : v.ReschedulesTo w found d o) (hn : v.nextv = true) : w.nextv = true := by
  rcases h.cases with ⟨-, rfl, -⟩ | ⟨k, -, rfl, -⟩
  · exact hn
  · rfl

/-! ### Setting, arming and cancelling a timer -/

/-- New registers for one timer keep `Vtd.Sound` when its callback is not lost and the PERIOD timer is not left off with a
period. -/
theorem Vtd.Sound.setTimer (hv : v.Sound) (hcbv : (v.timer j).cbv = true → t.cbv = true)
    (hoff : j = .period → t.armed = false → t.dly = 0) : (v.setTimer j t).Sound where
  image := by simpa using hv.image
  enable := by simpa using hv.enable
  fault_iff := by simpa using hv.fault_iff
  one_fault := by simpa using hv.one_fault
  callback hp := by
    rw [Vtd.setTimer_phase] at hp
    obtain ⟨hn, hb⟩ := hv.callback hp
    rw [Vtd.setTimer_nextv, Vtd.setTimer_cur]
    refine ⟨hn, ?_⟩
    by_cases hj : v.cur = j
    · subst hj
      rw [Vtd.setTimer_timer_same]
      exact hcbv hb
    · rwa [Vtd.setTimer_timer_other v hj]
  period_off := by
    cases j
    · exact hv.period_off
    · exact hoff rfl
    · exact hv.period_off

/-- New registers for one timer that neither arm it nor move its compare value keep `Vtd.Tracks`. -/
theorem Vtd.Tracks.setTimer (hv : v.Tracks e) (hcmp : t.cmp = (v.timer j).cmp)
    (harm : t.armed = true → (v.timer j).armed = true) : (v.setTimer j t).Tracks e := by
  have hsame : ∀ k, ((v.setTimer j t).timer k).cmp = (v.timer k).cmp
      ∧ (((v.setTimer j t).timer k).armed = true → (v.timer k).armed = true) := fun k => by
    by_cases hk : k = j
    · subst hk
      rw [Vtd.setTimer_timer_same]
      exact ⟨hcmp, harm⟩
    · rw [Vtd.setTimer_timer_other v hk]
      exact ⟨rfl, id⟩
  unfold Vtd.Tracks
  rw [Vtd.setTimer_nextv, Vtd.setTimer_next, Vtd.setTimer_now, (hsame v.next).1]
  exact ⟨fun k ha => hv.1 k ((hsame k).2 ha), hv.2⟩

/-- A `VT_*` command other than `VT_CBRET`: a tag moves nothing; an armed timer is there to be found; a cancelled one stays
at the compare value it had. -/
theorem Vtd.CommandedTo.inv (h : v.CommandedTo i w o) (hv : v.inv) : w.inv := by
  obtain ⟨hsound, htracks⟩ := Vtd.inv_iff.mp hv
  obtain ⟨j, ⟨tag, -, rfl, -⟩ | ⟨x, -, found, d, hr⟩ | ⟨-, found, d, hr⟩⟩ := h
  · have htimer := htracks.setTimer (j := j) (t := { v.timer j with cb := tag, cbv := true }) rfl id
    refine Vtd.inv_iff.mpr ⟨hsound.setTimer (fun _ => rfl) ?_, htimer.imp ?_⟩
    · rintro rfl
      exact hsound.period_off
    · unfold Vtd.Excused
      cases j <;> exact id
  · refine Vtd.inv_of_tracks_off (hr.sound (hsound.setTimer id nofun)) (hr.tracks fun hno => ?_)
    have harmed := hno j
    rw [Vtd.setTimer_timer_same] at harmed
    cases harmed
  · have htimer := htracks.setTimer (j := j) (t := { v.timer j with armed := false, dly := 0 }) rfl nofun
    exact Vtd.inv_of_tracks_off (hr.sound (hsound.setTimer id fun _ _ => rfl))
      (hr.tracks fun _ => htimer.imp fun _ => trivial)

/-! ### Firing -/

/-- A fire writes no callback and no stored delay, and does not disarm the PERIOD timer (R141). -/
theorem Vtd.Sound.fireBookkeeping (hv : v.Sound) (j : Timer) : (v.fireBookkeeping j).Sound where
  image := by simpa using hv.image
  enable := by simpa using hv.enable
  fault_iff := by simpa using hv.fault_iff
  one_fault := by simpa using hv.one_fault
  callback := by simpa using hv.callback
  period_off := by cases j <;> exact hv.period_off

/-- The fire of the timer `next` names moves its compare value only when it is the PERIOD timer (R141). -/
theorem Vtd.Tracks.fireNext (hv : v.Tracks e) : (v.fireBookkeeping v.next).Tracks True := by
  refine ⟨fun j ha => ?_, fun hn => ?_⟩
  · rw [Vtd.fireBookkeeping_nextv]
    exact hv.1 j (v.fireBookkeeping_armed _ j ha)
  · rw [Vtd.fireBookkeeping_nextv] at hn
    have hnext := hv.2 hn
    rw [Vtd.fireBookkeeping_next, Vtd.fireBookkeeping_now]
    cases hk : v.next with
    | slot => simpa [hk, Vtd.fireBookkeeping] using hnext
    | period => exact .inr ⟨rfl, trivial⟩
    | offset => simpa [hk, Vtd.fireBookkeeping] using hnext

/-- An accepted `IRQ` fires the timer `next` names and then reschedules, or faults. -/
theorem Vtd.InterruptsTo.inv (h : v.InterruptsTo w c o) (hv : v.inv) : w.inv := by
  rcases h with ⟨-, rfl, -⟩ | ⟨hp, hn, rfl, -⟩ | ⟨hp, hn, x, found, d, o', hr, hw⟩
  case inl => exact hv
  all_goals
    obtain ⟨hsound, htracks⟩ := Vtd.inv_iff.mp hv
    have hentry : Vtd.Sound { v with tentry := c } := hsound.setFree v.late c v.hdist
  case inr.inl =>
    exact Vtd.inv_iff.mpr
      ⟨hentry.raiseFault (by simp [hp]) v.cur .nextUnset, htracks.imp fun _ => .inr (.inl rfl)⟩
  case inr.inr =>
    have hfired : Vtd.Tracks _ True := Vtd.Tracks.fireNext (v := { v with tentry := c }) htracks
    have hx := (hr.sound (hentry.fireBookkeeping v.next)).setFree x.late x.tentry d
    have hxt := hr.tracks fun _ => hfired
    have hxp : x.phase ≠ .faulted := by rw [hr.frame]; simp [hp]
    rcases hw with ⟨hb, rfl, -⟩ | ⟨-, rfl, -⟩
    · have hxb : (x.timer v.next).cbv = true := by
        rw [hr.timer, Vtd.fireBookkeeping_timer_cbv]
        cases hk : v.next <;> rwa [hk] at hb
      exact Vtd.inv_of_tracks_off
        (hx.fire hxp (.inl rfl) (hr.nextv (by simpa using hn)) (by cases hk : v.next <;> rwa [hk] at hxb)) hxt
    · have hflt : x.flt = v.flt := by rw [hr.frame]; simp
      rw [← hflt]
      exact Vtd.inv_of_tracks_off (hx.raiseFault hxp v.next .nocb) hxt

/-! ### The return of a callback -/

/-- After the first part of `VT_CBRET` the only excuse is that the PERIOD timer is off: the first callback needs no other, and
a late one's return has rescheduled. -/
theorem Vtd.CountsTo.sound_tracks (h : v.CountsTo w o) (hf : v.phase ≠ .faulted) (hv : v.inv) :
    w.Sound ∧ w.Tracks (w.period.armed = false) := by
  obtain ⟨hsound, htracks⟩ := Vtd.inv_iff.mp hv
  rcases h with ⟨hp, rfl, -⟩ | ⟨hp, x, found, d, hr, rfl⟩
  · exact ⟨hsound, htracks.imp fun he => he.period_off hp hf⟩
  · have hcount : Vtd.Sound { v with late := v.late + 1 } := hsound.setFree _ v.tentry v.hdist
    have hcountt : Vtd.Tracks { v with late := v.late + 1 } True := htracks.imp fun _ => trivial
    exact ⟨(hr.sound hcount).setFree x.late x.tentry d, hr.tracks fun _ => hcountt⟩

/-- The end of the handler, a late fire, or a late fire that faults. -/
theorem Vtd.CatchesUpTo.inv (h : v.CatchesUpTo w c o st) (hopen : v.phase = .cbFirst ∨ v.phase = .cbLate)
    (hsound : v.Sound) (htracks : v.Tracks (v.period.armed = false)) : w.inv := by
  have hf : v.phase ≠ .faulted := by rcases hopen with hp | hp <;> simp [hp]
  have hfired := hsound.fireBookkeeping v.next
  rcases h with ⟨-, rfl, -⟩ | ⟨-, hb, rfl, -⟩ | ⟨-, -, rfl, -⟩
  · exact Vtd.inv_of_tracks_off (hsound.endHandler hf) htracks
  · have hn : v.nextv = true := (hsound.callback hopen).1
    exact Vtd.inv_iff.mpr ⟨hfired.fire (by simpa using hf) (.inr rfl) (by simpa using hn) (by simpa using hb),
      htracks.fireNext.imp fun _ => .inl rfl⟩
  · have hflt : (v.fireBookkeeping v.next).flt = v.flt := by simp
    rw [← hflt]
    exact Vtd.inv_iff.mpr
      ⟨hfired.raiseFault (by simpa using hf) v.next .nocb, htracks.fireNext.imp fun _ => .inr (.inl rfl)⟩

/-! ### Every step -/

/-- Settles O12, by the kinds of step. -/
theorem stepKeepsTheTimerInvariants : Obligations.StepKeepsTheTimerInvariants := by
  intro s t hs h
  rcases step_cases h with ⟨-, rfl⟩ | ⟨c, rest, -, rfl⟩ | ⟨c, rest, w, o, -, hi, rfl⟩ | ⟨u, c, rest, e, -, -, rfl⟩
    | ⟨u, c, rest, i, f, w, o, st, p, -, -, hm, rfl⟩
  · exact hs
  · exact Vtd.reset_inv
  · exact hi.inv hs
  · exact hs
  · rcases hm with ⟨rfl, -⟩ | ⟨-, -, -, -, hm, -⟩ | ⟨-, hopen, -, x, o1, o2, hcount, hcatch, -⟩
    · exact hs
    · exact hm.inv hs
    · have hf : s.vtd.phase ≠ .faulted := by rcases hopen with hp | hp <;> simp [hp]
      obtain ⟨hx, hxt⟩ := hcount.sound_tracks hf hs
      obtain ⟨-, hphase, -⟩ := hcount.frame
      exact hcatch.inv (by rwa [hphase]) hx hxt

end Sys2Proof.Machine
end

section
/-! The commands that set, arm and cancel a timer (41_vtd_commands.md R131 to R152), each outside `FAULTED`: for every timer at
once, and then for the three commands. -/

namespace Sys2Proof.Machine

variable {s t : State} {v : Vtd} {i : Timer}

/-! ### The three commands of a timer -/

theorem exec_setCommand (h : s.noFault) (j : Timer) (tag : Reg16) :
    exec (j.setCommand tag) s = .next (setCallback j tag s) := by
  cases j <;> exact unlessFaulted_of_not h _

theorem exec_armCommand (h : s.noFault) (j : Timer) (x : Reg16) :
    exec (j.armCommand x) s = .next (armTimer j (s.vtd.armBase j) x s) := by
  cases j <;> exact unlessFaulted_of_not h _

theorem exec_cancelCommand (h : s.noFault) (j : Timer) : exec j.cancelCommand s = .next (cancelTimer j s) := by
  cases j <;> exact unlessFaulted_of_not h _

/-- Settles O32. -/
theorem setCallbackAssignsTheTag : Obligations.SetCallbackAssignsTheTag :=
  fun _ tag h => ⟨exec_setCommand h .slot tag, exec_setCommand h .period tag, exec_setCommand h .offset tag⟩

/-! ### Arming and cancelling -/

/-- A unit with timer `j` armed for `x` ticks (41_vtd_commands.md R142 to R144). -/
abbrev Vtd.arm (v : Vtd) (j : Timer) (x : Reg16) : Vtd :=
  v.setTimer j { v.timer j with cmp := v.armBase j + x, dly := x, armed := true }

/-- A unit with timer `j` cancelled (41_vtd_commands.md R150 to R152). -/
abbrev Vtd.cancel (v : Vtd) (j : Timer) : Vtd := v.setTimer j { v.timer j with armed := false, dly := 0 }

/-- The reschedule after an arm command has a timer to find. -/
theorem exec_armCommand_reschedules (h : s.noFault) (j : Timer) (x : Reg16) :
    ∃ w d o, (s.vtd.arm j x).ReschedulesTo w true d o
      ∧ exec (j.armCommand x) s
        = .next { s with vtd := w, outs := s.outs ++ o ++ [.resp (0x00010000 + d.setWidth 32)] } := by
  obtain ⟨w, found, d, o, hr, he⟩ := rescheduleAndRespond_spec { s with vtd := s.vtd.arm j x }
  obtain rfl : found = true := hr.found_iff.mpr ⟨j, by rw [Vtd.setTimer_timer_same]⟩
  rw [respWord_reschedule] at he
  exact ⟨w, d, o, hr, (exec_armCommand h j x).trans (congrArg _ he)⟩

theorem exec_cancelCommand_reschedules (h : s.noFault) (j : Timer) :
    ∃ w found d o, (s.vtd.cancel j).ReschedulesTo w found d o
      ∧ exec j.cancelCommand s
        = .next { s with
            vtd := w
            outs := s.outs ++ o ++ [.resp ((if found then 0x00010000 else 0) + d.setWidth 32)] } := by
  obtain ⟨w, found, d, o, hr, he⟩ := rescheduleAndRespond_spec { s with vtd := s.vtd.cancel j }
  rw [respWord_reschedule] at he
  exact ⟨w, found, d, o, hr, (exec_cancelCommand h j).trans (congrArg _ he)⟩

/-- Settles O33. -/
theorem armingSetsTheCompareValueAndReschedules : Obligations.ArmingSetsTheCompareValueAndReschedules :=
  fun _ x h => ⟨exec_armCommand_reschedules h .slot x, exec_armCommand_reschedules h .period x,
    exec_armCommand_reschedules h .offset x⟩

/-- Settles O34. -/
theorem cancellingDisarmsAndReschedules : Obligations.CancellingDisarmsAndReschedules :=
  fun _ h => ⟨exec_cancelCommand_reschedules h .slot, exec_cancelCommand_reschedules h .period,
    exec_cancelCommand_reschedules h .offset⟩

/-! ### The reschedule when the nearest timer is known -/

theorem nearestTimer_of_isNearest (h : v.IsNearest i) : nearestTimer v = some (i, v.distance i) := by
  cases hn : nearestTimer v with
  | none =>
    have hoff := nearestTimer_eq_none hn i
    rw [h.1] at hoff
    cases hoff
  | some r =>
    obtain ⟨k, d⟩ := r
    obtain ⟨hk, rfl⟩ := nearestTimer_eq_some hn
    rw [hk.unique h]

theorem exists_isNearest (h : ∃ j, (v.timer j).armed = true) : ∃ i, v.IsNearest i := by
  obtain ⟨j, hj⟩ := h
  cases hn : nearestTimer v with
  | none =>
    rw [nearestTimer_eq_none hn j] at hj
    cases hj
  | some r => exact ⟨r.1, (nearestTimer_eq_some hn).1⟩

theorem reschedule_of_isNearest (h : s.vtd.IsNearest i) :
    reschedule s =
      { state := { s with vtd := s.vtd.program i, outs := s.outs ++ [.cmpwr (s.vtd.timer i).cmp] }
        found := true
        dist := s.vtd.distance i } := by
  rw [reschedule, nearestTimer_of_isNearest h]
  rfl

theorem rescheduleAndRespond_of_isNearest (h : s.vtd.IsNearest i) :
    rescheduleAndRespond s =
      { s with
        vtd := s.vtd.program i
        outs := s.outs ++ [.cmpwr (s.vtd.timer i).cmp, .resp (0x00010000 + (s.vtd.distance i).setWidth 32)] } := by
  have hresp := respWord_reschedule true (s.vtd.distance i)
  rw [if_pos rfl] at hresp
  rw [rescheduleAndRespond, reschedule_of_isNearest h, ← hresp]
  simp [State.respond, State.emit]

/-! ### Rescheduling again (R140 (a)) -/

/-- Timer `i` is the nearest, and a reschedule has recorded it. -/
def Vtd.Selected (v : Vtd) (i : Timer) : Prop := v.IsNearest i ∧ v.program i = v

theorem Vtd.IsNearest.selected (h : v.IsNearest i) : (v.program i).Selected i :=
  ⟨h.program, by simp only [Vtd.program, Vtd.timer]⟩

theorem Vtd.Selected.cmp_eq_hwcmp (h : v.Selected i) : (v.timer i).cmp = v.hwcmp := congrArg Vtd.hwcmp h.2

theorem Vtd.Selected.distance_eq_zero (h : v.Selected i) : v.distance i = 0 := by
  have hnow : (v.timer i).cmp = v.now := congrArg Vtd.now h.2
  rw [Vtd.distance, hnow, dist16, BitVec.sub_self]
  rfl

theorem reschedule_of_selected (h : t.vtd.Selected i) :
    reschedule t = { state := { t with outs := t.outs ++ [.cmpwr t.vtd.hwcmp] }, found := true, dist := 0 } := by
  rw [reschedule_of_isNearest h.1, h.distance_eq_zero, h.cmp_eq_hwcmp, h.2]

theorem rescheduleAndRespond_of_selected (h : t.vtd.Selected i) :
    rescheduleAndRespond t = { t with outs := t.outs ++ [.cmpwr t.vtd.hwcmp, .resp 0x00010000] } := by
  rw [rescheduleAndRespond_of_isNearest h.1, h.distance_eq_zero, h.cmp_eq_hwcmp, h.2]
  rfl

/-- A reschedule after which a timer is armed has selected one. -/
theorem Vtd.ReschedulesTo.selected {w : Vtd} {found : Bool} {d : Reg16} {o : List Output}
    (h : v.ReschedulesTo w found d o) (ha : ∃ j, (w.timer j).armed = true) : ∃ i, w.Selected i := by
  rcases h.cases with ⟨hno, rfl, -⟩ | ⟨i, hi, rfl, -⟩
  · obtain ⟨j, hj⟩ := ha
    rw [hno j] at hj
    cases hj
  · exact ⟨i, hi.selected⟩

/-- Cancelling a timer again leaves the unit as the first cancel and its reschedule left it. -/
theorem Vtd.ReschedulesTo.cancel_again {w : Vtd} {j : Timer} {found : Bool} {d : Reg16} {o : List Output}
    (h : (v.cancel j).ReschedulesTo w found d o) : w.cancel j = w := by
  have hj : w.timer j = { v.timer j with armed := false, dly := 0 } := by rw [h.timer, Vtd.setTimer_timer_same]
  have hsame : { w.timer j with armed := false, dly := 0 } = w.timer j := by rw [hj]
  rw [Vtd.cancel, hsame]
  cases j <;> rfl

theorem cancelTimer_of_cancelled {j : Timer} (h : t.vtd.cancel j = t.vtd) :
    cancelTimer j t = rescheduleAndRespond t := by
  change rescheduleAndRespond { t with vtd := t.vtd.cancel j } = _
  rw [h]

theorem exec_cancelCommand_again (h : s.noFault) {j : Timer} (he : exec j.cancelCommand s = .next t)
    (ha : ∃ k, (t.vtd.timer k).armed = true) :
    exec j.cancelCommand t = .next { t with outs := t.outs ++ [.cmpwr t.vtd.hwcmp, .resp 0x00010000] } := by
  obtain ⟨w, found, d, o, hr, he'⟩ := exec_cancelCommand_reschedules h j
  obtain rfl := Host.Outcome.next.inj (he.symm.trans he')
  obtain ⟨i, hi⟩ := hr.selected ha
  have hf : w.phase ≠ .faulted := by rw [hr.frame]; simpa using h
  rw [exec_cancelCommand hf, cancelTimer_of_cancelled hr.cancel_again, rescheduleAndRespond_of_selected hi]

/-- Settles O35: a reschedule that finds a timer leaves it selected. -/
theorem reschedulingAgainSelectsTheSameTimer : Obligations.ReschedulingAgainSelectsTheSameTimer := by
  refine ⟨fun s ha => ?_, fun s t h c hc he ha => ?_⟩
  · obtain ⟨i, hi⟩ := exists_isNearest ha
    rw [reschedule_of_isNearest hi]
    exact reschedule_of_selected hi.selected
  · simp only [List.mem_cons, List.not_mem_nil, or_false] at hc
    rcases hc with rfl | rfl | rfl
    · exact exec_cancelCommand_again (j := .slot) h he ha
    · exact exec_cancelCommand_again (j := .period) h he ha
    · exact exec_cancelCommand_again (j := .offset) h he ha

/-! ### Armed behind `now` (R144 (c)) -/

/-- The PERIOD timer at distance 0 is nearer than an OFFSET timer anywhere else. -/
theorem Vtd.isNearest_period (hs : v.slot.armed = false) (hp : v.period.armed = true) (hnow : v.period.cmp = v.now)
    (ho : v.offset.cmp ≠ v.now) : v.IsNearest .period := by
  refine ⟨hp, fun j hj => ?_⟩
  cases j with
  | slot => simp [hs] at hj
  | period => simp
  | offset =>
    simp only [Vtd.distance, Vtd.timer_period, Vtd.timer_offset, hnow]
    exact ⟨by bv_omega, fun he => absurd he (by bv_omega)⟩

/-- Settles O36: the PERIOD timer stays the nearest, at distance 0. -/
theorem offsetArmedBehindNowIsNotSelected : Obligations.OffsetArmedBehindNowIsNotSelected := by
  intro s x h hs hp hnow hne
  have hnear : (s.vtd.arm .offset x).IsNearest .period := Vtd.isNearest_period hs hp hnow hne
  have hdist : (s.vtd.arm .offset x).distance .period = 0 := by
    change s.vtd.period.cmp - s.vtd.now = 0
    rw [hnow, BitVec.sub_self]
    rfl
  have he := rescheduleAndRespond_of_isNearest (s := { s with vtd := s.vtd.arm .offset x }) hnear
  rw [hdist] at he
  refine ⟨_, (exec_armCommand h .offset x).trans (congrArg _ he), rfl, hnow, rfl, rfl, ?_⟩
  rw [← hnow]
  rfl

end Sys2Proof.Machine
end

section
/-! `VT_CBRET` with a callback outstanding (41_vtd_commands.md R160): after the first callback, and after a late one. -/

namespace Sys2Proof.Machine

variable {s : State}

/-! ### The catch-up test -/

/-- The response to a `VT_CBRET` that started a late fire (30_encoding.md R86): `more = 1` and the timer's index. -/
def lateFireResponse : Timer → Word32
  | .slot => 1
  | .period => 3
  | .offset => 5

theorem respWord_lateFirePayload (g : Timer) : respWord .ok (lateFirePayload g) = lateFireResponse g :=
  respWord_lateFire g

theorem catchUp_of_in_time (h : s.cnt - s.vtd.tentry ≤ s.vtd.hdist) :
    catchUp s = { s with vtd := { s.vtd with phase := .idle }, outs := s.outs ++ [.resp 0] } :=
  catchUp_ends (BitVec.not_lt.mpr h)

theorem catchUp_of_overdue (h : s.vtd.hdist < s.cnt - s.vtd.tentry) (hb : (s.vtd.timer s.vtd.next).cbv = true) :
    ∃ w, s.vtd.BookkeepsTo w s.vtd.next
      ∧ catchUp s =
        { s with
          vtd := { w with cur := s.vtd.next, phase := .cbLate }
          outs := s.outs ++ [.fire s.vtd.next (s.vtd.timer s.vtd.next).cb, .resp (lateFireResponse s.vtd.next)] } := by
  refine ⟨_, s.vtd.fireBookkeeping_bookkeeps s.vtd.next, ?_⟩
  rw [catchUp_late h, lateFire_assigned hb, List.append_assoc, respWord_lateFirePayload]
  rfl

theorem catchUp_of_overdue_unassigned (h : s.vtd.hdist < s.cnt - s.vtd.tentry)
    (hb : (s.vtd.timer s.vtd.next).cbv = false) :
    ∃ w, s.vtd.BookkeepsTo w s.vtd.next
      ∧ catchUp s =
        { s with
          vtd := { w with cur := s.vtd.next, flt := s.vtd.flt ||| 2, phase := .faulted }
          outs := s.outs ++ [.resp 0xE0000000] } :=
  ⟨_, s.vtd.fireBookkeeping_bookkeeps s.vtd.next, (catchUp_late h).trans (lateFire_unassigned hb)⟩

/-! ### After the first callback -/

/-- The return of the first callback counts nothing and does not reschedule. -/
theorem exec_cbret_first (h : s.vtd.phase = .cbFirst) : exec .vtCbret s = .next (catchUp s) := by
  rw [exec_cbret_open (.inl h), callbackReturn, countLateReturn, if_neg (by simp [h])]

/-- Settles O37. -/
theorem firstCallbackReturnEndsTheHandler : Obligations.FirstCallbackReturnEndsTheHandler :=
  fun _ hp hd => (exec_cbret_first hp).trans (congrArg _ (catchUp_of_in_time hd))

/-- Settles O38. -/
theorem firstCallbackReturnFiresTheOverdueTimer : Obligations.FirstCallbackReturnFiresTheOverdueTimer := by
  intro s hp hd hb
  obtain ⟨w, hw, he⟩ := catchUp_of_overdue hd hb
  exact ⟨w, hw, (exec_cbret_first hp).trans (congrArg _ he)⟩

/-- Settles O41: no 16-bit number exceeds 0xFFFF. -/
theorem nothingScheduledEndsTheHandler : Obligations.NothingScheduledEndsTheHandler := by
  intro s hp hd
  have hle : s.cnt - s.vtd.tentry ≤ s.vtd.hdist := by
    rw [hd]
    exact Nat.le_of_lt_succ (BitVec.isLt _)
  exact ⟨_, firstCallbackReturnEndsTheHandler s hp hle, rfl, rfl⟩

/-! ### After a late callback -/

/-- The return of a late callback is counted and the timers rescheduled before the catch-up test; the reschedule touches
neither the entry sample nor the fault register nor a timer. -/
theorem exec_cbret_late (h : s.vtd.phase = .cbLate) :
    ∃ w found d o, ({ s.vtd with late := s.vtd.late + 1 } : Vtd).ReschedulesTo w found d o
      ∧ w.tentry = s.vtd.tentry ∧ w.flt = s.vtd.flt
      ∧ (∀ j, Vtd.timer { w with hdist := d } j = s.vtd.timer j)
      ∧ exec .vtCbret s = .next (catchUp { s with vtd := { w with hdist := d }, outs := s.outs ++ o }) := by
  rcases countLateReturn_spec s with ⟨hp, -⟩ | ⟨-, w, found, d, o, hr, he⟩
  · exact absurd h hp
  · have hx : s.vtd.CountsTo { w with hdist := d } o := .inr ⟨h, w, found, d, hr, rfl⟩
    obtain ⟨-, -, htentry, -, hflt, -, htimer⟩ := hx.frame
    exact ⟨w, found, d, o, hr, htentry, hflt, htimer, by rw [exec_cbret_open (.inr h), callbackReturn, he]⟩

/-- Settles O39. -/
theorem lateCallbackReturnIsCountedAndReschedules : Obligations.LateCallbackReturnIsCountedAndReschedules := by
  intro s hp
  obtain ⟨w, found, d, o, hr, htentry, -, htimer, he⟩ := exec_cbret_late hp
  refine ⟨w, found, d, o, hr, fun hd => ?_, fun hd hb => ?_⟩
  · rw [← htentry] at hd
    exact he.trans (congrArg _ (catchUp_of_in_time hd))
  · rw [← htentry] at hd
    rw [← htimer] at hb ⊢
    obtain ⟨x, hx, hc⟩ := catchUp_of_overdue (s := { s with vtd := { w with hdist := d }, outs := s.outs ++ o }) hd hb
    exact ⟨x, hx, he.trans (congrArg _ hc)⟩

/-- Settles O40. -/
theorem lateFireWithoutCallbackFaults : Obligations.LateFireWithoutCallbackFaults := by
  refine fun s => ⟨fun hp hd hb => ?first, fun hp => ?late⟩
  case first =>
    obtain ⟨w, hw, he⟩ := catchUp_of_overdue_unassigned hd hb
    exact ⟨w, hw, (exec_cbret_first hp).trans (congrArg _ he)⟩
  case late =>
    obtain ⟨w, found, d, o, hr, htentry, hflt, htimer, he⟩ := exec_cbret_late hp
    refine ⟨w, found, d, o, hr, fun hd hb => ?_⟩
    rw [← htentry] at hd
    rw [← htimer] at hb
    rw [← hflt]
    obtain ⟨x, hx, hc⟩ :=
      catchUp_of_overdue_unassigned (s := { s with vtd := { w with hdist := d }, outs := s.outs ++ o }) hd hb
    exact ⟨x, hx, he.trans (congrArg _ hc)⟩

end Sys2Proof.Machine
end

section
/-! Taking an `IRQ` (60_exceptions.md R171, R172, R182, R183). -/

namespace Sys2Proof.Machine

variable {v w : Vtd} {c : Reg16} {o : List Output}

/-! ### The cases of an `IRQ`, each from its condition -/

theorem Vtd.InterruptsTo.of_not_idle (h : v.InterruptsTo w c o) (hp : v.phase ≠ .idle) : w = v ∧ o = [] := by
  rcases h with ⟨-, hw, ho⟩ | ⟨hidle, -⟩ | ⟨hidle, -⟩
  · exact ⟨hw, ho⟩
  · exact absurd hidle hp
  · exact absurd hidle hp

theorem Vtd.InterruptsTo.of_unwritten (h : v.InterruptsTo w c o) (hp : v.phase = .idle) (hn : v.nextv = false) :
    w = { v with tentry := c, flt := v.flt ||| 1, phase := .faulted } ∧ o = [] := by
  rcases h with ⟨hidle, -⟩ | ⟨-, -, hw, ho⟩ | ⟨-, hn', -⟩
  · exact absurd hp hidle
  · exact ⟨hw, ho⟩
  · rw [hn] at hn'; cases hn'

/-- What the handler's entry leaves before it fires timer `v.next` (R172): the sample, the bookkeeping, the reschedule. -/
abbrev Vtd.EntersTo (v b x : Vtd) (c : Reg16) (found : Bool) (d : Reg16) (o : List Output) : Prop :=
  ({ v with tentry := c } : Vtd).BookkeepsTo b v.next ∧ b.ReschedulesTo x found d o

/-- With `next` written, the outcome turns on whether the recorded timer has a callback. -/
theorem Vtd.InterruptsTo.of_written (h : v.InterruptsTo w c o) (hp : v.phase = .idle) (hn : v.nextv = true) :
    ∃ b x found d o', v.EntersTo b x c found d o'
      ∧ ((v.timer v.next).cbv = true →
          w = { x with hdist := d, cur := v.next, phase := .cbFirst } ∧ o = o' ++ [.fire v.next (v.timer v.next).cb])
      ∧ ((v.timer v.next).cbv = false →
          w = { x with hdist := d, cur := v.next, flt := v.flt ||| 2, phase := .faulted } ∧ o = o') := by
  rcases h with ⟨hidle, -⟩ | ⟨-, hn', -⟩ | ⟨-, -, x, found, d, o', hr, hfire⟩
  · exact absurd hp hidle
  · rw [hn] at hn'; cases hn'
  · refine ⟨_, x, found, d, o', ⟨Vtd.fireBookkeeping_bookkeeps _ _, hr⟩, fun hb => ?_, fun hb => ?_⟩
    · rcases hfire with ⟨-, hw, ho⟩ | ⟨hb', -⟩
      · exact ⟨hw, ho⟩
      · rw [hb] at hb'; cases hb'
    · rcases hfire with ⟨hb', -⟩ | ⟨-, hw, ho⟩
      · rw [hb] at hb'; cases hb'
      · exact ⟨hw, ho⟩

/-! ### The step that takes an `IRQ` -/

theorem step_irq_interrupts {s : State} {rest : List Input} (h : s.inputs = ⟨.irq, c⟩ :: rest) :
    ∃ w o, s.vtd.InterruptsTo w c o
      ∧ step s = .next { s with inputs := rest, cnt := c, vtd := w, outs := s.outs ++ o } := by
  obtain ⟨w, o, hw, he⟩ := takeIrq_cases (s.take c rest)
  exact ⟨w, o, hw, (step_irq h).trans (congrArg _ he)⟩

/-- Settles O43. -/
theorem irqFiresTheRecordedTimer : Obligations.IrqFiresTheRecordedTimer := by
  intro s c rest hin hp hn hb
  obtain ⟨w, o, hw, he⟩ := step_irq_interrupts hin
  obtain ⟨b, x, found, d, o', ⟨hbook, hresched⟩, hfire, -⟩ := hw.of_written hp hn
  obtain ⟨rfl, rfl⟩ := hfire hb
  exact ⟨b, x, found, d, o', hbook, hresched, by rw [he, List.append_assoc]⟩

/-- Settles O44. -/
theorem irqWithoutCallbackFaults : Obligations.IrqWithoutCallbackFaults := by
  intro s c rest hin hp hn hb
  obtain ⟨w, o, hw, he⟩ := step_irq_interrupts hin
  obtain ⟨b, x, found, d, o', ⟨hbook, hresched⟩, -, hfault⟩ := hw.of_written hp hn
  obtain ⟨rfl, rfl⟩ := hfault hb
  exact ⟨b, x, found, d, o, hbook, hresched, he⟩

/-- Setting bit 0 leaves every other bit (10_state.md R43, `FLT_NEXT_UNSET`). -/
theorem getLsbD_or_one_of_ne_zero (r : Reg16) {k : Nat} (hk : k ≠ 0) : (r ||| 1).getLsbD k = r.getLsbD k := by
  have hone : (1 : Reg16).getLsbD k = false := by simp [BitVec.getLsbD_one, hk]
  rw [BitVec.getLsbD_or, hone, Bool.or_false]

/-- Settles O45: the fault sets its own bit; in a state of the invariant `hwie` is `nextv` (41_vtd_commands.md R165 (b)). -/
theorem irqBeforeAnyScheduleFaults : Obligations.IrqBeforeAnyScheduleFaults := by
  intro s c rest hin hp hn
  obtain ⟨w, o, hw, he⟩ := step_irq_interrupts hin
  obtain ⟨rfl, rfl⟩ := hw.of_unwritten hp hn
  refine ⟨s.vtd.flt ||| 1, by simp, fun k hk => getLsbD_or_one_of_ne_zero _ hk, ?_, fun hinv => ?_⟩
  · rw [he, List.append_nil]
  · obtain ⟨hsound, -⟩ := Vtd.inv_iff.mp hinv
    rw [← hsound.enable, hn]

/-- Settles O46. -/
theorem irqIsNotTakenOutsideIdle : Obligations.IrqIsNotTakenOutsideIdle := by
  intro s c rest hin hp
  obtain ⟨w, o, hw, he⟩ := step_irq_interrupts hin
  obtain ⟨rfl, rfl⟩ := hw.of_not_idle hp
  rw [he, List.append_nil]

end Sys2Proof.Machine
end

section
/-! The phase `FAULTED` and the fault register (60_exceptions.md R181). -/

namespace Sys2Proof.Machine

variable {v w : Vtd} {i : Instr} {c : Reg16} {o : List Output} {st : Status} {s t : State}

/-! ### The phase -/

/-- In `FAULTED` every command leaves the VTD unit alone: those that would not are turned away (30_encoding.md R88 (2)). -/
theorem CommandDoes.of_faulted {f f' : Fcc} (h : CommandDoes i f v c f' w o st) (hp : v.phase = .faulted) : w = v := by
  rcases h with ⟨hw, -⟩ | ⟨-, -, hf, -⟩ | ⟨-, hopen, -⟩
  · exact hw
  · exact absurd hp hf
  · rw [hp] at hopen
    rcases hopen with hopen | hopen <;> cases hopen

/-- In `FAULTED` every input but `RESET` leaves the VTD unit alone. -/
theorem step_vtd_of_faulted (h : step s = .next t) (hp : s.vtd.phase = .faulted) (hr : ¬ s.offersReset) :
    t.vtd = s.vtd := by
  rcases step_cases h with ⟨-, rfl⟩ | ⟨c, rest, hin, -⟩ | ⟨c, rest, w, o, -, hi, rfl⟩ | ⟨u, c, rest, e, -, -, rfl⟩
    | ⟨u, c, rest, i, f, w, o, st, p, -, -, hm, rfl⟩
  · rfl
  · exact absurd ⟨c, rest, hin⟩ hr
  · obtain ⟨hw, -⟩ := hi.of_not_idle (by simp [hp])
    exact hw
  · rfl
  · exact hm.of_faulted hp

theorem ActsOnFcc.vtd_irrelevant {g : State → State} (hg : ActsOnFcc g) (s : State) (v : Vtd) :
    g { s with vtd := v } = { g s with vtd := v } := by
  obtain ⟨F, hF⟩ := hg
  rw [hF s, hF]

/-- Settles O47: an `FC_*` command is an action of the FCC unit (00_scope.md R2), for every VTD unit alike. -/
theorem faultedTimerUnitIsFrozen : Obligations.FaultedTimerUnitIsFrozen := by
  refine fun s t hp h => ⟨step_vtd_of_faulted h hp, fun i v hi hr => ?_⟩
  obtain ⟨g, hg, he⟩ := runsOnFcc_of_fc hi hr
  exact ⟨g s, he s, by rw [he, hg.vtd_irrelevant]⟩

/-! ### The fault register -/

/-- Every bit of `flt` set in `v` is set in `w`. -/
def Vtd.KeepsFaults (v w : Vtd) : Prop := ∀ k, v.flt.getLsbD k = true → w.flt.getLsbD k = true

theorem Vtd.keepsFaults_of_eq (h : w.flt = v.flt) : v.KeepsFaults w := fun k hk => by rwa [h]

/-- Raising a fault sets bits and clears none. -/
theorem Vtd.keepsFaults_of_or {b : Reg16} (h : w.flt = v.flt ||| b) : v.KeepsFaults w := fun k hk => by
  rw [h, BitVec.getLsbD_or, hk, Bool.true_or]

theorem Vtd.CommandedTo.keepsFaults (h : v.CommandedTo i w o) : v.KeepsFaults w := by
  have hregs := h.handlerRegs
  simp only [Vtd.handlerRegs, Prod.mk.injEq] at hregs
  obtain ⟨-, -, -, -, -, -, hflt⟩ := hregs
  exact Vtd.keepsFaults_of_eq hflt

theorem Vtd.InterruptsTo.keepsFaults (h : v.InterruptsTo w c o) : v.KeepsFaults w := by
  rcases h with ⟨-, rfl, -⟩ | ⟨-, -, rfl, -⟩ | ⟨-, -, x, found, d, o', hr, ⟨-, rfl, -⟩ | ⟨-, rfl, -⟩⟩
  · exact Vtd.keepsFaults_of_eq rfl
  · exact Vtd.keepsFaults_of_or rfl
  · exact Vtd.keepsFaults_of_eq (by rw [hr.frame]; simp)
  · exact Vtd.keepsFaults_of_or rfl

theorem Vtd.CatchesUpTo.keepsFaults (h : v.CatchesUpTo w c o st) : v.KeepsFaults w := by
  rcases h with ⟨-, rfl, -⟩ | ⟨-, -, rfl, -⟩ | ⟨-, -, rfl, -⟩
  · exact Vtd.keepsFaults_of_eq rfl
  · exact Vtd.keepsFaults_of_eq (Vtd.fireBookkeeping_flt ..)
  · exact Vtd.keepsFaults_of_or rfl

theorem Vtd.ReturnsTo.keepsFaults (h : v.ReturnsTo w c o) : v.KeepsFaults w := by
  obtain ⟨x, o1, o2, st, r, hcount, hcatch, -⟩ := h
  obtain ⟨-, -, -, -, hflt, -, -⟩ := hcount.frame
  exact fun k hk => hcatch.keepsFaults k (hflt ▸ hk)

/-- Settles O48, the fault register by the kinds of step. -/
theorem onlyResetClearsAFault : Obligations.OnlyResetClearsAFault := by
  refine fun s t h hr => ⟨fun hp => by rw [step_vtd_of_faulted h hp hr, hp], show s.vtd.KeepsFaults t.vtd from ?_⟩
  obtain ⟨o, -, ⟨hr', -⟩ | ⟨-, hv, -⟩ | ⟨-, c, hv⟩ | ⟨i, o', r, -, -, hv, -⟩ | ⟨-, c, hv⟩⟩ := step_vtd_cases h
  · exact absurd hr' hr
  · exact Vtd.keepsFaults_of_eq (congrArg Vtd.flt hv)
  · exact hv.keepsFaults
  · exact hv.keepsFaults
  · exact hv.keepsFaults

end Sys2Proof.Machine
end

section
/-! One fire in a transition, with the tag assigned to its timer (60_exceptions.md R176 (a), 41_vtd_commands.md R145). -/

namespace Sys2Proof.Machine

variable {v w : Vtd} {c : Reg16} {o : List Output} {st : Status}

theorem NoFire.countP (h : NoFire o) : o.countP Output.isFire = 0 := by
  rw [List.countP_eq_zero]
  intro x hx
  cases x with
  | fire i tag => exact absurd hx (h i tag)
  | resp r => simp [Output.isFire]
  | cmpwr x => simp [Output.isFire]

/-- Nothing is fired; or the timer that `cur` then holds is, once, with the tag assigned to it in `v`, and its callback is
outstanding. -/
def Vtd.FiresOnceTo (v w : Vtd) (o : List Output) : Prop :=
  NoFire o
  ∨ ((∃ o1 o2, NoFire o1 ∧ NoFire o2 ∧ o = o1 ++ .fire w.cur (v.timer w.cur).cb :: o2)
      ∧ (v.timer w.cur).cbv = true ∧ (w.phase = .cbFirst ∨ w.phase = .cbLate))

/-- A change of registers other than the timers' before, and outputs other than `FIRE` on both sides, make no difference. -/
theorem Vtd.FiresOnceTo.extend {v' : Vtd} {o1 o2 : List Output} (h : v.FiresOnceTo w o)
    (hv : ∀ j, v.timer j = v'.timer j) (h1 : NoFire o1) (h2 : NoFire o2) : v'.FiresOnceTo w (o1 ++ o ++ o2) := by
  rcases h with ho | ⟨⟨p1, p2, hp1, hp2, rfl⟩, hb, hphase⟩
  · exact .inl ((h1.append ho).append h2)
  · rw [hv] at hb ⊢
    exact .inr ⟨⟨o1 ++ p1, p2 ++ o2, h1.append hp1, hp2.append h2, by simp⟩, hb, hphase⟩

theorem Vtd.InterruptsTo.firesOnceTo (h : v.InterruptsTo w c o) : v.FiresOnceTo w o := by
  rcases h with ⟨-, -, rfl⟩ | ⟨-, -, -, rfl⟩ | ⟨-, -, x, found, d, o', hr, ⟨hb, rfl, rfl⟩ | ⟨-, -, rfl⟩⟩
  · exact .inl noFire_nil
  · exact .inl noFire_nil
  · exact .inr ⟨⟨o', [], hr.noFire, noFire_nil, rfl⟩, hb, .inl rfl⟩
  · exact .inl hr.noFire

theorem Vtd.CatchesUpTo.firesOnceTo (h : v.CatchesUpTo w c o st) : v.FiresOnceTo w o := by
  rcases h with ⟨-, -, rfl, -⟩ | ⟨-, hb, rfl, rfl, -⟩ | ⟨-, -, -, rfl, -⟩
  · exact .inl noFire_nil
  · exact .inr ⟨⟨[], [], noFire_nil, noFire_nil, rfl⟩, hb, .inr rfl⟩
  · exact .inl noFire_nil

theorem Vtd.ReturnsTo.firesOnceTo (h : v.ReturnsTo w c o) : v.FiresOnceTo w o := by
  obtain ⟨x, o1, o2, st, r, hcount, hcatch, rfl⟩ := h
  exact hcatch.firesOnceTo.extend hcount.sameTimers.timer hcount.noFire (noFire_resp r)

/-- Only an `IRQ` and the return of a callback can fire. -/
theorem step_firesOnceTo {s t : State} (h : step s = .next t) :
    ∃ o, t.outs = s.outs ++ o ∧ s.vtd.FiresOnceTo t.vtd o := by
  obtain ⟨o, houts, ⟨-, -, rfl⟩ | ⟨-, -, ho, -⟩ | ⟨-, c, hv⟩ | ⟨i, o', r, -, -, hv, rfl⟩ | ⟨-, c, hv⟩⟩ := step_vtd_cases h
  · exact ⟨[], houts, .inl noFire_nil⟩
  · refine ⟨o, houts, .inl ?_⟩
    rcases ho with rfl | ⟨r, rfl⟩
    · exact noFire_nil
    · exact noFire_resp r
  · exact ⟨o, houts, hv.firesOnceTo⟩
  · exact ⟨_, houts, .inl (hv.noFire.append (noFire_resp r))⟩
  · exact ⟨o, houts, hv.firesOnceTo⟩

/-- Settles O53. -/
theorem oneFireAtATimeWithItsTag : Obligations.OneFireAtATimeWithItsTag := by
  intro s t h
  obtain ⟨o, houts, ho | ⟨⟨o1, o2, h1, h2, rfl⟩, hb, hphase⟩⟩ := step_firesOnceTo h
  · exact ⟨o, houts, ho.countP.le.trans (Nat.zero_le 1), fun i tag hm => absurd hm (ho i tag)⟩
  · refine ⟨_, houts, ?_, fun i tag hm => ?_⟩
    · rw [List.countP_append, List.countP_cons, h1.countP, h2.countP]
      rfl
    · rw [List.mem_append, or_iff_right (h1 i tag), List.mem_cons, or_iff_left (h2 i tag)] at hm
      obtain ⟨rfl, rfl⟩ := Output.fire.inj hm
      exact ⟨rfl, hb, rfl, hphase⟩

end Sys2Proof.Machine
end

section
/-! What `RESET` alone clears (70_reset_and_hazards.md R210): each valid and enable bit, kept by every other kind of step. -/

namespace Sys2Proof.Machine

variable {v w : Vtd} {i : Instr} {o : List Output} {s t : State}

/-! ### The schedule's bits -/

/-- Programming the compare register sets both bits. -/
theorem Vtd.ProgramsTo.nextv_hwie (h : v.ProgramsTo w o) :
    (v.nextv = true → w.nextv = true) ∧ (v.hwie = true → w.hwie = true) := by
  rcases h with ⟨-, he⟩ | ⟨x, j, -, he⟩
  all_goals
    simp only [Vtd.compareRegs, Prod.mk.injEq] at he
    obtain ⟨-, -, hie, -, hnv⟩ := he
    rw [hie, hnv]
  · exact ⟨id, id⟩
  · exact ⟨fun _ => rfl, fun _ => rfl⟩

/-! ### The callbacks' bits -/

theorem Vtd.setTimer_keeps_cbv {j k : Timer} {l : LogicalTimer} (hk : (v.timer k).cbv = true)
    (hl : (v.timer j).cbv = true → l.cbv = true) : ((v.setTimer j l).timer k).cbv = true := by
  by_cases hj : k = j
  · subst hj
    rw [Vtd.setTimer_timer_same]
    exact hl hk
  · rwa [Vtd.setTimer_timer_other v hj]

/-- A `VT_*` command assigns a callback, or leaves the callbacks alone. -/
theorem Vtd.CommandedTo.keeps_cbv (h : v.CommandedTo i w o) (k : Timer) (hk : (v.timer k).cbv = true) :
    (w.timer k).cbv = true := by
  obtain ⟨j, ⟨tag, -, rfl, -⟩ | ⟨x, -, found, d, hr⟩ | ⟨-, found, d, hr⟩⟩ := h
  · exact Vtd.setTimer_keeps_cbv hk fun _ => rfl
  · rw [hr.timer]
    exact Vtd.setTimer_keeps_cbv hk id
  · rw [hr.timer]
    exact Vtd.setTimer_keeps_cbv hk id

/-- Of the steps but `RESET` only a command writes a callback's bit: the bookkeeping of a fire does not (41_vtd_commands.md
R141). -/
theorem step_keeps_cbv (h : step s = .next t) (hr : ¬ s.offersReset) (k : Timer) (hk : (s.vtd.timer k).cbv = true) :
    (t.vtd.timer k).cbv = true := by
  obtain ⟨o, -, ⟨hr', -⟩ | ⟨hv, -⟩ | ⟨-, ⟨hs, -⟩ | ⟨hs, -⟩⟩ | ⟨-, i, o', -, hv⟩⟩ := step_timer_cases h
  · exact absurd hr' hr
  · rwa [hv]
  · rwa [hs.timer]
  · rwa [hs.timer, Vtd.fireBookkeeping_timer_cbv]
  · exact hv.keeps_cbv k hk

/-! ### The cache's bits -/

/-- An index outside the cache reads as an entry after `RESET`, which is not valid. -/
theorem Fcc.lt_of_entry_valid {f : Fcc} {e : Nat} (h : (f.entry e).valid = true) : e < f.cache.length := by
  by_contra hout
  rw [Fcc.entry, List.getD_eq_default _ _ (Nat.le_of_not_lt hout)] at h
  cases h

theorem Fcc.insert_keeps_valid {f : Fcc} {e : Nat} (h : (f.entry e).valid = true) (depth : Nat) (len : Byte)
    (n : List Byte) : ((f.insert depth len n).entry e).valid = true := by
  by_cases he : e = f.cwr
  · subst he
    rw [Fcc.insert_entry_same (Fcc.lt_of_entry_valid h)]
  · rwa [Fcc.insert_entry_other f he]

/-- Only the insertion writes the cache. -/
theorem Fcc.validate_keeps_valid {f : Fcc} {e : Nat} (h : (f.entry e).valid = true) (p : Params) (len : Byte)
    (hw : Bool) : ((f.validate p len hw).entry e).valid = true := by
  rcases Fcc.validate_cases p f len hw with ⟨-, he⟩ | ⟨-, -, he⟩ | ⟨-, -, -, he⟩ | ⟨-, -, -, a, -, he⟩
    | ⟨-, -, -, -, he⟩
  case inr.inr.inr.inr =>
    rw [he]
    exact Fcc.insert_keeps_valid h p.cacheDepth len _
  all_goals
    rw [he]
    exact h

theorem step_keeps_valid (h : step s = .next t) (hr : ¬ s.offersReset) {e : Nat}
    (he : (s.fcc.entry e).valid = true) : (t.fcc.entry e).valid = true := by
  obtain ⟨-, hf | ⟨hr', -⟩ | ⟨idx, d, -, -, hf⟩ | ⟨len, hw, -, hf⟩⟩ := step_fcc_unit h
  · rwa [hf]
  · exact absurd hr' hr
  · rw [hf]
    exact he
  · rw [hf]
    exact Fcc.validate_keeps_valid he s.cfg len hw

/-- Settles O11. -/
theorem onlyResetClearsTheValidBits : Obligations.OnlyResetClearsTheValidBits := by
  intro s t h hr
  obtain ⟨o, -, hprog⟩ := step_programsTo h hr
  obtain ⟨hnextv, hhwie⟩ := hprog.nextv_hwie
  exact ⟨hnextv, hhwie, step_keeps_cbv h hr, fun _ => step_keeps_valid h hr⟩

end Sys2Proof.Machine
end

section
/-! A PERIOD timer of period 0 (70_reset_and_hazards.md R225): the return of its late callback, when no other timer is armed. -/

namespace Sys2Proof.Machine

variable {v w : Vtd} {i : Timer}

/-- The only armed timer is the nearest. -/
theorem Vtd.isNearest_of_alone (ha : (v.timer i).armed = true) (halone : ∀ j, (v.timer j).armed = true → j = i) :
    v.IsNearest i := by
  refine ⟨ha, fun j hj => ?_⟩
  rw [halone j hj]
  exact ⟨BitVec.le_refl _, fun _ => BitVec.le_refl _⟩

/-- A reschedule that finds its nearest timer due at `now` programs the compare register with `now` again. -/
theorem Vtd.ReschedulesTo.of_due {found : Bool} {d : Reg16} {o : List Output} (h : v.ReschedulesTo w found d o)
    (hi : v.IsNearest i) (hdue : (v.timer i).cmp = v.now) :
    w = { v with hwcmp := v.now, hwie := true, next := i, nextv := true } ∧ d = 0 ∧ o = [.cmpwr v.now] := by
  rcases h.cases with ⟨hno, -⟩ | ⟨j, hj, rfl, -, rfl, rfl⟩
  · obtain ⟨ha, -⟩ := hi
    rw [hno i] at ha
    cases ha
  · obtain rfl := hi.unique hj
    rw [Vtd.program, Vtd.distance, hdue]
    exact ⟨rfl, BitVec.sub_self _, rfl⟩

/-- The fire of a PERIOD timer of period 0 moves the anchor to its compare value and leaves that where it is (41_vtd_commands.md
R143 (b)). -/
theorem Vtd.BookkeepsTo.of_period_zero (h : v.BookkeepsTo w .period) (hdly : v.period.dly = 0) :
    w = { v with prev := v.period.cmp } := by
  obtain ⟨-, hperiod, -⟩ := h
  have hcmp : v.period.cmp + v.period.dly = v.period.cmp := by rw [hdly]; exact BitVec.add_zero _
  rw [hperiod rfl, hcmp]

/-- Settles O42: the reschedule finds the PERIOD timer at distance 0, which the time elapsed exceeds at every sample but the
entry sample. -/
theorem periodZeroKeepsTheHandlerOpen : Obligations.PeriodZeroKeepsTheHandlerOpen := by
  intro s hp hslot hoffset hperiod hdly hcbv hdue v
  have hnear : Vtd.IsNearest { s.vtd with late := s.vtd.late + 1 } .period :=
    Vtd.isNearest_of_alone hperiod fun j hj => by
      cases j with
      | slot => exact absurd (hslot.symm.trans hj) Bool.false_ne_true
      | period => rfl
      | offset => exact absurd (hoffset.symm.trans hj) Bool.false_ne_true
  obtain ⟨w, found, d, o, hr, hends, hfires⟩ := lateCallbackReturnIsCountedAndReschedules s hp
  obtain ⟨rfl, rfl, rfl⟩ := hr.of_due hnear hdue
  refine ⟨fun hne => ?later, fun heq => ?entry⟩
  case later =>
    have helapsed : 0 < s.cnt - s.vtd.tentry := by bv_omega
    obtain ⟨x, hbook, he⟩ := hfires helapsed hcbv
    obtain rfl : x = { v with prev := s.vtd.period.cmp } := hbook.of_period_zero hdly
    rw [he, List.append_assoc, hdue]
    rfl
  case entry =>
    have helapsed : s.cnt - s.vtd.tentry ≤ 0 := by rw [heq, BitVec.sub_self]; exact BitVec.le_refl _
    rw [hends helapsed, List.append_assoc]
    rfl

end Sys2Proof.Machine
end

section
/-! A word presented on the command port (log 1). -/

namespace Sys2Proof.Machine

/-- The presented word is the oldest input, sampled with the counter input as it stands; presenting it drops no bit of a
32-bit word. -/
theorem State.withFetchWord_inputs (s : State) (w : Nat) :
    (s.withFetchWord 32 w).inputs = ⟨.cmd (BitVec.ofNat 32 w), s.cnt⟩ :: s.inputs := by
  have hw : BitVec.ofNat 32 (w % 2 ^ 32) = BitVec.ofNat 32 w := BitVec.eq_of_toNat_eq (Nat.mod_mod w _)
  rw [State.withFetchWord, hw]

/-- Taking the presented word gives back the state it was presented in. -/
theorem State.take_withFetchWord (s : State) (nbits w : Nat) : (s.withFetchWord nbits w).take s.cnt s.inputs = s := rfl

/-- Settles O6: the step takes the presented word, the oldest input, and so runs its command in the state as it was. -/
theorem presentedWordRunsNext : Obligations.PresentedWordRunsNext := by
  intro s w i hd
  rw [step_cmd (s.withFetchWord_inputs w), takeCommand_ok hd, s.take_withFetchWord]

end Sys2Proof.Machine
end
